-- ==== Sys2Proof/Word.lean ====
section
/-! DEFINITION. The word types of the block and the two encoded words it receives (30_encoding.md R60, R66). -/

namespace Sys2Proof

/-- One byte: a DDRAM cell, a port value, a nibble buffer. -/
abbrev Byte := BitVec 8

/-- A pin number, 0 to 255 (00_scope.md R8, `pin: u8`). -/
abbrev Pin := BitVec 8

/-- The name of an actuator instance (10_state.md R25, `instance_id: u16`). -/
abbrev InstanceId := BitVec 16

/-- A timestamp in simulated microseconds (10_state.md R35, `timestamp_us: u64`). -/
abbrev Micros := BitVec 64

/-- One encoded word: an 80-bit command (30_encoding.md R60) or a 9-bit LCD bus byte with its RS line (R66). -/
inductive Encoded where
  | cmd80 (w : BitVec 80)
  | lcd9 (w : BitVec 9)
  deriving DecidableEq, Repr

end Sys2Proof
end

