-- ==== Sys2Proof/Syntax.lean ====
section
/-! DEFINITION. The 36 operations: 26 of the command port (30_encoding.md R61, R62) and 10 of the LCD bus (R67), one
constructor per row of opcode_table.json. Operands are decoded: register index, LCD role and actuator kind are names, with a
`reserved` case for the values the spec leaves without one, since those commands exist and do nothing (R21, R65 (d), (e)). -/

namespace Sys2Proof

/-- Who issued a command: the `SRC` bit, 0 = step loop, 1 = host (60_exceptions.md R198). -/
inductive Principal where
  | stepLoop
  | host
  deriving DecidableEq, Repr

/-- The register behind an 8-bit register index (10_state.md R18). -/
inductive Reg where
  | t0Cnt | t0Top | t0Cmpa | t0Cmpb | t0Presc | t0Flag
  | t1Cnt | t1Top | t1Cmpa | t1Cmpb | t1Presc | t1Flag
  | inten
  /-- an index not in the table of R18 (R21) -/
  | reserved (index : BitVec 8)
  deriving DecidableEq, Repr

/-- The line an `LCD.PINMAP` binds (30_encoding.md R62): 0 = RS, 1 = EN, 2 to 9 = DB0 to DB7. -/
inductive LcdRole where
  | rs
  | en
  | db (line : Fin 8)
  /-- a role above 9 (R65 (e)) -/
  | reserved (role : BitVec 8)
  deriving DecidableEq, Repr

/-- What an `ACT.ATTACH` attaches (30_encoding.md R62): 0 = Servo, 1 = Lcd. -/
inductive ActKind where
  | servo
  | lcd
  /-- a kind other than 0 or 1 (R65 (d)) -/
  | reserved (kind : BitVec 8)
  deriving DecidableEq, Repr

inductive Instr where
  /-- `CLK.TICK`, 40_clock.md R80 -/
  | clkTick (cycles : BitVec 32)
  /-- `CLK.RESET`, R81 -/
  | clkReset
  /-- `CLK.MICROS`, R82 -/
  | clkMicros
  /-- `CLK.MILLIS`, R83 -/
  | clkMillis
  /-- `CLK.SECONDS`, R84 -/
  | clkSeconds
  /-- `T0.TICK`, 41_timers.md R101 -/
  | t0Tick (cycles : BitVec 32)
  /-- `T1.TICK`, R102 -/
  | t1Tick (cycles : BitVec 32)
  /-- `REG.WR`, R103 -/
  | regWr (index : Reg) (value : BitVec 16)
  /-- `REG.RD`, R104 -/
  | regRd (index : Reg)
  /-- `INT.REQ`, 42_interrupt_controller.md R111 -/
  | intReq (vector : BitVec 16) (en : Bool)
  /-- `INT.POLL`, R113 -/
  | intPoll
  /-- `INT.RETI`, R114 -/
  | intReti
  /-- `PWM.REG`, 43_pwm_router.md R121 -/
  | pwmReg (pin : Pin) (id : InstanceId)
  /-- `PWM.UNREG`, R122 -/
  | pwmUnreg (pin : Pin) (id : InstanceId)
  /-- `PWM.ROUTE`, R123 -/
  | pwmRoute (pin : Pin) (pulseWidth period : BitVec 32)
  /-- `PWM.RISE`, R125 -/
  | pwmRise (pin : Pin) (timestamp : Micros)
  /-- `PWM.FALL`, R126 -/
  | pwmFall (pin : Pin) (timestamp : Micros)
  /-- `SRV.ANIM`, 44_servo.md R134: the operand is a binary64 bit pattern -/
  | srvAnim (dt : BitVec 64)
  /-- `SRV.STALL`, R137 -/
  | srvStall (id : InstanceId) (flag : Bool)
  /-- `PIN.CHG`, 45_lcd.md R141 -/
  | pinChg (pin : Pin) (level : Bool)
  /-- `GPIO.WR`, R142 -/
  | gpioWr (port : BitVec 8) (value : Byte)
  /-- `LCD.PINMAP`, R143 -/
  | lcdPinmap (role : LcdRole) (id : InstanceId) (pin : Pin)
  /-- `ACT.ATTACH`, 46_step_loop_and_host.md R173 -/
  | actAttach (pin : Pin) (kind : ActKind) (id : InstanceId)
  /-- `ACT.DETACH`, R174 -/
  | actDetach (id : InstanceId)
  /-- `LCD.GETBUF`, R175 -/
  | lcdGetbuf (id : InstanceId)
  /-- `SYS.RESET`, R176 -/
  | sysReset
  /-- `LCD.NOP`, 45_lcd.md R155 -/
  | lcdNop
  /-- `LCD.CLEAR`, R147 -/
  | lcdClear
  /-- `LCD.HOME`, R148 -/
  | lcdHome
  /-- `LCD.ENTRY`, R149 -/
  | lcdEntry (d s : Bool)
  /-- `LCD.DISPCTL`, R150 -/
  | lcdDispctl (d c b : Bool)
  /-- `LCD.SHIFT`, R151 -/
  | lcdShift (s r : Bool)
  /-- `LCD.FUNCSET`, R152 -/
  | lcdFuncset (l n f : Bool)
  /-- `LCD.SETCGRAM`, R153 -/
  | lcdSetcgram (a : BitVec 6)
  /-- `LCD.SETDDRAM`, R154 -/
  | lcdSetddram (a : BitVec 7)
  /-- `LCD.DATA`, R156 -/
  | lcdData (b : Byte)
  deriving DecidableEq, Repr

end Sys2Proof
end

