-- ==== Sys2Proof/WellFormed.lean ====
section
/-! DEFINITION. Which instructions are well formed: a `reserved` operand is one that really has no name, so that every
encoding has one well-formed reading. -/

namespace Sys2Proof

/-- The 13 indices in use (10_state.md R18). -/
def namedIndex (i : BitVec 8) : Bool :=
  i.toNat ≤ 0x05 || (0x08 ≤ i.toNat && i.toNat ≤ 0x0D) || i.toNat == 0x10

def Reg.wf : Reg → Bool
  | .reserved i => !namedIndex i
  | _ => true

def LcdRole.wf : LcdRole → Bool
  | .reserved r => 9 < r.toNat
  | _ => true

def ActKind.wf : ActKind → Bool
  | .reserved k => 1 < k.toNat
  | _ => true

def Instr.wf : Instr → Bool
  | .regWr r _ => r.wf
  | .regRd r => r.wf
  | .lcdPinmap r _ _ => r.wf
  | .actAttach _ k _ => k.wf
  | _ => true

end Sys2Proof
end

