-- ==== Sys2Proof/Decode.lean ====
section
/-! DEFINITION. The decoder of both languages (30_encoding.md R60 to R68), total, and the encoder. `CMD80` is decoded by `op`
alone (R61); reserved bits of `a` and `d` are dropped (R65 (c)). `LCD9` is decoded by the leading one (R67, 45_lcd.md R146). -/

namespace Sys2Proof

/-- Why a word is no instruction. -/
inductive DecodeReject where
  /-- the `op` value is not in the table of 30_encoding.md R61 (R65 (a)) -/
  | reservedOp (op : BitVec 8)
  /-- the number is not a word of the width asked for -/
  | tooWide (nbits w : Nat)
  deriving DecidableEq, Repr

/-- `op` = `CMD[79:72]` (R60). -/
def opField (w : BitVec 80) : BitVec 8 := w.extractLsb' 72 8

/-- `a` = `CMD[71:64]` (R60). -/
def aField (w : BitVec 80) : BitVec 8 := w.extractLsb' 64 8

/-- `d` = `CMD[63:0]` (R60). -/
def dField (w : BitVec 80) : BitVec 64 := w.extractLsb' 0 64

/-- `CMD80` = `op[79:72]`, `a[71:64]`, `d[63:0]` (R60). -/
def cmdWord (op a : BitVec 8) (d : BitVec 64) : BitVec 80 := op ++ (a ++ d)

/-- The register named by an index (10_state.md R18, R21). -/
def regOfIndex (i : BitVec 8) : Reg :=
  if i = 0x00 then .t0Cnt
  else if i = 0x01 then .t0Top
  else if i = 0x02 then .t0Cmpa
  else if i = 0x03 then .t0Cmpb
  else if i = 0x04 then .t0Presc
  else if i = 0x05 then .t0Flag
  else if i = 0x08 then .t1Cnt
  else if i = 0x09 then .t1Top
  else if i = 0x0A then .t1Cmpa
  else if i = 0x0B then .t1Cmpb
  else if i = 0x0C then .t1Presc
  else if i = 0x0D then .t1Flag
  else if i = 0x10 then .inten
  else .reserved i

def indexOfReg : Reg → BitVec 8
  | .t0Cnt => 0x00
  | .t0Top => 0x01
  | .t0Cmpa => 0x02
  | .t0Cmpb => 0x03
  | .t0Presc => 0x04
  | .t0Flag => 0x05
  | .t1Cnt => 0x08
  | .t1Top => 0x09
  | .t1Cmpa => 0x0A
  | .t1Cmpb => 0x0B
  | .t1Presc => 0x0C
  | .t1Flag => 0x0D
  | .inten => 0x10
  | .reserved i => i

/-- The line a role number names (R62): 0 = RS, 1 = EN, 2 to 9 = DB0 to DB7. -/
def roleOfNumber (r : BitVec 8) : LcdRole :=
  if r = 0 then .rs
  else if r = 1 then .en
  else if h : r.toNat - 2 < 8 then .db ⟨r.toNat - 2, h⟩
  else .reserved r

def numberOfRole : LcdRole → BitVec 8
  | .rs => 0
  | .en => 1
  | .db line => BitVec.ofNat 8 (line.val + 2)
  | .reserved r => r

/-- The kind a kind number names (R62): 0 = Servo, 1 = Lcd. -/
def kindOfNumber (k : BitVec 8) : ActKind :=
  if k = 0 then .servo else if k = 1 then .lcd else .reserved k

def numberOfKind : ActKind → BitVec 8
  | .servo => 0
  | .lcd => 1
  | .reserved k => k

/-- `d[15:0]` (R62): a value, a vector address or an instance id. -/
def dLow16 (d : BitVec 64) : BitVec 16 := d.extractLsb' 0 16

/-- `d[23:16]` (R62): the pin of `LCD.PINMAP`, the kind of `ACT.ATTACH`. -/
def dByte2 (d : BitVec 64) : BitVec 8 := d.extractLsb' 16 8

/-- `d[31:0]` (R62): a cycle count or a pulse width. -/
def dLow32 (d : BitVec 64) : BitVec 32 := d.extractLsb' 0 32

/-- `d[63:32]` (R62): the period of `PWM.ROUTE`. -/
def dHigh32 (d : BitVec 64) : BitVec 32 := d.extractLsb' 32 32

/-- The opcode map of R61 with the operand fields of R62. -/
def decodeFields (op a : BitVec 8) (d : BitVec 64) : Except DecodeReject Instr :=
  if op = 0x10 then .ok (.clkTick (dLow32 d))
  else if op = 0x11 then .ok .clkReset
  else if op = 0x12 then .ok .clkMicros
  else if op = 0x13 then .ok .clkMillis
  else if op = 0x14 then .ok .clkSeconds
  else if op = 0x20 then .ok (.t0Tick (dLow32 d))
  else if op = 0x21 then .ok (.t1Tick (dLow32 d))
  else if op = 0x22 then .ok (.regWr (regOfIndex a) (dLow16 d))
  else if op = 0x23 then .ok (.regRd (regOfIndex a))
  else if op = 0x30 then .ok (.intReq (dLow16 d) (a.getLsbD 0))
  else if op = 0x31 then .ok .intPoll
  else if op = 0x32 then .ok .intReti
  else if op = 0x40 then .ok (.pwmReg a (dLow16 d))
  else if op = 0x41 then .ok (.pwmUnreg a (dLow16 d))
  else if op = 0x42 then .ok (.pwmRoute a (dLow32 d) (dHigh32 d))
  else if op = 0x43 then .ok (.pwmRise a d)
  else if op = 0x44 then .ok (.pwmFall a d)
  else if op = 0x50 then .ok (.srvAnim d)
  else if op = 0x51 then .ok (.srvStall (dLow16 d) (a.getLsbD 0))
  else if op = 0x60 then .ok (.pinChg a (d.getLsbD 0))
  else if op = 0x61 then .ok (.gpioWr a (d.extractLsb' 0 8))
  else if op = 0x62 then .ok (.lcdPinmap (roleOfNumber a) (dLow16 d) (dByte2 d))
  else if op = 0x70 then .ok (.actAttach a (kindOfNumber (dByte2 d)) (dLow16 d))
  else if op = 0x71 then .ok (.actDetach (dLow16 d))
  else if op = 0x72 then .ok (.lcdGetbuf (dLow16 d))
  else if op = 0x73 then .ok .sysReset
  else .error (.reservedOp op)

/-- Decoding of a command word: `op` alone selects the operation (R61). -/
def decodeCmd80 (w : BitVec 80) : Except DecodeReject Instr :=
  decodeFields (opField w) (aField w) (dField w)

/-- Decoding of an LCD bus byte (R67): `RS` selects data, otherwise the most significant 1 bit selects the command. -/
def decodeLcd9 (w : BitVec 9) : Instr :=
  if w.getLsbD 8 then .lcdData (w.extractLsb' 0 8)
  else if w.getLsbD 7 then .lcdSetddram (w.extractLsb' 0 7)
  else if w.getLsbD 6 then .lcdSetcgram (w.extractLsb' 0 6)
  else if w.getLsbD 5 then .lcdFuncset (w.getLsbD 4) (w.getLsbD 3) (w.getLsbD 2)
  else if w.getLsbD 4 then .lcdShift (w.getLsbD 3) (w.getLsbD 2)
  else if w.getLsbD 3 then .lcdDispctl (w.getLsbD 2) (w.getLsbD 1) (w.getLsbD 0)
  else if w.getLsbD 2 then .lcdEntry (w.getLsbD 1) (w.getLsbD 0)
  else if w.getLsbD 1 then .lcdHome
  else if w.getLsbD 0 then .lcdClear
  else .lcdNop

/-- Decoding of a word of either language. -/
def decode : Encoded → Except DecodeReject Instr
  | .cmd80 w => decodeCmd80 w
  | .lcd9 w => .ok (decodeLcd9 w)

/-- A number of `nbits` bits as a word: the table's `CMD80` rows have 80 bits, its `LCD9` rows 9 (16 in whole bytes). -/
def wordOfTable (nbits w : Nat) : Except DecodeReject Encoded :=
  if nbits ≤ 16 then
    if w < 2 ^ 9 then .ok (.lcd9 (BitVec.ofNat 9 w)) else .error (.tooWide nbits w)
  else
    if w < 2 ^ 80 then .ok (.cmd80 (BitVec.ofNat 80 w)) else .error (.tooWide nbits w)

/-- What the decoder reads from the opcode table's number `w` of `nbits` bits; bit 0 of `w` is bit 0 of the word. -/
def decodeTableWord (nbits w : Nat) : Option Instr :=
  match wordOfTable nbits w with
  | .error _ => none
  | .ok e =>
    match decode e with
    | .ok i => some i
    | .error _ => none

/-- A 1-bit flag in `a[0]` (R62), other bits zero. -/
def flagByte (b : Bool) : BitVec 8 := if b then 1 else 0

/-- `d` from `d[15:0]`, other bits zero. -/
def dOf16 (v : BitVec 16) : BitVec 64 := v.setWidth 64

/-- `d` from `d[23:16]` and `d[15:0]`, other bits zero. -/
def dOfByte2 (hi : BitVec 8) (lo : BitVec 16) : BitVec 64 := (hi ++ lo).setWidth 64

/-- A data bit of an LCD byte. -/
def bitOf (b : Bool) : BitVec 1 := BitVec.ofBool b

/-- The word of an instruction, reserved bits zero (R62, R65 (c), R67). -/
def encode : Instr → Encoded
  | .clkTick c => .cmd80 (cmdWord 0x10 0 (c.setWidth 64))
  | .clkReset => .cmd80 (cmdWord 0x11 0 0)
  | .clkMicros => .cmd80 (cmdWord 0x12 0 0)
  | .clkMillis => .cmd80 (cmdWord 0x13 0 0)
  | .clkSeconds => .cmd80 (cmdWord 0x14 0 0)
  | .t0Tick c => .cmd80 (cmdWord 0x20 0 (c.setWidth 64))
  | .t1Tick c => .cmd80 (cmdWord 0x21 0 (c.setWidth 64))
  | .regWr r v => .cmd80 (cmdWord 0x22 (indexOfReg r) (dOf16 v))
  | .regRd r => .cmd80 (cmdWord 0x23 (indexOfReg r) 0)
  | .intReq v en => .cmd80 (cmdWord 0x30 (flagByte en) (dOf16 v))
  | .intPoll => .cmd80 (cmdWord 0x31 0 0)
  | .intReti => .cmd80 (cmdWord 0x32 0 0)
  | .pwmReg pin id => .cmd80 (cmdWord 0x40 pin (dOf16 id))
  | .pwmUnreg pin id => .cmd80 (cmdWord 0x41 pin (dOf16 id))
  | .pwmRoute pin pw period => .cmd80 (cmdWord 0x42 pin (period ++ pw))
  | .pwmRise pin ts => .cmd80 (cmdWord 0x43 pin ts)
  | .pwmFall pin ts => .cmd80 (cmdWord 0x44 pin ts)
  | .srvAnim dt => .cmd80 (cmdWord 0x50 0 dt)
  | .srvStall id flag => .cmd80 (cmdWord 0x51 (flagByte flag) (dOf16 id))
  | .pinChg pin level => .cmd80 (cmdWord 0x60 pin ((bitOf level).setWidth 64))
  | .gpioWr port v => .cmd80 (cmdWord 0x61 port (v.setWidth 64))
  | .lcdPinmap role id pin => .cmd80 (cmdWord 0x62 (numberOfRole role) (dOfByte2 pin id))
  | .actAttach pin kind id => .cmd80 (cmdWord 0x70 pin (dOfByte2 (numberOfKind kind) id))
  | .actDetach id => .cmd80 (cmdWord 0x71 0 (dOf16 id))
  | .lcdGetbuf id => .cmd80 (cmdWord 0x72 0 (dOf16 id))
  | .sysReset => .cmd80 (cmdWord 0x73 0 0)
  | .lcdNop => .lcd9 0b000000000
  | .lcdClear => .lcd9 0b000000001
  | .lcdHome => .lcd9 0b000000010
  | .lcdEntry d s => .lcd9 (0b0000001#7 ++ bitOf d ++ bitOf s)
  | .lcdDispctl d c b => .lcd9 (0b000001#6 ++ bitOf d ++ bitOf c ++ bitOf b)
  | .lcdShift s r => .lcd9 (0b00001#5 ++ bitOf s ++ bitOf r ++ 0#2)
  | .lcdFuncset l n f => .lcd9 (0b0001#4 ++ bitOf l ++ bitOf n ++ bitOf f ++ 0#2)
  | .lcdSetcgram a => .lcd9 (0b001#3 ++ a)
  | .lcdSetddram a => .lcd9 (0b01#2 ++ a)
  | .lcdData b => .lcd9 (0b1#1 ++ b)

end Sys2Proof
end

