-- ==== Sys2Proof/Config.lean ====
section
/-! DEFINITION. The fixed parameters (00_scope.md R5) as constants, the open parameters (R6) as one record, and the free
values. The record is the argument R6 says a model takes; State carries it and no step writes it (log 2). -/

namespace Sys2Proof

/-- `CLOCK_HZ` (00_scope.md R5). -/
def clockHz : Nat := 16000000

/-- `NAT0`: effective TOP of Timer0 when `top` is unset (R5). -/
def nat0 : Nat := 0xFF

/-- `NAT1`: effective TOP of Timer1 when `top` is unset (R5). -/
def nat1 : Nat := 0xFFFF

/-- `MIN_PULSE_US` (R5). -/
def minPulseUs : Nat := 1000

/-- `MAX_PULSE_US` (R5). -/
def maxPulseUs : Nat := 2000

/-- `ANGLE_MAX_DEG` (R5). -/
def angleMaxDeg : Nat := 180

/-- `DDRAM_SIZE` (R5). -/
def ddramSize : Nat := 80

/-- `DISP_COLS` (R5). -/
def dispCols : Nat := 16

/-- Free value (log 8, DESIGN CHOICE): the functions Q to Q that `RND32` may be. It has no body, so nothing can be proved of a
value of it. -/
opaque openRounding32 : Nat → Rat → Rat

/-- Free value (log 8, DESIGN CHOICE): the functions Q to Q that `RND64` may be. Nothing is known of them but that they do not
decrease, as 40_clock.md R86 says of `CLK.SECONDS`. -/
opaque openRounding64 : Nat → Rat →o Rat

/-- Free value (log 7, DESIGN CHOICE): where `CLK.SECONDS` puts a quotient that no binary64 pattern denotes, so which of the two
patterns next to it is driven. It does not decrease (40_clock.md R86); nothing else is known of it. -/
opaque openBinary64 : Rat →o Rat

/-- A rounding parameter (00_scope.md R6, `RND32`, `RND64`): the identity, which is the spec's default, or any other function
(log 8). -/
inductive Rounding where
  | identity
  | other (k : Nat)
  deriving DecidableEq, Repr

/-- The bus width `function_set.bits`, 4 or 8 (10_state.md R29). -/
inductive BusWidth where
  | four
  | eight
  deriving DecidableEq, Repr

/-- One mapped bit of `PORT_PIN_MAP` (00_scope.md R6): bit `bit` of port `port` drives pin `pin`. -/
structure PortPin where
  port : Nat
  bit : Nat
  pin : Pin
  deriving DecidableEq, Repr

/-- A byte of a return address as it is pushed: its low byte, its high byte, or a byte above them, which is 0 (log 21). -/
inductive ReturnByte where
  | low
  | high
  | zero
  deriving DecidableEq, Repr

/-- How a CPU puts a pushed return address into its data memory, "stack pointer, byte order, two or three bytes" (10_state.md
R30): the bytes stored, each with its offset from the stack pointer before the push, and what the push adds to the stack
pointer. The form is the model's, DESIGN CHOICE (log 21). -/
structure StackLayout where
  cells : List (Int × ReturnByte)
  spChange : Int
  deriving DecidableEq, Repr

/-- `PUSH_LAYOUT` (00_scope.md R6): the default, an abstract stack of 16-bit addresses, or a layout in the CPU's data memory. -/
inductive PushLayout where
  | abstractStack
  | inMemory (layout : StackLayout)
  deriving DecidableEq, Repr

/-- The open parameters of 00_scope.md R6. `portPinMap` and `addrMap` are the two function-typed ones as finite tables: the
first row that matches is the value, no row is `None` (log 2). -/
structure Config where
  /-- `PRESC0_RESET`, decision D7 -/
  presc0Reset : BitVec 16
  /-- `PRESC1_RESET`, decision D7 -/
  presc1Reset : BitVec 16
  /-- `VEC_T0_OVF`, decision D16 -/
  vecT0Ovf : BitVec 16
  /-- `VEC_T1_OVF`, decision D16 -/
  vecT1Ovf : BitVec 16
  /-- `PIN_OC1A`, decision D12 -/
  pinOc1a : Pin
  /-- `PIN_OC1B`, decision D12 -/
  pinOc1b : Pin
  /-- `NPORTS`, decision D32 -/
  nports : Nat
  /-- `PORT_PIN_MAP`, decision D32 -/
  portPinMap : List PortPin
  /-- `ADDR_MAP`, decision D4: used by the wrapper round the CPU core, by no operation (log 23). The spec gives a CPU data-space
  address no width; DESIGN CHOICE (log 23): a natural number, so that a CPU of any address width can be given -/
  addrMap : List (Nat × BitVec 8)
  /-- `PUSH_LAYOUT`, decision D18: used by the CPU core when the block pushes a return address, by no operation (20_memory.md
  R44, R47; log 21) -/
  pushLayout : PushLayout
  /-- `SERVO_SPEED_DEG_PER_S`, decision D23 -/
  servoSpeed : Rat
  /-- `SERVO_MAX_TORQUE`, decision D23 -/
  servoMaxTorque : Rat
  /-- `SERVO_INIT_ANGLE_DEG`, decision D23 -/
  servoInitAngle : Rat
  /-- `SERVO_DEADBAND_DEG`, decision D23 -/
  servoDeadband : Rat
  /-- `LCD_RESET_BITS`, decision D26 -/
  lcdResetBits : BusWidth
  /-- `RND32`, decision D22 -/
  rnd32 : Rounding
  /-- `RND64`, decisions D22, D36 -/
  rnd64 : Rounding
  /-- the CPU core's reset value of `PC` (70_reset_and_hazards.md R209) -/
  cpuPcReset : BitVec 16
  /-- the CPU core's reset value of `I` (R209) -/
  cpuIReset : Bool
  /-- the CPU core's reset value of `RSTACK` (R209) -/
  cpuRstackReset : List (BitVec 16)
  deriving DecidableEq, Repr

/-- `PORT_PIN_MAP` of the fixture of 95_test_vectors.md section 0: `n` bits of port `port` from pin `first` on. -/
def portPins (port first n : Nat) : List PortPin :=
  (List.range n).map fun bit => ⟨port, bit, BitVec.ofNat 8 (first + bit)⟩

/-- The parameters State.reset carries: the fixture of 95_test_vectors.md section 0 (DESIGN CHOICE, log 3) and the CPU's usual
reset values (PRESUMED, R209, log 4). Statements are about every Config. -/
def fixtureConfig : Config where
  presc0Reset := 0
  presc1Reset := 0
  vecT0Ovf := 0x0020
  vecT1Ovf := 0x001A
  pinOc1a := 9
  pinOc1b := 10
  nports := 3
  portPinMap := portPins 0 8 6 ++ portPins 1 14 6 ++ portPins 2 0 8
  addrMap := []
  pushLayout := .abstractStack
  servoSpeed := 60
  servoMaxTorque := 0
  servoInitAngle := 90
  servoDeadband := 1 / 20
  lcdResetBits := .four
  rnd32 := .identity
  rnd64 := .identity
  cpuPcReset := 0
  cpuIReset := false
  cpuRstackReset := []

end Sys2Proof
end

