-- ==== Sys2Proof/Machine/State.lean ====
section
/-! DEFINITION. The state of the block, every piece the spec gives it (10_state.md R10 to R36), and State.reset. -/

namespace Sys2Proof.Machine

open Sys2Proof

/-- What an unlisted DDRAM cell reads as: every cell is created 0x20 (10_state.md R29; log 15). -/
def blankCell : Byte := 0x20

/-- What an unlisted port reads as: every port shadow is reset to 0 (10_state.md R34; log 16). -/
def blankPort : Byte := 0x00

/-- Which timer. -/
inductive TimerId where
  | t0
  | t1
  deriving DecidableEq, Repr

/-- `TimerState` (10_state.md R12). -/
structure TimerState where
  counter : BitVec 16
  top : BitVec 16
  compareA : BitVec 16
  compareB : BitVec 16
  prescaler : BitVec 16
  overflowFlag : Bool
  initialized : Bool
  deriving DecidableEq, Repr

/-- A timer after POR or SYS.RESET (10_state.md R12, R39), given its `PRESCn_RESET`. -/
def timerReset (prescaler : BitVec 16) : TimerState where
  counter := 0
  top := 0
  compareA := 0
  compareB := 0
  prescaler := prescaler
  overflowFlag := false
  initialized := false

/-- `INT.ic_state` (10_state.md R22). -/
inductive IcState where
  | idle
  | dispatching
  deriving DecidableEq, Repr

/-- `PendingInterrupt` (10_state.md R23). -/
structure Pending where
  vectorAddress : BitVec 16
  priorityOrder : Nat
  deriving DecidableEq, Repr

/-- The interrupt controller's state (10_state.md R22 to R24). -/
structure IntState where
  icState : IcState
  pending : List Pending
  seqNext : Nat
  deriving DecidableEq, Repr

/-- The controller after reset (10_state.md R39). -/
def intReset : IntState where
  icState := .idle
  pending := []
  seqNext := 0

/-- `ServoState` (10_state.md R27); every angle, speed and time is an exact rational (44_servo.md R130). -/
structure ServoState where
  instanceId : InstanceId
  pin : Pin
  currentAngleDeg : Rat
  targetAngleDeg : Rat
  angularSpeedDegPerS : Rat
  maxTorque : Rat
  isStalled : Bool
  deadbandDeg : Rat
  pulseStartTimeUs : Option Micros
  lastAnimationTickWallclock : Rat
  deriving DecidableEq, Repr

/-- `entry_mode`'s direction (10_state.md R29). -/
inductive Direction where
  | increment
  | decrement
  deriving DecidableEq, Repr

/-- `function_set.lines`, 1 or 2 (10_state.md R29). -/
inductive Lines where
  | one
  | two
  deriving DecidableEq, Repr

/-- `function_set.font` (10_state.md R29). -/
inductive Font where
  | f5x8
  | f5x10
  deriving DecidableEq, Repr

/-- `entry_mode` (10_state.md R29). -/
structure EntryMode where
  direction : Direction
  shiftDisplay : Bool
  deriving DecidableEq, Repr

/-- `function_set` (10_state.md R29). -/
structure FunctionSet where
  bits : BusWidth
  lines : Lines
  font : Font
  deriving DecidableEq, Repr

/-- `LCDState` (10_state.md R29) and the model's two marks. `ddram` lists the cells, by cell index 0 to 79, that do not hold
`blankCell` (log 15). -/
structure LcdState where
  ddram : List Host.Cell
  cursorAddr : BitVec 8
  entryMode : EntryMode
  displayOn : Bool
  cursorOn : Bool
  blinkOn : Bool
  nibbleBuffer : BitVec 8
  awaitingLowNibble : Bool
  functionSet : FunctionSet
  /-- the model's mark (log 12): an `LCD.SETCGRAM` came and no `LCD.SETDDRAM` since -/
  cgramLast : Bool
  /-- the model's mark (log 12): the instance did something 93_implementation_defined.md U5 or U6 tells claims not to rest on -/
  outsideSpec : Bool
  deriving DecidableEq, Repr

/-- `LcdPins` (10_state.md R31). -/
structure LcdPins where
  rs : Option Pin
  en : Option Pin
  db : Vector (Option Pin) 8
  deriving DecidableEq, Repr

/-- What an instance id names (10_state.md R26). -/
inductive ActInstance where
  | servo (sv : ServoState)
  | lcd (st : LcdState) (pins : LcdPins)
  deriving DecidableEq, Repr

/-- The CPU surface (10_state.md R30): `PC`, the global interrupt enable `I`, and the return addresses, newest first. -/
structure Cpu where
  pc : BitVec 16
  i : Bool
  rstack : List (BitVec 16)
  deriving DecidableEq, Repr

/-- The compare channel of a `Cmp` event (10_state.md R36). -/
inductive Channel where
  | a
  | b
  deriving DecidableEq, Repr

/-- The level of a pulse event (10_state.md R35). -/
inductive Level where
  | high
  | low
  deriving DecidableEq, Repr

/-- An entry of the output trace (10_state.md R36). -/
inductive Event where
  | ovf (n : TimerId) (ts : Micros)
  | cmp (n : TimerId) (ch : Channel) (ts : Micros)
  | pulse (pin : Pin) (level : Level) (ts : Micros)
  | angle (id : InstanceId) (angle : Rat)
  deriving DecidableEq, Repr

/-- What the response port drives (30_encoding.md R63). -/
inductive Resp where
  /-- after an operation that returns nothing: no value (R63, log 6) -/
  | notMeaningful
  /-- `CLK.MICROS`, `CLK.MILLIS` -/
  | u64 (v : BitVec 64)
  /-- `CLK.SECONDS`: the exact value and its binary64 pattern (40_clock.md R84, log 7) -/
  | f64 (value : Rat) (pattern : BitVec 64)
  /-- `T0.TICK`, `T1.TICK`: the overflow count -/
  | u32 (v : BitVec 32)
  /-- `REG.RD` -/
  | u16 (v : BitVec 16)
  /-- `LCD.GETBUF`: 32 bytes, row 0 first -/
  | bytes (buf : List Byte)
  deriving DecidableEq, Repr

/-- What waits on the input: a command word with its `SRC` bit (30_encoding.md R60), or an LCD bus byte for an instance
(R66, log 14). -/
inductive BusWord where
  | cmd (src : Principal) (w : BitVec 80)
  | lcd (id : InstanceId) (w : BitVec 9)
  deriving DecidableEq, Repr

/-- The whole state. -/
structure State where
  /-- the open parameters (00_scope.md R6, log 2); no step writes them -/
  cfg : Config
  /-- the commands waiting on the port, next first (log 1) -/
  cmds : List BusWord
  /-- `SRC` of the command being executed (30_encoding.md R60) -/
  src : Principal
  /-- the instance the LCD byte being executed is for (log 14) -/
  lcdSel : InstanceId
  /-- `RESP` (30_encoding.md R63) -/
  resp : Resp
  /-- `CLK.cpu_cycles` (10_state.md R11) -/
  cpuCycles : BitVec 64
  /-- `T0` (R12) -/
  t0 : TimerState
  /-- `T1` (R12) -/
  t1 : TimerState
  /-- `PRESC_CNT0` (R15) -/
  prescCnt0 : BitVec 16
  /-- `PRESC_CNT1` (R15) -/
  prescCnt1 : BitVec 16
  /-- `INTEN` (R19) -/
  inten : BitVec 2
  /-- `INT` (R22 to R24) -/
  int : IntState
  /-- `PWM.registry` (R25): pairs in rising order of pin, then id -/
  registry : List (Pin × InstanceId)
  /-- `ACT` (R26): ids in rising order -/
  act : List (InstanceId × ActInstance)
  /-- `PINLVL` (R33) -/
  pinlvl : Vector Bool 256
  /-- `PORT` (R34): the ports that do not hold `blankPort` (log 16) -/
  port : List Host.Cell
  /-- `CPU` (R30) -/
  cpu : Cpu
  /-- `OUT` (R36), oldest first -/
  out : List Event
  deriving DecidableEq, Repr

/-- Why the machine stops. The spec has no fatal condition (60_exceptions.md R185). -/
inductive Fault where
  /-- Raised by a DDRAM access at an address outside `V(lines)`, which 20_memory.md R41 says is never made: by `LCD.DATA`, and
  by `PIN.CHG` and `GPIO.WR` when they complete such a byte. Safe: no state with a valid cursor raises it (log 15). -/
  | ddramAddress
  deriving DecidableEq, Repr

/-- Why an operation is given no meaning. -/
inductive Refusal where
  /-- An instruction of the table the model does not have. Raised by no arm. -/
  | notModelled (mnemonic : String)
  /-- Raised by `CLK.TICK` when the sum reaches 2^64 (40_clock.md R80: no defined result, a model must refuse). Safe (log 9). -/
  | clockOverflow
  /-- Raised by `INT.RETI` with an empty return stack (42_interrupt_controller.md R114: not in the source, a model must refuse).
  Safe (log 10). -/
  | retiEmptyStack
  deriving DecidableEq, Repr

/-- The CPU surface the CPU core's own reset leaves: the parameters of 70_reset_and_hazards.md R209. -/
def cpuReset (cfg : Config) : Cpu where
  pc := cfg.cpuPcReset
  i := cfg.cpuIReset
  rstack := cfg.cpuRstackReset

/-- POR (70_reset_and_hazards.md R206, 10_state.md R39) under the parameters `cfg`. -/
def powerOn (cfg : Config) : State where
  cfg := cfg
  cmds := []
  src := .stepLoop
  lcdSel := 0
  resp := .notMeaningful
  cpuCycles := 0
  t0 := timerReset cfg.presc0Reset
  t1 := timerReset cfg.presc1Reset
  prescCnt0 := 0
  prescCnt1 := 0
  inten := 0
  int := intReset
  registry := []
  act := []
  pinlvl := Vector.replicate 256 false
  port := []
  cpu := cpuReset cfg
  out := []

/-- The machine right after reset: POR under the fixture's parameters (logs 3 and 4). -/
def State.reset : State := powerOn fixtureConfig

end Sys2Proof.Machine
end

