-- ==== Sys2Proof/Machine/Operands.lean ====
section
/-! DEFINITION. The computed operands (30_encoding.md R64) and the number formats: microseconds, pulse widths, servo angles,
binary64, DDRAM addresses, LCD bytes, the parameter tables. Nothing here reads or writes State. -/

namespace Sys2Proof.Machine

open Sys2Proof

/-! ### Rational arithmetic (00_scope.md R7) -/

def absQ (x : Rat) : Rat := if x < 0 then -x else x

/-- `sign`, with `sign(0) = 0`. -/
def signQ (x : Rat) : Rat := if x < 0 then -1 else if x = 0 then 0 else 1

def minQ (x y : Rat) : Rat := if x ≤ y then x else y

def clampQ (x lo hi : Rat) : Rat := if x < lo then lo else if hi < x then hi else x

/-- `RND32` as a function (44_servo.md R130; log 8). -/
def round32 (r : Rounding) (q : Rat) : Rat :=
  match r with
  | .identity => q
  | .other k => openRounding32 k q

/-- `RND64` as a function (44_servo.md R130, 40_clock.md R84; log 8): it does not decrease (R86). -/
def round64 (r : Rounding) (q : Rat) : Rat :=
  match r with
  | .identity => q
  | .other k => openRounding64 k q

/-! ### Time (40_clock.md R82 to R84, 41_timers.md R96) -/

/-- `micros_of(c) = (c * 1_000_000) div CLOCK_HZ` (R82). -/
def microsOf (c : Nat) : Nat := c * 1000000 / clockHz

/-- `(c * 1000) div CLOCK_HZ` (R83). -/
def millisOf (c : Nat) : Nat := c * 1000 / clockHz

/-- The exact quotient `c / CLOCK_HZ` (R84). -/
def secondsOf (c : Nat) : Rat := (c : Rat) / (clockHz : Rat)

/-- `WrapTime` of R96: the instant of a batch cycle that `rest` cycles of the batch follow, the clock reading `cycles`. -/
def wrapTime (cycles rest : Nat) : Nat := microsOf (cycles - rest)

/-! ### Pulse width and angle (41_timers.md R95, 44_servo.md R131) -/

/-- `PeriodUs` (R95). -/
def periodUs (top prescaler : Nat) : Nat := top * prescaler * 1000000 / clockHz

/-- `PulseUs` (R95): multiplied before divided, no clamp. -/
def pulseUs (compare top period : Nat) : Nat := compare * period / top

/-- `pulse_width_to_angle` (R131), over the rationals. -/
def pulseWidthToAngle (w : Nat) : Rat :=
  clampQ (((w : Rat) - minPulseUs) / ((maxPulseUs : Rat) - minPulseUs) * angleMaxDeg) 0 angleMaxDeg

/-! ### IEEE 754 binary64 (30_encoding.md R62, R63)

A pattern is a sign bit above 63 magnitude bits, which are an exponent field above 52 fraction bits; the magnitude bits read as a
number rise with the magnitude they stand for. -/

/-- The magnitude that magnitude bits `x` stand for, in units of 2^-1074, the least positive binary64 number. -/
def magnitudeUnits (x : Nat) : Nat :=
  if x / 2 ^ 52 = 0 then x else (2 ^ 52 + x % 2 ^ 52) * 2 ^ (x / 2 ^ 52 - 1)

/-- The magnitude of magnitude bits `x` as a rational. -/
def magnitudeOf (x : Nat) : Rat := (magnitudeUnits x : Rat) / ((2 ^ 1074 : Nat) : Rat)

/-- The magnitude bits of an infinity; those of a NaN are above, those of every number below. -/
def infinityBits : Nat := 2047 * 2 ^ 52

/-- The rational a binary64 pattern denotes; none for a NaN or an infinity. -/
def binary64Value (p : BitVec 64) : Option Rat :=
  let x := (p.extractLsb' 0 63).toNat
  if infinityBits ≤ x then none else some (if p.getLsbD 63 then -magnitudeOf x else magnitudeOf x)

/-- The magnitude bits `x` are those of a number, and it is at most `n / d`. -/
def bitsFit (n d x : Nat) : Bool := decide (x < infinityBits) && decide (magnitudeUnits x * d ≤ n * 2 ^ 1074)

/-- The greatest magnitude bits whose number is at most `n / d`, the `b` lowest bits still to be found above `x`. -/
def greatestBits (n d : Nat) : Nat → Nat → Nat
  | 0, x => x
  | b + 1, x => if bitsFit n d (x + 2 ^ b) then greatestBits n d b (x + 2 ^ b) else greatestBits n d b x

/-- For a `q` between magnitude bits `x` and `x + 1`, the latter are driven: the free value is at or beyond them (log 7). -/
def drivesNext (q : Rat) (x : Nat) : Bool :=
  if q < 0 then decide (openBinary64 q ≤ -magnitudeOf (x + 1)) else decide (magnitudeOf (x + 1) ≤ openBinary64 q)

/-- The magnitude bits driven for `q`: those of its magnitude where some are; where none are, those next below it or next above it
in magnitude (log 7). -/
def magnitudeBits (q : Rat) : Nat :=
  let x := greatestBits q.num.natAbs q.den 63 0
  if magnitudeUnits x * q.den = q.num.natAbs * 2 ^ 1074 then x
  else if drivesNext q x then x + 1
  else x

/-- `binary64_of` (40_clock.md R84): the pattern that denotes `q`; where none does, a neighbouring one (log 7). Two patterns denote
0 and the spec names neither: plus zero is the model's choice, DESIGN CHOICE (log 7). -/
def binary64Of (q : Rat) : BitVec 64 :=
  if q = 0 then 0 else BitVec.ofNat 64 ((if q < 0 then 2 ^ 63 else 0) + magnitudeBits q)

/-! ### DDRAM addresses (20_memory.md R42, 45_lcd.md R157) -/

/-- `idx(a, lines)` (R42): the cell of a DDRAM address, none outside `V(lines)`. -/
def cellIndex (lines : Lines) (a : BitVec 8) : Option Nat :=
  match lines with
  | .one => if a.toNat ≤ 0x4F then some a.toNat else none
  | .two =>
    if a.toNat ≤ 0x27 then some a.toNat
    else if 0x40 ≤ a.toNat ∧ a.toNat ≤ 0x67 then some (40 + (a.toNat - 0x40))
    else none

/-- `a ∈ V(lines)` (R42). -/
def validAddr (lines : Lines) (a : BitVec 8) : Bool := (cellIndex lines a).isSome

/-- `Next(a, direction, lines)` (R157). -/
def nextAddr (a : BitVec 8) (dir : Direction) (lines : Lines) : BitVec 8 :=
  match dir, lines with
  | .increment, .two => if a = 0x27 then 0x40 else if a = 0x67 then 0x00 else a + 1
  | .decrement, .two => if a = 0x00 then 0x67 else if a = 0x40 then 0x27 else a - 1
  | .increment, .one => if a = 0x4F then 0x00 else a + 1
  | .decrement, .one => if a = 0x00 then 0x4F else a - 1

/-- The cell of display position (row, column) (46_step_loop_and_host.md R175). -/
def displayCell (row col : Nat) : Nat := if row = 0 then col else 40 + col

/-! ### LCD bytes (20_memory.md R46, 45_lcd.md R145) -/

/-- A nibble or byte from line levels, most significant first. -/
def levelsToNat : List Bool → Nat
  | [] => 0
  | b :: bs => (if b then 2 ^ bs.length else 0) + levelsToNat bs

/-- The nibble on DB7 to DB4. -/
def nibbleOf (d7 d6 d5 d4 : Bool) : BitVec 4 := BitVec.ofNat 4 (levelsToNat [d7, d6, d5, d4])

/-- The byte on DB7 to DB0. -/
def byteOfLines (d7 d6 d5 d4 d3 d2 d1 d0 : Bool) : Byte :=
  BitVec.ofNat 8 (levelsToNat [d7, d6, d5, d4, d3, d2, d1, d0])

/-- `{ nib, 0b0000 }` (R145). -/
def highNibble (nib : BitVec 4) : Byte := nib ++ 0#4

/-- `{ buffer[7:4], nib }` (R145). -/
def joinNibbles (buffer : Byte) (nib : BitVec 4) : Byte := buffer.extractLsb' 4 4 ++ nib

/-- `LCD9 = {RS, byte}` (30_encoding.md R66). -/
def lcd9Word (rs : Bool) (byte : Byte) : BitVec 9 := BitVec.ofBool rs ++ byte

/-! ### The parameter tables (00_scope.md R6) -/

/-- `PORT_PIN_MAP(port, bit)`. -/
def portPinOf (cfg : Config) (port bit : Nat) : Option Pin :=
  (cfg.portPinMap.find? fun r => r.port == port && r.bit == bit).map PortPin.pin

/-- `ADDR_MAP(cpu_data_address)`: the register index the wrapper round the CPU core uses. The address is a natural number, since
the spec gives it no width: DESIGN CHOICE (log 23). -/
def regIndexOfAddr (cfg : Config) (addr : Nat) : Option (BitVec 8) :=
  (cfg.addrMap.find? fun r => r.1 == addr).map Prod.snd

/-- A byte of the return address `a`. -/
def returnByte (a : BitVec 16) : ReturnByte → Byte
  | .low => a.extractLsb' 0 8
  | .high => a.extractLsb' 8 8
  | .zero => 0

/-- `PUSH_LAYOUT` (10_state.md R30): the cells of the CPU's data memory that a push of `a` at stack pointer `sp` stores, and the
stack pointer after it. The abstract stack stores none. The CPU core uses it, no operation does (log 21). DESIGN CHOICE (log 21): the
spec gives the CPU's stack pointer and data addresses no width, and they are integers here, without bound and without wrap. -/
def pushedCells (cfg : Config) (sp : Int) (a : BitVec 16) : List (Int × Byte) × Int :=
  match cfg.pushLayout with
  | .abstractStack => ([], sp)
  | .inMemory l => (l.cells.map fun c => (sp + c.1, returnByte a c.2), sp + l.spChange)

end Sys2Proof.Machine
end

