-- ==== Sys2Proof/Machine/Flags.lean ====
section
/-! DEFINITION. The flags (10_state.md R38): the timers' `FLAG` registers, `INTEN`, and the LCD's mode bits as the command
bytes give them. -/

namespace Sys2Proof.Machine

open Sys2Proof

/-- `overflow_flag` set by a wrap (10_state.md R16). -/
def setOverflow (t : TimerState) : TimerState := { t with overflowFlag := true }

/-- `TOP` written: `initialized` becomes `top != 0` (10_state.md R17). -/
def setTop (t : TimerState) (v : BitVec 16) : TimerState := { t with top := v, initialized := v != 0 }

/-- Read of `Tn.FLAG` (10_state.md R20): bit 0 `overflow_flag`, bit 1 `initialized`, the rest 0. -/
def flagValue (t : TimerState) : BitVec 16 :=
  BitVec.ofNat 16 ((if t.overflowFlag then 1 else 0) + (if t.initialized then 2 else 0))

/-- Write of `Tn.FLAG` (10_state.md R20): bit 0 set clears `overflow_flag`; the other bits are ignored. -/
def writeFlag (t : TimerState) (v : BitVec 16) : TimerState :=
  if v.getLsbD 0 then { t with overflowFlag := false } else t

/-- A Timer0 register keeps 8 bits (10_state.md R14). -/
def maskByte (v : BitVec 16) : BitVec 16 := v &&& 0xFF

/-- A write of `INTEN` keeps bits 1 and 0 (10_state.md R19). -/
def intenOf (v : BitVec 16) : BitVec 2 := v.extractLsb' 0 2

/-- `INTEN[n]` (10_state.md R19). -/
def intenBit (inten : BitVec 2) : TimerId → Bool
  | .t0 => inten.getLsbD 0
  | .t1 => inten.getLsbD 1

/-- `entry_mode` from the command's `d` and `s` (45_lcd.md R149). -/
def entryModeOf (d s : Bool) : EntryMode where
  direction := if d then .increment else .decrement
  shiftDisplay := s

/-- `function_set` from the command's `l`, `n` and `f` (45_lcd.md R152). -/
def functionSetOf (l n f : Bool) : FunctionSet where
  bits := if l then .eight else .four
  lines := if n then .two else .one
  font := if f then .f5x10 else .f5x8

end Sys2Proof.Machine
end

