-- ==== Sys2Proof/Machine/Ops.lean ====
section
/-! DEFINITION. The named operations over the state: outcomes and principals, cell memories, registers, the actuator table and
the registry, the trace, interrupt request, entry and return, pulse delivery, and the fetch. -/

namespace Sys2Proof.Machine

open Sys2Proof

/-- What an operation answers. -/
abbrev Result := Host.Outcome State Fault Refusal

/-- First one operation, then another on the state it leaves; a stop ends both. -/
def andThen (r : Result) (f : State → Result) : Result :=
  match r with
  | .next s => f s
  | .fault e => .fault e
  | .refused e => .refused e

/-! ### Principals (60_exceptions.md R198) -/

/-- An operation only the step loop may issue; from the host it does nothing (30_encoding.md R65 (b)). -/
def stepOnly (s : State) (r : Result) : Result := if s.src = .stepLoop then r else .next s

/-- An operation only the host may issue; from the step loop it does nothing (30_encoding.md R65 (b)). -/
def hostOnly (s : State) (r : Result) : Result := if s.src = .host then r else .next s

/-- The "principal" column of 30_encoding.md R61; an LCD bus byte has no principal. -/
def allows (i : Instr) (p : Principal) : Bool :=
  match i with
  | .clkReset | .clkMicros | .clkMillis | .clkSeconds | .pwmReg _ _ | .pwmUnreg _ _ => true
  | .srvAnim _ | .srvStall _ _ | .lcdPinmap _ _ _ | .actAttach _ _ _ | .actDetach _ | .lcdGetbuf _ | .sysReset => p == .host
  | .clkTick _ | .t0Tick _ | .t1Tick _ | .regWr _ _ | .regRd _ | .intReq _ _ | .intPoll | .intReti | .pwmRoute _ _ _
  | .pwmRise _ _ | .pwmFall _ _ | .pinChg _ _ | .gpioWr _ _ => p == .stepLoop
  | .lcdNop | .lcdClear | .lcdHome | .lcdEntry _ _ | .lcdDispctl _ _ _ | .lcdShift _ _ | .lcdFuncset _ _ _
  | .lcdSetcgram _ | .lcdSetddram _ | .lcdData _ => true

/-! ### Cell memories: DDRAM (20_memory.md R41) and PORT (10_state.md R34) -/

/-- The byte at `a`: a listed one, or what an unlisted cell reads as. -/
def cellRead (blank : Byte) : List Host.Cell → Nat → Byte
  | [], _ => blank
  | (k, v) :: m, a => if k = a then v else cellRead blank m a

/-- The list with `v` at `a`, addresses kept rising; writing `blank` unlists the cell. -/
def cellWrite (blank : Byte) : List Host.Cell → Nat → Byte → List Host.Cell
  | [], a, v => if v = blank then [] else [(a, v)]
  | (k, x) :: m, a, v =>
    if a < k then if v = blank then (k, x) :: m else (a, v) :: (k, x) :: m
    else if a = k then if v = blank then m else (a, v) :: m
    else (k, x) :: cellWrite blank m a v

/-- The canonical form: addresses strictly rising and below `size`, no entry equal to `blank`. -/
def Memory.wf (blank : Byte) (size : Nat) (m : List Host.Cell) : Bool :=
  decide (m.Pairwise fun x y => x.1 < y.1) && m.all fun c => c.1 < size && c.2 != blank

/-- `MemRead(addr, 1)` of an LCD instance (20_memory.md R41); none outside `V(lines)`. -/
def memRead (st : LcdState) (addr : BitVec 8) : Option Byte :=
  (cellIndex st.functionSet.lines addr).map (cellRead blankCell st.ddram)

/-- `MemWrite(addr, 1, v)` of an LCD instance (20_memory.md R41); none outside `V(lines)`. -/
def memWrite (st : LcdState) (addr : BitVec 8) (v : Byte) : Option LcdState :=
  (cellIndex st.functionSet.lines addr).map fun k => { st with ddram := cellWrite blankCell st.ddram k v }

/-- `PORT[port]`. -/
def portRead (s : State) (port : Nat) : Byte := cellRead blankPort s.port port

/-- `PORT[port] <- v`. -/
def portWrite (s : State) (port : Nat) (v : Byte) : State := { s with port := cellWrite blankPort s.port port v }

/-! ### Pins (10_state.md R33, 45_lcd.md R144) -/

/-- `PINLVL[pin]`. -/
def levelOf (lvl : Vector Bool 256) (pin : Pin) : Bool := lvl[pin.toNat]'pin.isLt

/-- `PINLVL[pin] <- level`. -/
def setLevel (lvl : Vector Bool 256) (pin : Pin) (level : Bool) : Vector Bool 256 := lvl.set pin.toNat level pin.isLt

/-- `lvl(x)` (R144): an unbound line reads 0. -/
def lineLevel (lvl : Vector Bool 256) : Option Pin → Bool
  | some pin => levelOf lvl pin
  | none => false

/-! ### Timers and registers (10_state.md R12 to R21) -/

def timer (s : State) : TimerId → TimerState
  | .t0 => s.t0
  | .t1 => s.t1

def setTimer (s : State) (n : TimerId) (t : TimerState) : State :=
  match n with
  | .t0 => { s with t0 := t }
  | .t1 => { s with t1 := t }

/-- `PRESC_CNTn` (R15). -/
def residue (s : State) : TimerId → BitVec 16
  | .t0 => s.prescCnt0
  | .t1 => s.prescCnt1

def setResidue (s : State) (n : TimerId) (v : BitVec 16) : State :=
  match n with
  | .t0 => { s with prescCnt0 := v }
  | .t1 => { s with prescCnt1 := v }

/-- `VEC_Tn_OVF` (00_scope.md R6). -/
def vectorOf (cfg : Config) : TimerId → BitVec 16
  | .t0 => cfg.vecT0Ovf
  | .t1 => cfg.vecT1Ovf

/-- `PRESCn_RESET` (00_scope.md R6). -/
def prescReset (cfg : Config) : TimerId → BitVec 16
  | .t0 => cfg.presc0Reset
  | .t1 => cfg.presc1Reset

/-- The natural period of a timer (00_scope.md R5). -/
def naturalTop : TimerId → Nat
  | .t0 => nat0
  | .t1 => nat1

/-- `eff_top(n)` (10_state.md R13). -/
def effTop (n : TimerId) (t : TimerState) : Nat := if t.top = 0 then naturalTop n else t.top.toNat

/-- `x[i]` read (10_state.md R18, 41_timers.md R104): a reserved index reads 0 (R21). -/
def readReg (s : State) : Reg → BitVec 16
  | .t0Cnt => s.t0.counter
  | .t0Top => s.t0.top
  | .t0Cmpa => s.t0.compareA
  | .t0Cmpb => s.t0.compareB
  | .t0Presc => s.t0.prescaler
  | .t0Flag => flagValue s.t0
  | .t1Cnt => s.t1.counter
  | .t1Top => s.t1.top
  | .t1Cmpa => s.t1.compareA
  | .t1Cmpb => s.t1.compareB
  | .t1Presc => s.t1.prescaler
  | .t1Flag => flagValue s.t1
  | .inten => s.inten.setWidth 16
  | .reserved _ => 0

/-- `x[i] <- v` (41_timers.md R103): `CNT` and reserved indices are not written; a `PRESC` write zeroes the residue. -/
def writeReg (s : State) (r : Reg) (v : BitVec 16) : State :=
  match r with
  | .t0Cnt => s
  | .t0Top => { s with t0 := setTop s.t0 (maskByte v) }
  | .t0Cmpa => { s with t0 := { s.t0 with compareA := maskByte v } }
  | .t0Cmpb => { s with t0 := { s.t0 with compareB := maskByte v } }
  | .t0Presc => { s with t0 := { s.t0 with prescaler := v }, prescCnt0 := 0 }
  | .t0Flag => { s with t0 := writeFlag s.t0 v }
  | .t1Cnt => s
  | .t1Top => { s with t1 := setTop s.t1 v }
  | .t1Cmpa => { s with t1 := { s.t1 with compareA := v } }
  | .t1Cmpb => { s with t1 := { s.t1 with compareB := v } }
  | .t1Presc => { s with t1 := { s.t1 with prescaler := v }, prescCnt1 := 0 }
  | .t1Flag => { s with t1 := writeFlag s.t1 v }
  | .inten => { s with inten := intenOf v }
  | .reserved _ => s

/-! ### The actuator table and the registry (10_state.md R25, R26) -/

/-- `ACT[id]`. -/
def actFind (id : InstanceId) : List (InstanceId × ActInstance) → Option ActInstance
  | [] => none
  | (k, x) :: t => if k = id then some x else actFind id t

/-- `ACT[id] <- Some(x)` for an id in use: its entry is replaced where it stands. -/
def actSet (id : InstanceId) (x : ActInstance) : List (InstanceId × ActInstance) → List (InstanceId × ActInstance)
  | [] => []
  | (k, y) :: t => if k = id then (k, x) :: t else (k, y) :: actSet id x t

/-- `ACT[id] <- Some(x)` for an id not in use, ids kept rising. -/
def actPut (id : InstanceId) (x : ActInstance) : List (InstanceId × ActInstance) → List (InstanceId × ActInstance)
  | [] => [(id, x)]
  | (k, y) :: t =>
    if id.toNat < k.toNat then (id, x) :: (k, y) :: t else (k, y) :: actPut id x t

/-- `ACT[id] <- None`. -/
def actDrop (id : InstanceId) (t : List (InstanceId × ActInstance)) : List (InstanceId × ActInstance) :=
  t.filter fun e => e.1 != id

/-- The LCD instance `id`, if it is one. -/
def lcdAt (s : State) (id : InstanceId) : Option (LcdState × LcdPins) :=
  match actFind id s.act with
  | some (.lcd st p) => some (st, p)
  | _ => none

/-- The servo instance `id`, if it is one. -/
def servoAt (s : State) (id : InstanceId) : Option ServoState :=
  match actFind id s.act with
  | some (.servo sv) => some sv
  | _ => none

/-- The order the registry is kept in: by pin, then by id. -/
def pairKey (e : Pin × InstanceId) : Nat := e.1.toNat * 65536 + e.2.toNat

/-- `PWM.registry ∪ { e }` (43_pwm_router.md R121). -/
def regAdd (e : Pin × InstanceId) : List (Pin × InstanceId) → List (Pin × InstanceId)
  | [] => [e]
  | k :: t => if pairKey e < pairKey k then e :: k :: t else if e = k then k :: t else k :: regAdd e t

/-- `PWM.registry \ { e }` (43_pwm_router.md R122). -/
def regRemove (e : Pin × InstanceId) (t : List (Pin × InstanceId)) : List (Pin × InstanceId) := t.filter fun k => k != e

/-- `PWM.registry \ { (p, id) | any p }` (46_step_loop_and_host.md R174). -/
def regDropId (id : InstanceId) (t : List (Pin × InstanceId)) : List (Pin × InstanceId) := t.filter fun k => k.2 != id

/-! ### The trace (10_state.md R36) -/

/-- `emit e`. -/
def emit (s : State) (e : Event) : State := { s with out := s.out ++ [e] }

/-! ### Interrupts (42_interrupt_controller.md) -/

/-- `INT.REQ` (R111): queued when the requester's enable bit is set, whatever `I` is; dropped otherwise. -/
def requestInterrupt (s : State) (vector : BitVec 16) (en : Bool) : State :=
  if en then
    { s with
      int := { s.int with
        pending := s.int.pending ++ [⟨vector, s.int.seqNext⟩]
        seqNext := s.int.seqNext + 1 } }
  else s

/-- The priority of R112: the least vector address, then the earliest arrival. -/
def before (x y : Pending) : Bool :=
  x.vectorAddress.toNat < y.vectorAddress.toNat
    || (x.vectorAddress == y.vectorAddress && x.priorityOrder < y.priorityOrder)

/-- The pending entry R112 selects. -/
def selectPending : List Pending → Option Pending
  | [] => none
  | e :: t =>
    match selectPending t with
    | none => some e
    | some b => if before b e then some b else some e

/-- Taking an interrupt, the one exception entry (R113, 60_exceptions.md R196): the entry leaves the queue, `PC` is saved on the
return stack, `I` is cleared, `PC` becomes the vector address; the controller passes through Dispatching back to Idle. -/
def takeInterrupt (s : State) (e : Pending) : State :=
  { s with
    int := { s.int with icState := .idle, pending := s.int.pending.erase e }
    cpu := { pc := e.vectorAddress, i := false, rstack := s.cpu.pc :: s.cpu.rstack } }

/-- Return from interrupt (R114): pops `PC`, sets `I`; none with nothing saved. -/
def returnFromInterrupt (s : State) : Option State :=
  match s.cpu.rstack with
  | a :: rest => some { s with cpu := { pc := a, i := true, rstack := rest } }
  | [] => none

/-! ### Pulse delivery (43_pwm_router.md R124 to R127, 44_servo.md R132, R133) -/

/-- `ServoPulse(id, level, ts)` (R132, R133). -/
def servoPulse (rnd : Rounding) (level : Level) (ts : Micros) (sv : ServoState) : ServoState :=
  match level, sv.pulseStartTimeUs with
  | .high, _ => { sv with pulseStartTimeUs := some ts }
  | .low, some start =>
    if start.toNat ≤ ts.toNat then
      { sv with
        targetAngleDeg := round32 rnd (pulseWidthToAngle (ts.toNat - start.toNat))
        pulseStartTimeUs := none }
    else { sv with pulseStartTimeUs := none }
  | .low, none => sv

/-- What one entry of the actuator table becomes when an event on `pin` is delivered: a registered servo takes it, any other
instance ignores it (R127). -/
def deliverTo (rnd : Rounding) (registry : List (Pin × InstanceId)) (pin : Pin) (level : Level) (ts : Micros)
    (e : InstanceId × ActInstance) : InstanceId × ActInstance :=
  match e with
  | (id, .servo sv) => if (pin, id) ∈ registry then (id, .servo (servoPulse rnd level ts sv)) else (id, .servo sv)
  | (id, .lcd st p) => (id, .lcd st p)

/-- `emit Pulse` and `Deliver` (R125, R126, R127), one pass over the table (log 19). -/
def pulseEvent (s : State) (pin : Pin) (level : Level) (ts : Micros) : State :=
  { s with
    out := s.out ++ [.pulse pin level ts]
    act := s.act.map (deliverTo s.cfg.rnd32 s.registry pin level ts) }

/-- `RoutePulseAt(pin, pw, period, now)` (R124): a rise at `now`, a fall at `now + pw`; the period is carried by no rule. -/
def routePulseAt (s : State) (pin : Pin) (pw now : Nat) : State :=
  pulseEvent (pulseEvent s pin .high (BitVec.ofNat 64 now)) pin .low (BitVec.ofNat 64 (now + pw))

/-! ### The fetch (30_encoding.md R60, R65 (a)) -/

/-- The instruction the next word on the port is, with the state that has accepted it; a reserved opcode is accepted and
has no instruction; an empty port gives nothing. -/
inductive Fetched where
  | idle
  | ignored (s : State)
  | run (i : Instr) (s : State)

/-- The state that has accepted the next word: it leaves the port, its principal or instance is taken, and `RESP` is no
longer meaningful (30_encoding.md R63, log 6). -/
def accept (s : State) (w : BusWord) (rest : List BusWord) : State :=
  match w with
  | .cmd p _ => { s with cmds := rest, src := p, resp := .notMeaningful }
  | .lcd id _ => { s with cmds := rest, lcdSel := id, resp := .notMeaningful }

/-- The encoded word of a bus word. -/
def payload : BusWord → Encoded
  | .cmd _ w => .cmd80 w
  | .lcd _ w => .lcd9 w

/-- Fetch of the next word on the port. -/
def fetch (s : State) : Fetched :=
  match s.cmds with
  | [] => .idle
  | w :: rest =>
    match decode (payload w) with
    | .ok i => .run i (accept s w rest)
    | .error _ => .ignored (accept s w rest)

end Sys2Proof.Machine
end

