-- ==== Sys2Proof/Machine/Clock.lean ====
section
/-! DEFINITION. The SimulationClock operations (40_clock.md). -/

namespace Sys2Proof.Machine

open Sys2Proof

/-- `CLK.TICK cycles` (R80): the exact sum; a sum of 2^64 or more has no defined result and is refused (log 9). -/
def execClkTick (cycles : BitVec 32) (s : State) : Result :=
  stepOnly s <|
    if s.cpuCycles.toNat + cycles.toNat < 2 ^ 64 then
      .next { s with cpuCycles := BitVec.ofNat 64 (s.cpuCycles.toNat + cycles.toNat) }
    else .refused .clockOverflow

/-- `CLK.RESET` (R81). -/
def execClkReset (s : State) : Result := .next { s with cpuCycles := 0 }

/-- `CLK.MICROS` (R82). -/
def execClkMicros (s : State) : Result :=
  .next { s with resp := .u64 (BitVec.ofNat 64 (microsOf s.cpuCycles.toNat)) }

/-- `CLK.MILLIS` (R83). -/
def execClkMillis (s : State) : Result :=
  .next { s with resp := .u64 (BitVec.ofNat 64 (millisOf s.cpuCycles.toNat)) }

/-- `CLK.SECONDS` (R84): the quotient under `RND64`, and its binary64 pattern (log 7); neither decreases with the clock (R86). -/
def execClkSeconds (s : State) : Result :=
  let q := round64 s.cfg.rnd64 (secondsOf s.cpuCycles.toNat)
  .next { s with resp := .f64 q (binary64Of q) }

end Sys2Proof.Machine
end

