-- ==== Sys2Proof/Machine/HostOps.lean ====
section
/-! DEFINITION. The host operations (46_step_loop_and_host.md R173 to R176). -/

namespace Sys2Proof.Machine

open Sys2Proof

/-- A servo at creation (10_state.md R27): every value as it is stored into an `f32` or `f64` field (44_servo.md R130, log 20). -/
def freshServo (cfg : Config) (pin : Pin) (id : InstanceId) : ServoState where
  instanceId := id
  pin := pin
  currentAngleDeg := round32 cfg.rnd32 cfg.servoInitAngle
  targetAngleDeg := round32 cfg.rnd32 cfg.servoInitAngle
  angularSpeedDegPerS := round32 cfg.rnd32 cfg.servoSpeed
  maxTorque := cfg.servoMaxTorque
  isStalled := false
  deadbandDeg := round32 cfg.rnd32 cfg.servoDeadband
  pulseStartTimeUs := none
  lastAnimationTickWallclock := round64 cfg.rnd64 0

/-- An LCD at creation (10_state.md R29). -/
def freshLcd (cfg : Config) : LcdState where
  ddram := []
  cursorAddr := 0
  entryMode := { direction := .increment, shiftDisplay := false }
  displayOn := false
  cursorOn := false
  blinkOn := false
  nibbleBuffer := 0
  awaitingLowNibble := false
  functionSet := { bits := cfg.lcdResetBits, lines := .one, font := .f5x8 }
  cgramLast := false
  outsideSpec := false

/-- The pins of an LCD at creation (10_state.md R31). -/
def noPins : LcdPins where
  rs := none
  en := none
  db := Vector.replicate 8 none

/-- `ACT[id] <- Some(Lcd(...))` at creation (R173). -/
def attachLcd (s : State) (id : InstanceId) : State := { s with act := actPut id (.lcd (freshLcd s.cfg) noPins) s.act }

/-- `ACT[id] <- Some(Servo(...))` at creation, with its registration on `pin` (R173). -/
def attachServo (s : State) (pin : Pin) (id : InstanceId) : State :=
  { s with
    act := actPut id (.servo (freshServo s.cfg pin id)) s.act
    registry := regAdd (pin, id) s.registry }

/-- `ACT.ATTACH pin, kind, instance_id` (R173): an id in use or a reserved kind changes nothing. -/
def execActAttach (pin : Pin) (kind : ActKind) (id : InstanceId) (s : State) : Result :=
  hostOnly s <|
    match actFind id s.act, kind with
    | none, .servo => .next (attachServo s pin id)
    | none, .lcd => .next (attachLcd s id)
    | none, .reserved _ => .next s
    | some _, _ => .next s

/-- `ACT.DETACH instance_id` (R174). -/
def execActDetach (id : InstanceId) (s : State) : Result :=
  hostOnly s (.next { s with registry := regDropId id s.registry, act := actDrop id s.act })

/-- The 32 bytes of an LCD's visible cells, row 0 first (R175). -/
def displayBuffer (st : LcdState) : List Byte :=
  (List.range (2 * dispCols)).map fun k => cellRead blankCell st.ddram (displayCell (k / dispCols) (k % dispCols))

/-- `LCD.GETBUF instance_id` (R175): 32 spaces for an id that names no LCD. -/
def execLcdGetbuf (id : InstanceId) (s : State) : Result :=
  hostOnly s <|
    match lcdAt s id with
    | some (st, _) => .next { s with resp := .bytes (displayBuffer st) }
    | none => .next { s with resp := .bytes (List.replicate (2 * dispCols) 0x20) }

/-- `SYS.RESET` (70_reset_and_hazards.md R207): the circuit and the trace are kept (R208); the CPU surface is reset by the CPU
core itself, to its parameters (R209, log 5). -/
def execSysReset (s : State) : Result :=
  hostOnly s <|
    .next { s with
      cpuCycles := 0
      t0 := timerReset s.cfg.presc0Reset
      t1 := timerReset s.cfg.presc1Reset
      prescCnt0 := 0
      prescCnt1 := 0
      inten := 0
      int := intReset
      pinlvl := Vector.replicate 256 false
      port := []
      cpu := cpuReset s.cfg }

/-! ### What placing a word on the input takes (log 14) -/

/-- Who issues a command word: the step loop where R61 lets it, the host otherwise. -/
def issuerOf (w : BitVec 80) : Principal :=
  match decodeCmd80 w with
  | .ok i => if allows i .stepLoop then .stepLoop else .host
  | .error _ => .stepLoop

/-- The first LCD instance of a table. -/
def firstLcd : List (InstanceId × ActInstance) → Option InstanceId
  | [] => none
  | (id, .lcd _ _) :: _ => some id
  | (_, .servo _) :: t => firstLcd t

/-- The least id from `n` on, `fuel` tried, that the table does not use. -/
def freeId (t : List (InstanceId × ActInstance)) : Nat → Nat → InstanceId
  | 0, n => BitVec.ofNat 16 n
  | fuel + 1, n => if (actFind (BitVec.ofNat 16 n) t).isSome then freeId t fuel (n + 1) else BitVec.ofNat 16 n

/-- An instance to receive an LCD bus byte, and the state that has it: the selected one if it is an LCD, else the first LCD,
else a fresh one attached under a free id. -/
def lcdReceiver (s : State) : InstanceId × State :=
  match lcdAt s s.lcdSel, firstLcd s.act with
  | some _, _ => (s.lcdSel, s)
  | none, some id => (id, s)
  | none, none => (freeId s.act s.act.length 0, attachLcd s (freeId s.act s.act.length 0))

end Sys2Proof.Machine
end

