-- ==== Sys2Proof/Machine/Interrupts.lean ====
section
/-! DEFINITION. The interrupt vector dispatcher (42_interrupt_controller.md). -/

namespace Sys2Proof.Machine

open Sys2Proof

/-- `INT.REQ vector_address, en` (R111). -/
def execIntReq (vector : BitVec 16) (en : Bool) (s : State) : Result := stepOnly s (.next (requestInterrupt s vector en))

/-- `INT.POLL` (R113): takes the selected pending interrupt when `CPU.I` is set; otherwise nothing changes. -/
def execIntPoll (s : State) : Result :=
  stepOnly s <|
    match selectPending s.int.pending with
    | some e => if s.cpu.i then .next (takeInterrupt s e) else .next s
    | none => .next s

/-- `INT.RETI` (R114): with nothing saved the spec gives no result and is refused (log 10). -/
def execIntReti (s : State) : Result :=
  stepOnly s <|
    match returnFromInterrupt s with
    | some s' => .next s'
    | none => .refused .retiEmptyStack

end Sys2Proof.Machine
end

