-- ==== Sys2Proof/Machine/Lcd.lean ====
section
/-! DEFINITION. The LCD engine and the pin-level operations (45_lcd.md): the effects of the byte operations on one instance, the
latch, and the meanings. -/

namespace Sys2Proof.Machine

open Sys2Proof

/-! ### The byte operations on one instance (R147 to R156) -/

/-- `LCD.CLEAR` (R147): every cell 0x20, cursor 0. -/
def clearDisplay (st : LcdState) : LcdState := { st with ddram := [], cursorAddr := 0 }

/-- `LCD.HOME` (R148). -/
def returnHome (st : LcdState) : LcdState := { st with cursorAddr := 0 }

/-- `LCD.ENTRY d, s` (R149). -/
def setEntryMode (st : LcdState) (d s : Bool) : LcdState := { st with entryMode := entryModeOf d s }

/-- `LCD.DISPCTL d, c, b` (R150). -/
def setDisplayControl (st : LcdState) (d c b : Bool) : LcdState := { st with displayOn := d, cursorOn := c, blinkOn := b }

/-- `LCD.SHIFT` (R151): no state of the spec's changes; the model marks the instance (U6, log 12). -/
def shiftCommand (st : LcdState) : LcdState := { st with outsideSpec := true }

/-- `LCD.FUNCSET l, n, f` (R152): a cursor the new geometry makes invalid goes to 0. -/
def setFunction (st : LcdState) (l n f : Bool) : LcdState :=
  { st with
    functionSet := functionSetOf l n f
    awaitingLowNibble := false
    cursorAddr := if validAddr (functionSetOf l n f).lines st.cursorAddr then st.cursorAddr else 0 }

/-- `LCD.SETCGRAM a` (R153): no state of the spec's changes; the model marks that it came (U5, log 12). -/
def setCgramAddr (st : LcdState) : LcdState := { st with cgramLast := true }

/-- `LCD.SETDDRAM a` (R154): an address outside `V(lines)` is ignored. The model's mark is lifted (U5, log 12). -/
def setDdramAddr (st : LcdState) (a : BitVec 7) : LcdState :=
  let addr := a.setWidth 8
  { st with
    cursorAddr := if validAddr st.functionSet.lines addr then addr else st.cursorAddr
    cgramLast := false }

/-- `LCD.DATA b` (R156): the byte at the cursor, then the cursor advances; none when the cursor is outside `V(lines)`. After an
`LCD.SETCGRAM` the write is the same and the model marks the instance (U5, log 12). -/
def writeData (st : LcdState) (b : Byte) : Option LcdState :=
  (memWrite st st.cursorAddr b).map fun st' =>
    { st' with
      cursorAddr := nextAddr st.cursorAddr st.entryMode.direction st.functionSet.lines
      outsideSpec := st.outsideSpec || st.cgramLast }

/-- `Byte(id, rs, byte)` (R146): RS selects data, otherwise the leading one selects the command. -/
def applyByte (st : LcdState) (rs : Bool) (byte : Byte) : Option LcdState :=
  if rs then writeData st byte
  else if byte.getLsbD 7 then some (setDdramAddr st (byte.extractLsb' 0 7))
  else if byte.getLsbD 6 then some (setCgramAddr st)
  else if byte.getLsbD 5 then some (setFunction st (byte.getLsbD 4) (byte.getLsbD 3) (byte.getLsbD 2))
  else if byte.getLsbD 4 then some (shiftCommand st)
  else if byte.getLsbD 3 then some (setDisplayControl st (byte.getLsbD 2) (byte.getLsbD 1) (byte.getLsbD 0))
  else if byte.getLsbD 2 then some (setEntryMode st (byte.getLsbD 1) (byte.getLsbD 0))
  else if byte.getLsbD 1 then some (returnHome st)
  else if byte.getLsbD 0 then some (clearDisplay st)
  else some st

/-! ### The latch (R144, R145) -/

/-- The nibble on the data lines of an instance. -/
def latchedNibble (lvl : Vector Bool 256) (p : LcdPins) : BitVec 4 :=
  nibbleOf (lineLevel lvl p.db[7]) (lineLevel lvl p.db[6]) (lineLevel lvl p.db[5]) (lineLevel lvl p.db[4])

/-- The byte on the data lines of an instance. -/
def latchedByte (lvl : Vector Bool 256) (p : LcdPins) : Byte :=
  byteOfLines (lineLevel lvl p.db[7]) (lineLevel lvl p.db[6]) (lineLevel lvl p.db[5]) (lineLevel lvl p.db[4])
    (lineLevel lvl p.db[3]) (lineLevel lvl p.db[2]) (lineLevel lvl p.db[1]) (lineLevel lvl p.db[0])

/-- `Latch(id)` (R145). -/
def latch (lvl : Vector Bool 256) (st : LcdState) (p : LcdPins) : Option LcdState :=
  match st.functionSet.bits with
  | .eight => applyByte st (lineLevel lvl p.rs) (latchedByte lvl p)
  | .four =>
    if st.awaitingLowNibble then
      applyByte { st with awaitingLowNibble := false } (lineLevel lvl p.rs)
        (joinNibbles st.nibbleBuffer (latchedNibble lvl p))
    else some { st with nibbleBuffer := highNibble (latchedNibble lvl p), awaitingLowNibble := true }

/-- The latches of every instance whose enable line is `pin`, one pass over the table in rising order of ids (R141, log 19). -/
def latchAll (lvl : Vector Bool 256) (pin : Pin) :
    List (InstanceId × ActInstance) → Option (List (InstanceId × ActInstance))
  | [] => some []
  | (id, .servo sv) :: t => (latchAll lvl pin t).map fun t' => (id, .servo sv) :: t'
  | (id, .lcd st p) :: t =>
    if p.en = some pin then
      match latch lvl st p with
      | some st' => (latchAll lvl pin t).map fun t' => (id, .lcd st' p) :: t'
      | none => none
    else (latchAll lvl pin t).map fun t' => (id, .lcd st p) :: t'

/-- `PIN.CHG pin, level` (R141) as an operation the others use. -/
def pinChange (s : State) (pin : Pin) (level : Bool) : Result :=
  if levelOf s.pinlvl pin = level then .next s
  else
    let lvl := setLevel s.pinlvl pin level
    if level then .next { s with pinlvl := lvl }
    else
      match latchAll lvl pin s.act with
      | some act => .next { s with pinlvl := lvl, act := act }
      | none => .fault .ddramAddress

/-- The pin changes of one port write (R142), over the given bits in order. -/
def portChanges (port : Nat) (old value : Byte) : List Nat → State → Result
  | [], s => .next s
  | bit :: bits, s =>
    if old.getLsbD bit = value.getLsbD bit then portChanges port old value bits s
    else
      match portPinOf s.cfg port bit with
      | some p => andThen (pinChange s p (value.getLsbD bit)) (portChanges port old value bits)
      | none => portChanges port old value bits s

/-! ### The command-port operations -/

/-- `PIN.CHG pin, level` (R141). -/
def execPinChg (pin : Pin) (level : Bool) (s : State) : Result := stepOnly s (pinChange s pin level)

/-- `GPIO.WR port, value` (R142): a port number `>= NPORTS` changes nothing. -/
def execGpioWr (port : BitVec 8) (value : Byte) (s : State) : Result :=
  stepOnly s <|
    if port.toNat < s.cfg.nports then
      portChanges port.toNat (portRead s port.toNat) value (List.range 8) (portWrite s port.toNat value)
    else .next s

/-- `P.<role> <- Some(pin)` (R143); a reserved role binds nothing (30_encoding.md R65 (e)). -/
def bindPin (p : LcdPins) (role : LcdRole) (pin : Pin) : LcdPins :=
  match role with
  | .rs => { p with rs := some pin }
  | .en => { p with en := some pin }
  | .db line => { p with db := p.db.set line.val (some pin) line.isLt }
  | .reserved _ => p

/-- `LCD.PINMAP role, instance_id, pin` (R143). -/
def execLcdPinmap (role : LcdRole) (id : InstanceId) (pin : Pin) (s : State) : Result :=
  hostOnly s <|
    match lcdAt s id with
    | some (st, p) => .next { s with act := actSet id (.lcd st (bindPin p role pin)) s.act }
    | none => .next s

/-! ### The LCD bus bytes, on the instance `lcdSel` (log 14) -/

/-- A byte operation on the selected instance; nothing receives the byte where that id names no LCD. -/
def onSelectedLcd (s : State) (f : LcdState → Option LcdState) : Result :=
  match lcdAt s s.lcdSel with
  | some (st, p) =>
    match f st with
    | some st' => .next { s with act := actSet s.lcdSel (.lcd st' p) s.act }
    | none => .fault .ddramAddress
  | none => .next s

/-- `LCD.NOP` (R155): no state changes. -/
def execLcdNop (s : State) : Result := onSelectedLcd s fun st => some st

/-- `LCD.CLEAR` (R147). -/
def execLcdClear (s : State) : Result := onSelectedLcd s fun st => some (clearDisplay st)

/-- `LCD.HOME` (R148). -/
def execLcdHome (s : State) : Result := onSelectedLcd s fun st => some (returnHome st)

/-- `LCD.ENTRY d, s` (R149). -/
def execLcdEntry (d sh : Bool) (s : State) : Result := onSelectedLcd s fun st => some (setEntryMode st d sh)

/-- `LCD.DISPCTL d, c, b` (R150). -/
def execLcdDispctl (d c b : Bool) (s : State) : Result := onSelectedLcd s fun st => some (setDisplayControl st d c b)

/-- `LCD.SHIFT s, r` (R151). -/
def execLcdShift (_sc _rl : Bool) (s : State) : Result := onSelectedLcd s fun st => some (shiftCommand st)

/-- `LCD.FUNCSET l, n, f` (R152). -/
def execLcdFuncset (l n f : Bool) (s : State) : Result := onSelectedLcd s fun st => some (setFunction st l n f)

/-- `LCD.SETCGRAM a` (R153). -/
def execLcdSetcgram (_a : BitVec 6) (s : State) : Result := onSelectedLcd s fun st => some (setCgramAddr st)

/-- `LCD.SETDDRAM a` (R154). -/
def execLcdSetddram (a : BitVec 7) (s : State) : Result := onSelectedLcd s fun st => some (setDdramAddr st a)

/-- `LCD.DATA b` (R156). -/
def execLcdData (b : Byte) (s : State) : Result := onSelectedLcd s fun st => writeData st b

end Sys2Proof.Machine
end

