-- ==== Sys2Proof/Machine/Router.lean ====
section
/-! DEFINITION. The PWM pulse router (43_pwm_router.md). -/

namespace Sys2Proof.Machine

open Sys2Proof

/-- `PWM.REG pin, instance_id` (R121). -/
def execPwmReg (pin : Pin) (id : InstanceId) (s : State) : Result :=
  .next { s with registry := regAdd (pin, id) s.registry }

/-- `PWM.UNREG pin, instance_id` (R122). -/
def execPwmUnreg (pin : Pin) (id : InstanceId) (s : State) : Result :=
  .next { s with registry := regRemove (pin, id) s.registry }

/-- `PWM.ROUTE pin, pulse_width_us, period_us` (R123): the period is used by no rule. -/
def execPwmRoute (pin : Pin) (pulseWidth _period : BitVec 32) (s : State) : Result :=
  stepOnly s (.next (routePulseAt s pin pulseWidth.toNat (microsOf s.cpuCycles.toNat)))

/-- `PWM.RISE pin, timestamp_us` (R125). -/
def execPwmRise (pin : Pin) (timestamp : Micros) (s : State) : Result :=
  stepOnly s (.next (pulseEvent s pin .high timestamp))

/-- `PWM.FALL pin, timestamp_us` (R126). -/
def execPwmFall (pin : Pin) (timestamp : Micros) (s : State) : Result :=
  stepOnly s (.next (pulseEvent s pin .low timestamp))

end Sys2Proof.Machine
end

