-- ==== Sys2Proof/Machine/Servo.lean ====
section
/-! DEFINITION. The servo animator and the stall flag (44_servo.md). The pulse decoder is `servoPulse` in Machine/Ops.lean. -/

namespace Sys2Proof.Machine

open Sys2Proof

/-- `AnimStep` (R135) of one servo: its new state and, when it moves, the angle it notifies. -/
def animStep (cfg : Config) (dt : Rat) (sv : ServoState) : ServoState × Option Rat :=
  let sv := { sv with lastAnimationTickWallclock := round64 cfg.rnd64 (sv.lastAnimationTickWallclock + dt) }
  let delta := sv.targetAngleDeg - sv.currentAngleDeg
  let move := minQ (absQ delta) (sv.angularSpeedDegPerS * dt)
  if sv.isStalled then (sv, none)
  else if absQ delta < sv.deadbandDeg then (sv, none)
  else if move = 0 then (sv, none)
  else
    let angle := round32 cfg.rnd32 (sv.currentAngleDeg + signQ delta * move)
    ({ sv with currentAngleDeg := angle }, some angle)

/-- `AnimStep` of one entry of the actuator table; an LCD is left alone. -/
def animEntry (cfg : Config) (dt : Rat) (e : InstanceId × ActInstance) : InstanceId × ActInstance :=
  match e with
  | (id, .servo sv) => (id, .servo (animStep cfg dt sv).1)
  | (id, .lcd st p) => (id, .lcd st p)

/-- The `Angle` event of one entry's step, if it moved. -/
def animEvent (cfg : Config) (dt : Rat) (e : InstanceId × ActInstance) : Option Event :=
  match e with
  | (id, .servo sv) => (animStep cfg dt sv).2.map (Event.angle id)
  | (_, .lcd _ _) => none

/-- One animator step of every servo, in the table's rising order of ids (R134; log 19). -/
def animate (s : State) (dt : Rat) : State :=
  { s with
    act := s.act.map (animEntry s.cfg dt)
    out := s.out ++ s.act.filterMap (animEvent s.cfg dt) }

/-- `SRV.ANIM dt` (R134): a NaN, an infinity or a negative number changes nothing (log 13). -/
def execSrvAnim (dt : BitVec 64) (s : State) : Result :=
  hostOnly s <|
    match binary64Value dt with
    | some q => if q < 0 then .next s else .next (animate s q)
    | none => .next s

/-- `SRV.STALL instance_id, flag` (R137). -/
def execSrvStall (id : InstanceId) (flag : Bool) (s : State) : Result :=
  hostOnly s <|
    match servoAt s id with
    | some sv => .next { s with act := actSet id (.servo { sv with isStalled := flag }) s.act }
    | none => .next s

end Sys2Proof.Machine
end

