-- ==== Sys2Proof/Machine/Timers.lean ====
section
/-! DEFINITION. Timer0 and Timer1: the overflow and compare detector (41_timers.md). The tick is the reference semantics of
R91, CPU cycle by CPU cycle. -/

namespace Sys2Proof.Machine

open Sys2Proof

/-- One channel of `Pwm1` (R94): a pulse for a non-zero compare register. -/
def channelPulse (s : State) (pin : Pin) (compare : BitVec 16) (ts : Nat) : State :=
  if compare = 0 then s
  else
    routePulseAt s pin
      (pulseUs compare.toNat s.t1.top.toNat (periodUs s.t1.top.toNat s.t1.prescaler.toNat)) ts

/-- `Pwm1(ts)` (R94): channel A, then channel B, when `top` is set. -/
def pwm1 (s : State) (ts : Nat) : State :=
  if s.t1.top = 0 then s
  else
    let s' := channelPulse s s.cfg.pinOc1a s.t1.compareA ts
    channelPulse s' s'.cfg.pinOc1b s'.t1.compareB ts

/-- `Wrap(n, ts)` (R93): flag, `Ovf`, interrupt request, and on Timer1 the pulses. -/
def wrap (n : TimerId) (s : State) (ts : Nat) : State :=
  let s := setTimer s n (setOverflow (timer s n))
  let s := emit s (.ovf n (BitVec.ofNat 64 ts))
  let s := requestInterrupt s (vectorOf s.cfg n) (intenBit s.inten n)
  match n with
  | .t0 => s
  | .t1 => pwm1 s ts

/-- One channel of `CompareCheck` (R97). -/
def compareChannel (n : TimerId) (s : State) (ch : Channel) (compare : BitVec 16) (ts : Nat) : State :=
  if compare ≠ 0 ∧ (timer s n).counter = compare then emit s (.cmp n ch (BitVec.ofNat 64 ts)) else s

/-- `CompareCheck(n, ts)` (R97): A, then B, on the new counter. -/
def compareCheck (n : TimerId) (s : State) (ts : Nat) : State :=
  let s := compareChannel n s .a (timer s n).compareA ts
  compareChannel n s .b (timer s n).compareB ts

/-- `Count(n, ts)` (R92): one count, and whether it wrapped (1) or not (0). -/
def count (n : TimerId) (s : State) (ts : Nat) : State × Nat :=
  let t := timer s n
  if effTop n t ≤ t.counter.toNat + 1 then
    (compareCheck n (wrap n (setTimer s n { t with counter := 0 }) ts) ts, 1)
  else
    (compareCheck n (setTimer s n { t with counter := t.counter + 1 }) ts, 0)

/-- One CPU cycle of a running timer (the loop body of R91), `rest` cycles of the batch following it: the state and the
overflows it adds. -/
def tickCycle (n : TimerId) (s : State) (rest : Nat) : State × Nat :=
  if (timer s n).prescaler.toNat ≤ (residue s n).toNat + 1 then
    count n (setResidue s n 0) (wrapTime s.cpuCycles.toNat rest)
  else (setResidue s n (residue s n + 1), 0)

/-- The loop of R91 over the last `c` cycles of a batch, `ovf` overflows counted before. -/
def tickCycles (n : TimerId) : Nat → State → Nat → State × Nat
  | 0, s, ovf => (s, ovf)
  | rest + 1, s, ovf =>
    let r := tickCycle n s rest
    tickCycles n rest r.1 (ovf + r.2)

/-- `Tick(n, c)` (R91): a timer with `prescaler == 0` is stopped. -/
def tick (n : TimerId) (s : State) (c : Nat) : State × Nat :=
  if (timer s n).prescaler = 0 then (s, 0) else tickCycles n c s 0

/-- `RESP <- Tick(n, cycles)` (R101, R102). -/
def tickResult (n : TimerId) (s : State) (cycles : BitVec 32) : State :=
  let r := tick n s cycles.toNat
  { r.1 with resp := .u32 (BitVec.ofNat 32 r.2) }

/-- `T0.TICK cycles` (R101). -/
def execT0Tick (cycles : BitVec 32) (s : State) : Result := stepOnly s (.next (tickResult .t0 s cycles))

/-- `T1.TICK cycles` (R102). -/
def execT1Tick (cycles : BitVec 32) (s : State) : Result := stepOnly s (.next (tickResult .t1 s cycles))

/-- `REG.WR index, value` (R103). -/
def execRegWr (index : Reg) (value : BitVec 16) (s : State) : Result := stepOnly s (.next (writeReg s index value))

/-- `REG.RD index` (R104). -/
def execRegRd (index : Reg) (s : State) : Result := stepOnly s (.next { s with resp := .u16 (readReg s index) })

end Sys2Proof.Machine
end

