-- ==== Sys2Proof/Machine/Dispatch.lean ====
section
/-! DEFINITION. The dispatch: one arm per instruction (30_encoding.md R61, R67). -/

namespace Sys2Proof.Machine

open Sys2Proof

def exec (i : Instr) (s : State) : Host.Outcome State Fault Refusal :=
  match i with
  | .clkTick cycles => Sys2Proof.Machine.execClkTick cycles s
  | .clkReset => Sys2Proof.Machine.execClkReset s
  | .clkMicros => Sys2Proof.Machine.execClkMicros s
  | .clkMillis => Sys2Proof.Machine.execClkMillis s
  | .clkSeconds => Sys2Proof.Machine.execClkSeconds s
  | .t0Tick cycles => Sys2Proof.Machine.execT0Tick cycles s
  | .t1Tick cycles => Sys2Proof.Machine.execT1Tick cycles s
  | .regWr index value => Sys2Proof.Machine.execRegWr index value s
  | .regRd index => Sys2Proof.Machine.execRegRd index s
  | .intReq vector en => Sys2Proof.Machine.execIntReq vector en s
  | .intPoll => Sys2Proof.Machine.execIntPoll s
  | .intReti => Sys2Proof.Machine.execIntReti s
  | .pwmReg pin id => Sys2Proof.Machine.execPwmReg pin id s
  | .pwmUnreg pin id => Sys2Proof.Machine.execPwmUnreg pin id s
  | .pwmRoute pin pulseWidth period => Sys2Proof.Machine.execPwmRoute pin pulseWidth period s
  | .pwmRise pin timestamp => Sys2Proof.Machine.execPwmRise pin timestamp s
  | .pwmFall pin timestamp => Sys2Proof.Machine.execPwmFall pin timestamp s
  | .srvAnim dt => Sys2Proof.Machine.execSrvAnim dt s
  | .srvStall id flag => Sys2Proof.Machine.execSrvStall id flag s
  | .pinChg pin level => Sys2Proof.Machine.execPinChg pin level s
  | .gpioWr port value => Sys2Proof.Machine.execGpioWr port value s
  | .lcdPinmap role id pin => Sys2Proof.Machine.execLcdPinmap role id pin s
  | .actAttach pin kind id => Sys2Proof.Machine.execActAttach pin kind id s
  | .actDetach id => Sys2Proof.Machine.execActDetach id s
  | .lcdGetbuf id => Sys2Proof.Machine.execLcdGetbuf id s
  | .sysReset => Sys2Proof.Machine.execSysReset s
  | .lcdNop => Sys2Proof.Machine.execLcdNop s
  | .lcdClear => Sys2Proof.Machine.execLcdClear s
  | .lcdHome => Sys2Proof.Machine.execLcdHome s
  | .lcdEntry d sh => Sys2Proof.Machine.execLcdEntry d sh s
  | .lcdDispctl d c b => Sys2Proof.Machine.execLcdDispctl d c b s
  | .lcdShift sc rl => Sys2Proof.Machine.execLcdShift sc rl s
  | .lcdFuncset l n f => Sys2Proof.Machine.execLcdFuncset l n f s
  | .lcdSetcgram a => Sys2Proof.Machine.execLcdSetcgram a s
  | .lcdSetddram a => Sys2Proof.Machine.execLcdSetddram a s
  | .lcdData b => Sys2Proof.Machine.execLcdData b s

end Sys2Proof.Machine
end

