-- ==== Sys2Proof/Machine/Step.lean ====
section
/-! DEFINITION. One step: the next word on the port is accepted, decoded and run (30_encoding.md R60). An empty port leaves the
machine as it is; a reserved opcode is accepted and does nothing (R65 (a)). -/

namespace Sys2Proof.Machine

open Sys2Proof

def step (s : State) : Host.Outcome State Fault Refusal :=
  match fetch s with
  | .idle => .next s
  | .ignored s' => .next s'
  | .run i s' => exec i s'

/-- `s` with the opcode table's number `w` of `nbits` bits next on the input: a command word with the `SRC` bit its operation
asks for, or an LCD byte for an instance that is there to receive it (logs 1 and 14). -/
def State.withFetchWord (s : State) (nbits w : Nat) : State :=
  match wordOfTable nbits w with
  | .ok (.cmd80 c) => { s with cmds := .cmd (issuerOf c) c :: s.cmds }
  | .ok (.lcd9 b) =>
    let r := lcdReceiver s
    { r.2 with cmds := .lcd r.1 b :: s.cmds }
  | .error _ => s

end Sys2Proof.Machine
end

