-- ==== Sys2Proof/Machine/StepLoop.lean ====
section
/-! DEFINITION. The pseudo-operations (30_encoding.md R70): `STEP` (46_step_loop_and_host.md R170), `lcd4` and `lcd_begin4`
(70_reset_and_hazards.md R212), as the operations they expand to. -/

namespace Sys2Proof.Machine

open Sys2Proof

/-- An item of `W`: what the executed instruction, or an outside requester, caused before the ticks (R170). -/
inductive WItem where
  | regWr (index : Reg) (value : BitVec 16)
  | reti
  | intReq (vector : BitVec 16) (en : Bool)
  deriving DecidableEq, Repr

/-- The operation an item of `W` is. -/
def itemOp : WItem → Instr
  | .regWr index value => .regWr index value
  | .reti => .intReti
  | .intReq vector en => .intReq vector en

/-- `STEP(W, c, G)` (R170): the writes, clock, Timer0, Timer1, poll, GPIO writes. -/
def stepOps (w : List WItem) (c : BitVec 32) (g : List (BitVec 8 × Byte)) : List Instr :=
  w.map itemOp ++ [.clkTick c, .t0Tick c, .t1Tick c, .intPoll] ++ g.map fun e => .gpioWr e.1 e.2

/-- Operations one after another; a stop ends the sequence. -/
def execAll : List Instr → State → Result
  | [], s => .next s
  | i :: is, s => andThen (exec i s) (execAll is)

/-- The bus word of an operation issued by `p`, LCD bytes going to `id`. -/
def busWord (p : Principal) (id : InstanceId) (i : Instr) : BusWord :=
  match encode i with
  | .cmd80 w => .cmd p w
  | .lcd9 w => .lcd id w

/-- Operations issued by `p` wait on the port behind those already there. -/
def issue (p : Principal) (ops : List Instr) (s : State) : State := { s with cmds := s.cmds ++ ops.map (busWord p s.lcdSel) }

/-! ### The interleaving with the host (46_step_loop_and_host.md R172) -/

/-- A turn at the port: a whole `STEP`, one operation of the step loop that is no part of a `STEP` (R178: the read hook `REG.RD`;
pins and pulses), or one operation of the host. -/
inductive Turn where
  | step (w : List WItem) (c : BitVec 32) (g : List (BitVec 8 × Byte))
  | loop (i : Instr)
  | host (i : Instr)
  deriving DecidableEq, Repr

/-- The operations of a turn. -/
def turnOps : Turn → List Instr
  | .step w c g => stepOps w c g
  | .loop i => [i]
  | .host i => [i]

/-- Who issues a turn. -/
def turnSrc : Turn → Principal
  | .step _ _ _ => .stepLoop
  | .loop _ => .stepLoop
  | .host _ => .host

/-- The operations the step loop issues outside a `STEP`. -/
def outsideStep : Instr → Bool
  | .regRd _ | .pwmRoute _ _ _ | .pwmRise _ _ | .pwmFall _ _ | .pinChg _ _ => true
  | _ => false

/-- An instruction of the command port, not a byte of an LCD's bus. -/
def isCommand (i : Instr) : Bool :=
  match encode i with
  | .cmd80 _ => true
  | .lcd9 _ => false

/-- A turn R170 to R172 and 30_encoding.md R61 let happen: its operands fit their fields, and its principal may issue it. -/
def turnOk : Turn → Bool
  | .step w _ _ => w.all fun e => (itemOp e).wf
  | .loop i => i.wf && outsideStep i
  | .host i => i.wf && isCommand i && allows i .host

/-- The words of turns one after another: no word of the host stands inside a `STEP` (R172). -/
def schedule (turns : List Turn) : List BusWord := turns.flatMap fun t => (turnOps t).map (busWord (turnSrc t) 0)

/-- What waits on the port is what is left of an interleaving R172 allows: turns, in any order and number, of which some may be
done and the first that is not may be under way. A claim about what host and step loop do together takes this as a premise (log
26). -/
def Scheduled (cmds : List BusWord) : Prop := ∃ turns, (∀ t ∈ turns, turnOk t = true) ∧ cmds <:+ schedule turns

/-- Turns one after another, each to its end; a stop ends the sequence. -/
def execTurns : List Turn → State → Result
  | [], s => .next s
  | t :: ts, s => andThen (execAll (turnOps t) { s with src := turnSrc t }) (execTurns ts)

/-! ### The LCD sequences -/

/-- A bound line driven to a level; an unbound one is not driven. -/
def drive (line : Option Pin) (level : Bool) : List Instr :=
  match line with
  | some pin => [.pinChg pin level]
  | none => []

/-- One nibble latched: the data lines, then a pulse of the enable line (30_encoding.md R70). -/
def nibbleOps (p : LcdPins) (nib : BitVec 4) : List Instr :=
  drive p.db[7] (nib.getLsbD 3) ++ drive p.db[6] (nib.getLsbD 2) ++ drive p.db[5] (nib.getLsbD 1)
    ++ drive p.db[4] (nib.getLsbD 0) ++ drive p.en true ++ drive p.en false

/-- `lcd4(id, rs, byte)` (R70), on the instance's pins. -/
def lcd4 (p : LcdPins) (rs : Bool) (byte : Byte) : List Instr :=
  drive p.rs rs ++ nibbleOps p (byte.extractLsb' 4 4) ++ nibbleOps p (byte.extractLsb' 0 4)

/-- `lcd_begin4(id)` (R212): four single latches 3, 3, 3, 2, then 0x28, 0x0C, 0x01, 0x06. -/
def lcdBegin4 (p : LcdPins) : List Instr :=
  drive p.rs false ++ nibbleOps p 3 ++ nibbleOps p 3 ++ nibbleOps p 3 ++ nibbleOps p 2
    ++ lcd4 p false 0x28 ++ lcd4 p false 0x0C ++ lcd4 p false 0x01 ++ lcd4 p false 0x06

end Sys2Proof.Machine
end

