-- ==== Sys2Proof/Safety.lean ====
section
/-! DEFINITION. What counts as a safe run, in the terms claims use: the invariant of the state, and the marks of
93_implementation_defined.md (what no claim should rest on). -/

namespace Sys2Proof.Machine

open Sys2Proof

/-- What holds of a timer and its residue: 10_state.md R13 (the natural period is never held), R15, R17. -/
structure TimerOk (n : TimerId) (t : TimerState) (r : BitVec 16) : Prop where
  init_eq : t.initialized = (t.top != 0)
  counter_lt : t.counter.toNat < naturalTop n
  residue_lt : r.toNat < max t.prescaler.toNat 1

/-- Timer0 holds 8-bit values (10_state.md R14). -/
structure Narrow (t : TimerState) : Prop where
  top_le : t.top.toNat ≤ 0xFF
  compareA_le : t.compareA.toNat ≤ 0xFF
  compareB_le : t.compareB.toNat ≤ 0xFF

/-- What holds of the controller: Idle between operations (10_state.md R22), sequence numbers rising and handed out (R23, R24). -/
structure IntOk (i : IntState) : Prop where
  idle : i.icState = .idle
  rising : i.pending.Pairwise fun x y => x.priorityOrder < y.priorityOrder
  handed_out : ∀ e ∈ i.pending, e.priorityOrder < i.seqNext

/-- What holds of a servo under its id (10_state.md R27, R28). -/
structure ServoOk (cfg : Config) (id : InstanceId) (sv : ServoState) : Prop where
  own_id : sv.instanceId = id
  speed_eq : sv.angularSpeedDegPerS = round32 cfg.rnd32 cfg.servoSpeed
  deadband_eq : sv.deadbandDeg = round32 cfg.rnd32 cfg.servoDeadband
  torque_eq : sv.maxTorque = cfg.servoMaxTorque
  target_range : cfg.rnd32 = .identity →
    sv.targetAngleDeg = cfg.servoInitAngle ∨ (0 ≤ sv.targetAngleDeg ∧ sv.targetAngleDeg ≤ 180)

/-- What holds of an LCD: the cursor is an address of the geometry (10_state.md R32), the DDRAM list is canonical, the nibble
buffer keeps its nibble in bits 7 to 4 (45_lcd.md R145). -/
structure LcdOk (st : LcdState) : Prop where
  cursor_valid : validAddr st.functionSet.lines st.cursorAddr = true
  ddram_wf : Memory.wf blankCell ddramSize st.ddram = true
  nibble_high : st.nibbleBuffer &&& 0x0F = 0

/-- What holds of an entry of the actuator table. -/
def EntryOk (cfg : Config) (e : InstanceId × ActInstance) : Prop :=
  match e with
  | (id, .servo sv) => ServoOk cfg id sv
  | (_, .lcd st _) => LcdOk st

/-- The invariant of the machine. -/
structure MachineInv (s : State) : Prop where
  t0_ok : TimerOk .t0 s.t0 s.prescCnt0
  t0_narrow : Narrow s.t0
  t1_ok : TimerOk .t1 s.t1 s.prescCnt1
  int_ok : IntOk s.int
  registry_rising : s.registry.Pairwise fun x y => pairKey x < pairKey y
  act_rising : s.act.Pairwise fun x y => x.1.toNat < y.1.toNat
  act_ok : ∀ e ∈ s.act, EntryOk s.cfg e
  port_wf : Memory.wf blankPort s.cfg.nports s.port = true

/-- The cases of 93_implementation_defined.md to which the model gives the rules' effect and on which the spec wants no claim to
rest. -/
inductive Mark where
  /-- U1 -/
  | reservedOpcode
  /-- U2 -/
  | wrongPrincipal
  /-- U4 -/
  | badKindOrRole
  /-- U18 -/
  | badDelta
  deriving DecidableEq, Repr

/-- The mark of a command issued by `p`, if it has one. -/
def instrMark (p : Principal) (i : Instr) : Option Mark :=
  if allows i p then
    match i with
    | .lcdPinmap (.reserved _) _ _ => some .badKindOrRole
    | .actAttach _ (.reserved _) _ => some .badKindOrRole
    | .srvAnim dt =>
      match binary64Value dt with
      | some q => if q < 0 then some .badDelta else none
      | none => some .badDelta
    | _ => none
  else some .wrongPrincipal

/-- The mark of a word on the port, if it has one. -/
def wordMark : BusWord → Option Mark
  | .lcd _ _ => none
  | .cmd p w =>
    match decodeCmd80 w with
    | .ok i => instrMark p i
    | .error _ => some .reservedOpcode

/-- A claim about the visible window of an LCD may rest on its state: it has done nothing U5 or U6 marks, and `shift_display` is
false (45_lcd.md R149: a model should refuse claims about the window of any other; log 12). -/
def windowTrusted (st : LcdState) : Bool := !st.outsideSpec && !st.entryMode.shiftDisplay

/-- Claims about every visible window may rest on the state (U5, U6; log 12). -/
def displaysTrusted (s : State) : Bool :=
  s.act.all fun e =>
    match e.2 with
    | .lcd st _ => windowTrusted st
    | .servo _ => true

/-- The step taken next is one claims may rest on, those about a visible window among them. -/
def cleanStep (s : State) : Bool :=
  displaysTrusted s
    && match s.cmds with
      | [] => true
      | w :: _ => wordMark w == none

/-! ### The terms of the claims -/

/-- A result with its next state seen through `f`. -/
def seenThrough (f : State → State) (r : Result) : Result :=
  match r with
  | .next s => .next (f s)
  | .fault e => .fault e
  | .refused e => .refused e

/-- An entry of the actuator table without what the wall clock moves (44_servo.md R139). -/
def withoutWallEntry (e : InstanceId × ActInstance) : InstanceId × ActInstance :=
  match e with
  | (id, .servo sv) => (id, .servo { sv with currentAngleDeg := 0, lastAnimationTickWallclock := 0 })
  | (id, .lcd st p) => (id, .lcd st p)

/-- The state without what the wall clock moves: every servo's current angle and last animation tick (44_servo.md R139). -/
def withoutWall (s : State) : State := { s with act := s.act.map withoutWallEntry }

/-- How many overflow notifications of timer `n` a piece of the trace holds. -/
def overflowsIn (n : TimerId) (evs : List Event) : Nat :=
  evs.countP fun e =>
    match e with
    | .ovf k _ => k == n
    | _ => false

/-- A piece of the trace holds no pulse. -/
def noPulse (evs : List Event) : Prop := ∀ pin level ts, Event.pulse pin level ts ∉ evs

/-- The opcodes in use (30_encoding.md R61). -/
def opcodesInUse : List (BitVec 8) :=
  [0x10, 0x11, 0x12, 0x13, 0x14, 0x20, 0x21, 0x22, 0x23, 0x30, 0x31, 0x32, 0x40, 0x41, 0x42, 0x43, 0x44, 0x50, 0x51,
    0x60, 0x61, 0x62, 0x70, 0x71, 0x72, 0x73]

/-- The pin changes a port write performs (45_lcd.md R142): the changed bits that drive a pin, in increasing bit order. -/
def changedPins (cfg : Config) (port : Nat) (old value : Byte) : List Instr :=
  (List.range 8).filterMap fun bit =>
    if old.getLsbD bit = value.getLsbD bit then none
    else (portPinOf cfg port bit).map fun p => .pinChg p (value.getLsbD bit)

/-- The lines of an LCD wired as 70_reset_and_hazards.md R212 asks: RS, EN and DB7 to DB4 bound to six different pins, DB3 to
DB0 unbound. -/
structure FourBitWired (p : LcdPins) (rs en d7 d6 d5 d4 : Pin) : Prop where
  rs_bound : p.rs = some rs
  en_bound : p.en = some en
  d7_bound : p.db[7] = some d7
  d6_bound : p.db[6] = some d6
  d5_bound : p.db[5] = some d5
  d4_bound : p.db[4] = some d4
  low_unbound : p.db[3] = none ∧ p.db[2] = none ∧ p.db[1] = none ∧ p.db[0] = none
  distinct : [rs, en, d7, d6, d5, d4].Nodup

end Sys2Proof.Machine
end

