-- ==== Sys2Proof/Certificates/Slice0/Obligations.lean ====
section
/-! DEFINITION. The statements about the block, from the numbered rules of spec/. Every docstring names the rule, and says so
where a clause rests on a choice of the model's. -/

open Sys2Proof Sys2Proof.Machine

/-! ### Encoding -/

/-- 30_encoding.md R60 to R62, R67: every well-formed instruction is what its own word decodes to, for every operand. -/
def Obligations.DecodeInvertsEncode : Prop :=
  ∀ i : Instr, i.wf = true → decode (encode i) = .ok i

/-- R61, R65 (a), (c): `op` alone selects the operation. A word with an opcode in use decodes to a well-formed instruction, and
encoding that instruction again gives a word with the same `op`; a word with any other opcode is rejected by it. -/
def Obligations.OpcodeAloneSelectsTheOperation : Prop :=
  ∀ w : BitVec 80,
    (opField w ∈ opcodesInUse →
      ∃ i w', decodeCmd80 w = .ok i ∧ i.wf = true ∧ encode i = .cmd80 w' ∧ opField w' = opField w)
    ∧ (opField w ∉ opcodesInUse → decodeCmd80 w = .error (.reservedOp (opField w)))

/-- R67: every one of the 512 values is one row's, with its fields. -/
def Obligations.LcdByteRowsCoverEveryValue : Prop :=
  ∀ w : BitVec 9,
    decodeLcd9 w =
      if 0x100 ≤ w.toNat then .lcdData (BitVec.ofNat 8 (w.toNat - 0x100))
      else if 0x80 ≤ w.toNat then .lcdSetddram (BitVec.ofNat 7 (w.toNat - 0x80))
      else if 0x40 ≤ w.toNat then .lcdSetcgram (BitVec.ofNat 6 (w.toNat - 0x40))
      else if 0x20 ≤ w.toNat then
        .lcdFuncset (decide (w.toNat / 16 % 2 = 1)) (decide (w.toNat / 8 % 2 = 1)) (decide (w.toNat / 4 % 2 = 1))
      else if 0x10 ≤ w.toNat then .lcdShift (decide (w.toNat / 8 % 2 = 1)) (decide (w.toNat / 4 % 2 = 1))
      else if 0x08 ≤ w.toNat then
        .lcdDispctl (decide (w.toNat / 4 % 2 = 1)) (decide (w.toNat / 2 % 2 = 1)) (decide (w.toNat % 2 = 1))
      else if 0x04 ≤ w.toNat then .lcdEntry (decide (w.toNat / 2 % 2 = 1)) (decide (w.toNat % 2 = 1))
      else if 0x02 ≤ w.toNat then .lcdHome
      else if 0x01 ≤ w.toNat then .lcdClear
      else .lcdNop

/-- R61, R62, R67 and 95_test_vectors.md: words written out from the encoding decode to the instructions they stand for. -/
def Obligations.SampleWordsDecode : Prop :=
  decodeTableWord 80 0x10FFFFFFFFFF00000005 = some (.clkTick 5)
  ∧ decodeTableWord 80 0x22090000000000009C40 = some (.regWr .t1Top 40000)
  ∧ decodeTableWord 80 0x30010000000000000004 = some (.intReq 0x0004 true)
  ∧ decodeTableWord 80 0x420900004E20000005DC = some (.pwmRoute 9 1500 20000)
  ∧ decodeTableWord 80 0x51010000000000000001 = some (.srvStall 1 true)
  ∧ decodeTableWord 80 0x620100000000000B0002 = some (.lcdPinmap .en 2 11)
  ∧ decodeTableWord 80 0x700A0000000000010001 = some (.actAttach 10 .lcd 1)
  ∧ decodeTableWord 16 0x038 = some (.lcdFuncset true true false)
  ∧ decodeTableWord 16 0x148 = some (.lcdData 0x48)
  ∧ decodeTableWord 80 0x7F000000000000000000 = none

/-! ### Steps and principals -/

/-- R60: a step accepts the next word on the port, with its principal (or, for an LCD byte, the instance it is for), decodes it
and runs the instruction; `RESP` is not meaningful until an operation drives it (R63). The port, the instance and the cleared
`RESP` are the model's rendering (logs 1, 6, 14). -/
def Obligations.StepRunsTheDecodedInstruction : Prop :=
  ∀ (s : State) (rest : List BusWord) (i : Instr),
    (∀ src w, s.cmds = .cmd src w :: rest → decode (.cmd80 w) = .ok i →
      step s = exec i { s with cmds := rest, src := src, resp := .notMeaningful })
    ∧ (∀ id w, s.cmds = .lcd id w :: rest → decode (.lcd9 w) = .ok i →
      step s = exec i { s with cmds := rest, lcdSel := id, resp := .notMeaningful })

/-- R65 (a): a reserved opcode changes no state, emits nothing and drives no response; the word has left the port. An empty port
changes nothing (log 1). -/
def Obligations.ReservedOpcodeDoesNothing : Prop :=
  ∀ s : State,
    (∀ src w rest, s.cmds = .cmd src w :: rest → opField w ∉ opcodesInUse →
      step s = .next { s with cmds := rest, src := src, resp := .notMeaningful })
    ∧ (s.cmds = [] → step s = .next s)

/-- R61 (the "principal" column), R65 (b), R198: which principal each opcode allows, and that a command from the other one does
nothing. -/
def Obligations.WrongPrincipalDoesNothing : Prop :=
  (∀ (i : Instr) (s : State), allows i s.src = false → exec i s = .next s)
  ∧ ∀ (w : BitVec 80) (i : Instr) (p : Principal), decodeCmd80 w = .ok i →
      (allows i p = true ↔
        if opField w ∈ ([0x11, 0x12, 0x13, 0x14, 0x40, 0x41] : List (BitVec 8)) then True
        else if opField w ∈ ([0x50, 0x51, 0x62, 0x70, 0x71, 0x72, 0x73] : List (BitVec 8)) then p = .host
        else p = .stepLoop)

/-! ### Clock -/

/-- 40_clock.md R80: `CLK.TICK` adds exactly, and a sum of 2^64 or more is refused. -/
def Obligations.ClockTickAddsExactly : Prop :=
  ∀ (c : BitVec 32) (s : State), s.src = .stepLoop →
    (s.cpuCycles.toNat + c.toNat < 2 ^ 64 →
      ∃ v : BitVec 64, v.toNat = s.cpuCycles.toNat + c.toNat ∧ exec (.clkTick c) s = .next { s with cpuCycles := v })
    ∧ (2 ^ 64 ≤ s.cpuCycles.toNat + c.toNat → exec (.clkTick c) s = .refused .clockOverflow)

/-- R81 to R83: `CLK.RESET` zeroes the counter; `CLK.MICROS` and `CLK.MILLIS` return the floor of cycles / 16 and cycles / 16000;
none changes anything else. -/
def Obligations.ClockResetMicrosAndMillis : Prop :=
  ∀ s : State,
    exec .clkReset s = .next { s with cpuCycles := 0 }
    ∧ (∃ v : BitVec 64, v.toNat = s.cpuCycles.toNat / 16 ∧ exec .clkMicros s = .next { s with resp := .u64 v })
    ∧ (∃ v : BitVec 64, v.toNat = s.cpuCycles.toNat / 16000 ∧ exec .clkMillis s = .next { s with resp := .u64 v })

/-- R84, R86: `CLK.SECONDS` returns the exact quotient under `RND64`, with a pattern that denotes the value returned whenever some
binary64 pattern does; neither the value nor the number its pattern denotes decreases with the clock, whatever `RND64` is (that
`RND64` does not decrease, and that a pattern is driven where none denotes the value, are the model's, logs 7 and 8). -/
def Obligations.ClockSecondsIsTheQuotient : Prop :=
  (∀ s : State, ∃ p : BitVec 64,
    let q := round64 s.cfg.rnd64 ((s.cpuCycles.toNat : Rat) / 16000000)
    exec .clkSeconds s = .next { s with resp := .f64 q p }
    ∧ (s.cfg.rnd64 = .identity → q = (s.cpuCycles.toNat : Rat) / 16000000)
    ∧ ((∃ p', binary64Value p' = some q) → binary64Value p = some q))
  ∧ ∀ s t : State, s.cfg.rnd64 = t.cfg.rnd64 → s.cpuCycles.toNat ≤ t.cpuCycles.toNat →
    ∃ (q q' : Rat) (p p' : BitVec 64),
      exec .clkSeconds s = .next { s with resp := .f64 q p }
      ∧ exec .clkSeconds t = .next { t with resp := .f64 q' p' }
      ∧ q ≤ q'
      ∧ ∀ v v', binary64Value p = some v → binary64Value p' = some v' → v ≤ v'

/-! ### Timers -/

/-- 41_timers.md R91, R100, R101: `T0.TICK` of a running timer whose counter is below its TOP. Counter, residue, flag and
response in closed form; everything the rule does not name is unchanged, every byte of memory with it. -/
def Obligations.Timer0TickResult : Prop :=
  ∀ (c : BitVec 32) (s : State), s.src = .stepLoop → s.t0.prescaler ≠ 0 →
    s.prescCnt0.toNat < s.t0.prescaler.toNat → s.t0.counter.toNat < effTop .t0 s.t0 →
    let m := (s.prescCnt0.toNat + c.toNat) / s.t0.prescaler.toNat
    let wraps := (s.t0.counter.toNat + m) / effTop .t0 s.t0
    ∃ t, exec (.t0Tick c) s = .next t
      ∧ t.prescCnt0.toNat = (s.prescCnt0.toNat + c.toNat) % s.t0.prescaler.toNat
      ∧ t.t0.counter.toNat = (s.t0.counter.toNat + m) % effTop .t0 s.t0
      ∧ t.t0.overflowFlag = (s.t0.overflowFlag || decide (0 < wraps))
      ∧ t.resp = .u32 (BitVec.ofNat 32 wraps)
      ∧ t = { s with
          t0 := { s.t0 with counter := t.t0.counter, overflowFlag := t.t0.overflowFlag }
          prescCnt0 := t.prescCnt0
          int := { s.int with pending := t.int.pending, seqNext := t.int.seqNext }
          out := t.out
          resp := t.resp }

/-- R91, R100, R102: `T1.TICK` of a running timer whose counter is below its TOP. Of the actuators only the pulse start and the
target of servos registered on one of the two output pins may change; everything else is unchanged, every byte of memory with it. -/
def Obligations.Timer1TickResult : Prop :=
  ∀ (c : BitVec 32) (s : State), s.src = .stepLoop → s.t1.prescaler ≠ 0 →
    s.prescCnt1.toNat < s.t1.prescaler.toNat → s.t1.counter.toNat < effTop .t1 s.t1 →
    let m := (s.prescCnt1.toNat + c.toNat) / s.t1.prescaler.toNat
    let wraps := (s.t1.counter.toNat + m) / effTop .t1 s.t1
    ∃ t, exec (.t1Tick c) s = .next t
      ∧ t.prescCnt1.toNat = (s.prescCnt1.toNat + c.toNat) % s.t1.prescaler.toNat
      ∧ t.t1.counter.toNat = (s.t1.counter.toNat + m) % effTop .t1 s.t1
      ∧ t.t1.overflowFlag = (s.t1.overflowFlag || decide (0 < wraps))
      ∧ t.resp = .u32 (BitVec.ofNat 32 wraps)
      ∧ t = { s with
          t1 := { s.t1 with counter := t.t1.counter, overflowFlag := t.t1.overflowFlag }
          prescCnt1 := t.prescCnt1
          int := { s.int with pending := t.int.pending, seqNext := t.int.seqNext }
          act := t.act
          out := t.out
          resp := t.resp }
      ∧ ∀ id,
          match actFind id s.act with
          | some (.servo sv) =>
            ∃ sv', actFind id t.act = some (.servo sv')
              ∧ sv' = { sv with pulseStartTimeUs := sv'.pulseStartTimeUs, targetAngleDeg := sv'.targetAngleDeg }
              ∧ ((s.cfg.pinOc1a, id) ∉ s.registry → (s.cfg.pinOc1b, id) ∉ s.registry → sv' = sv)
          | x => actFind id t.act = x

/-- R92, R100, R218: `T0.TICK` and `T1.TICK` of a running timer whose counter was left at or above a freshly lowered TOP: the first
count wraps, the others go on from 0. Counter, residue, flag and response in closed form, a batch without a count among them;
everything the rules do not name is unchanged, every byte of memory with it, and of the actuators only the pulse start and the target
of servos registered on one of Timer1's two output pins may change. -/
def Obligations.LoweredTopWrapsAtTheNextCount : Prop :=
  ∀ (c : BitVec 32) (s : State), s.src = .stepLoop →
    (s.t0.prescaler ≠ 0 → s.prescCnt0.toNat < s.t0.prescaler.toNat → effTop .t0 s.t0 ≤ s.t0.counter.toNat →
      let m := (s.prescCnt0.toNat + c.toNat) / s.t0.prescaler.toNat
      let wraps := if m = 0 then 0 else 1 + (m - 1) / effTop .t0 s.t0
      ∃ t, exec (.t0Tick c) s = .next t
        ∧ t.prescCnt0.toNat = (s.prescCnt0.toNat + c.toNat) % s.t0.prescaler.toNat
        ∧ t.t0.counter.toNat = (if m = 0 then s.t0.counter.toNat else (m - 1) % effTop .t0 s.t0)
        ∧ t.t0.overflowFlag = (s.t0.overflowFlag || decide (0 < wraps))
        ∧ t.resp = .u32 (BitVec.ofNat 32 wraps)
        ∧ t = { s with
            t0 := { s.t0 with counter := t.t0.counter, overflowFlag := t.t0.overflowFlag }
            prescCnt0 := t.prescCnt0
            int := { s.int with pending := t.int.pending, seqNext := t.int.seqNext }
            out := t.out
            resp := t.resp })
    ∧ (s.t1.prescaler ≠ 0 → s.prescCnt1.toNat < s.t1.prescaler.toNat → effTop .t1 s.t1 ≤ s.t1.counter.toNat →
      let m := (s.prescCnt1.toNat + c.toNat) / s.t1.prescaler.toNat
      let wraps := if m = 0 then 0 else 1 + (m - 1) / effTop .t1 s.t1
      ∃ t, exec (.t1Tick c) s = .next t
        ∧ t.prescCnt1.toNat = (s.prescCnt1.toNat + c.toNat) % s.t1.prescaler.toNat
        ∧ t.t1.counter.toNat = (if m = 0 then s.t1.counter.toNat else (m - 1) % effTop .t1 s.t1)
        ∧ t.t1.overflowFlag = (s.t1.overflowFlag || decide (0 < wraps))
        ∧ t.resp = .u32 (BitVec.ofNat 32 wraps)
        ∧ t = { s with
            t1 := { s.t1 with counter := t.t1.counter, overflowFlag := t.t1.overflowFlag }
            prescCnt1 := t.prescCnt1
            int := { s.int with pending := t.int.pending, seqNext := t.int.seqNext }
            act := t.act
            out := t.out
            resp := t.resp }
        ∧ ∀ id,
            match actFind id s.act with
            | some (.servo sv) =>
              ∃ sv', actFind id t.act = some (.servo sv')
                ∧ sv' = { sv with pulseStartTimeUs := sv'.pulseStartTimeUs, targetAngleDeg := sv'.targetAngleDeg }
                ∧ ((s.cfg.pinOc1a, id) ∉ s.registry → (s.cfg.pinOc1b, id) ∉ s.registry → sv' = sv)
            | x => actFind id t.act = x)

/-- R106, R101, R102: a timer with `prescaler == 0` is stopped; the ticks return 0 and change nothing. -/
def Obligations.StoppedTimerTicksToZero : Prop :=
  ∀ (c : BitVec 32) (s : State), s.src = .stepLoop →
    (s.t0.prescaler = 0 → exec (.t0Tick c) s = .next { s with resp := .u32 0 })
    ∧ (s.t1.prescaler = 0 → exec (.t1Tick c) s = .next { s with resp := .u32 0 })

/-- R99: the batch law. With the clock ticked first, `CLK.TICK a; Tn.TICK a; CLK.TICK b; Tn.TICK b` and `CLK.TICK (a + b); Tn.TICK
(a + b)` leave the same state and trace (the response apart), and the overflow counts sum; with the clock standing at 0 the ticks
alone do. -/
def Obligations.BatchesLoseNoWraps : Prop :=
  (∀ (n : TimerId) (a b ab : BitVec 32) (s : State), s.src = .stepLoop → ab.toNat = a.toNat + b.toNat →
    s.cpuCycles.toNat + ab.toNat < 2 ^ 64 →
    let op : BitVec 32 → Instr := fun c => if n = .t0 then .t0Tick c else .t1Tick c
    ∃ (t u v : State) (x y z : BitVec 32),
      execAll [.clkTick a, op a] s = .next t ∧ t.resp = .u32 x
      ∧ execAll [.clkTick b, op b] t = .next u ∧ u.resp = .u32 y
      ∧ execAll [.clkTick ab, op ab] s = .next v ∧ v.resp = .u32 z
      ∧ z.toNat = x.toNat + y.toNat
      ∧ { u with resp := .notMeaningful } = { v with resp := .notMeaningful })
  ∧ ∀ (n : TimerId) (s : State) (a b : Nat), s.cpuCycles = 0 →
      (tick n (tick n s a).1 b).1 = (tick n s (a + b)).1
      ∧ (tick n s a).2 + (tick n (tick n s a).1 b).2 = (tick n s (a + b)).2

/-- R93, R13, R193: every wrap is reported on its own. The overflow count is the number of `Ovf` events the tick appends, and with
the source's `INTEN` bit set it is the number of requests queued, all for the source's vector; with the bit clear none is. -/
def Obligations.EveryWrapIsReportedAndRequested : Prop :=
  ∀ (n : TimerId) (s : State) (c : Nat), ∃ evs reqs,
    (tick n s c).1.out = s.out ++ evs
    ∧ overflowsIn n evs = (tick n s c).2
    ∧ (tick n s c).1.int.pending = s.int.pending ++ reqs
    ∧ reqs.length = (if intenBit s.inten n then (tick n s c).2 else 0)
    ∧ (∀ e ∈ reqs, e.vectorAddress = vectorOf s.cfg n)
    ∧ (tick n s c).1.int.seqNext = s.int.seqNext + reqs.length

/-- R94, R105: Timer0 never emits a pulse, and Timer1 emits none while `top` or both compare registers are 0; no actuator is
touched. -/
def Obligations.UnconfiguredTimerEmitsNoPulse : Prop :=
  ∀ (n : TimerId) (s : State) (c : Nat),
    (n = .t0 ∨ s.t1.top = 0 ∨ (s.t1.compareA = 0 ∧ s.t1.compareB = 0)) →
    ∃ evs, (tick n s c).1.out = s.out ++ evs ∧ noPulse evs ∧ (tick n s c).1.act = s.act

/-- R91 to R98, 43_pwm_router.md R124 to R127: what one count does, the whole state. Below TOP it adds 1 and emits a `Cmp` for each
non-zero compare register it meets, A before B, and does nothing else. A wrap zeroes the counter, sets the flag, puts its `Ovf` in the
trace and queues a request if the `INTEN` bit is set; a wrap of Timer0, and of Timer1 with `top` unset, does nothing else; a wrap of
Timer1 with `top` set then leaves the state that `PWM.RISE` and `PWM.FALL`, at the wrap's instant and one width of R95 later, leave
for each active channel, A before B: the servos registered on the channel's pin take both events, and the trace holds the pair. A
tick of one cycle is one count, at the clock's microsecond, when the residue reaches the prescaler, and else adds 1 to the residue. -/
def Obligations.OneCountEmitsInOrder : Prop :=
  (∀ (n : TimerId) (s : State) (ts : Nat), (timer s n).counter.toNat + 1 < effTop n (timer s n) →
    let v := (timer s n).counter + 1
    let hit : Channel → BitVec 16 → List Event := fun ch cmp =>
      if cmp ≠ 0 ∧ v = cmp then [.cmp n ch (BitVec.ofNat 64 ts)] else []
    count n s ts =
      ({ setTimer s n { timer s n with counter := v } with
          out := s.out ++ hit .a (timer s n).compareA ++ hit .b (timer s n).compareB }, 0)
    ∧ v.toNat = (timer s n).counter.toNat + 1)
  ∧ (∀ (n : TimerId) (s : State) (ts : Nat), effTop n (timer s n) ≤ (timer s n).counter.toNat + 1 →
      let wrapped : State :=
        { setTimer s n { timer s n with counter := 0, overflowFlag := true } with
          out := s.out ++ [.ovf n (BitVec.ofNat 64 ts)]
          int :=
            if intenBit s.inten n = true then
              { s.int with
                pending := s.int.pending ++ [{ vectorAddress := vectorOf s.cfg n, priorityOrder := s.int.seqNext }]
                seqNext := s.int.seqNext + 1 }
            else s.int }
      let period := s.t1.top.toNat * s.t1.prescaler.toNat * 1000000 / 16000000
      let fallTime : BitVec 16 → Nat := fun cmp => ts + cmp.toNat * period / s.t1.top.toNat
      let pair : Pin → BitVec 16 → List Event := fun pin cmp =>
        if cmp = 0 then []
        else [.pulse pin .high (BitVec.ofNat 64 ts), .pulse pin .low (BitVec.ofNat 64 (fallTime cmp))]
      let pulses : Pin → BitVec 16 → List Instr := fun pin cmp =>
        if cmp = 0 then []
        else [.pwmRise pin (BitVec.ofNat 64 ts), .pwmFall pin (BitVec.ofNat 64 (fallTime cmp))]
      (n = .t0 ∨ s.t1.top = 0 → count n s ts = (wrapped, 1))
      ∧ (n = .t1 → s.t1.top ≠ 0 →
          (count n s ts).2 = 1
          ∧ (count n s ts).1.src = s.src
          ∧ (count n s ts).1.out =
              wrapped.out ++ pair s.cfg.pinOc1a s.t1.compareA ++ pair s.cfg.pinOc1b s.t1.compareB
          ∧ execAll (pulses s.cfg.pinOc1a s.t1.compareA ++ pulses s.cfg.pinOc1b s.t1.compareB)
                { wrapped with src := .stepLoop } = .next { (count n s ts).1 with src := .stepLoop }))
  ∧ ∀ (n : TimerId) (s : State), s.src = .stepLoop → (timer s n).prescaler ≠ 0 →
      let op : Instr := if n = .t0 then .t0Tick 1 else .t1Tick 1
      let counted := count n (setResidue s n 0) (s.cpuCycles.toNat / 16)
      ((timer s n).prescaler.toNat ≤ (residue s n).toNat + 1 →
        exec op s = .next { counted.1 with resp := .u32 (BitVec.ofNat 32 counted.2) })
      ∧ ((residue s n).toNat + 1 < (timer s n).prescaler.toNat →
        exec op s = .next { setResidue s n (residue s n + 1) with resp := .u32 0 })

/-- R107, R124: the timestamp of a falling edge never leaves 64 bits, for any compare value, TOP, prescaler and cycle count, nor for
any width operand of `PWM.ROUTE`. -/
def Obligations.PulseTimestampsFitSixtyFourBits : Prop :=
  ∀ (cycles : BitVec 64) (compare top prescaler : BitVec 16) (width : BitVec 32) (rest : Nat), top ≠ 0 →
    wrapTime cycles.toNat rest + pulseUs compare.toNat top.toNat (periodUs top.toNat prescaler.toNat) < 2 ^ 64
    ∧ microsOf cycles.toNat + width.toNat < 2 ^ 64

/-- R103, 10_state.md R14 to R21: what every register reads after a `REG.WR`, which no other register, event or queue feels. -/
def Obligations.RegisterWriteThenRead : Prop :=
  ∀ (r : Reg) (v : BitVec 16) (s : State), s.src = .stepLoop → ∃ t, exec (.regWr r v) s = .next t
    ∧ readReg t r =
        (match r with
        | .t0Cnt | .t1Cnt => readReg s r
        | .t0Top | .t0Cmpa | .t0Cmpb => BitVec.ofNat 16 (v.toNat % 256)
        | .t0Presc | .t1Top | .t1Cmpa | .t1Cmpb | .t1Presc => v
        | .t0Flag | .t1Flag => if v.toNat % 2 = 1 then readReg s r &&& 2 else readReg s r
        | .inten => BitVec.ofNat 16 (v.toNat % 4)
        | .reserved _ => 0)
    ∧ (∀ r', r' ≠ r → (r = .t0Top → r' ≠ .t0Flag) → (r = .t1Top → r' ≠ .t1Flag) → readReg t r' = readReg s r')
    ∧ (r = .t0Top → t.t0.initialized = decide (v.toNat % 256 ≠ 0) ∧ t.t0.overflowFlag = s.t0.overflowFlag)
    ∧ (r = .t1Top → t.t1.initialized = decide (v ≠ 0) ∧ t.t1.overflowFlag = s.t1.overflowFlag)
    ∧ t.prescCnt0 = (if r = .t0Presc then 0 else s.prescCnt0)
    ∧ t.prescCnt1 = (if r = .t1Presc then 0 else s.prescCnt1)
    ∧ t = { s with t0 := t.t0, t1 := t.t1, prescCnt0 := t.prescCnt0, prescCnt1 := t.prescCnt1, inten := t.inten }

/-- R104, 10_state.md R18 to R21: `REG.RD` returns the register of the index table, zero-extended, and changes nothing else. -/
def Obligations.RegisterReadReturnsTheField : Prop :=
  ∀ (r : Reg) (s : State), s.src = .stepLoop →
    let flag : TimerState → BitVec 16 := fun t =>
      BitVec.ofNat 16 ((if t.overflowFlag then 1 else 0) + (if t.initialized then 2 else 0))
    let value : BitVec 16 :=
      match r with
      | .t0Cnt => s.t0.counter | .t0Top => s.t0.top | .t0Cmpa => s.t0.compareA | .t0Cmpb => s.t0.compareB
      | .t0Presc => s.t0.prescaler | .t0Flag => flag s.t0
      | .t1Cnt => s.t1.counter | .t1Top => s.t1.top | .t1Cmpa => s.t1.compareA | .t1Cmpb => s.t1.compareB
      | .t1Presc => s.t1.prescaler | .t1Flag => flag s.t1
      | .inten => BitVec.ofNat 16 s.inten.toNat
      | .reserved _ => 0
    exec (.regRd r) s = .next { s with resp := .u16 value }

/-! ### Interrupts -/

/-- 42_interrupt_controller.md R111: a request with its enable bit set is queued at the end with the next sequence number, whatever
`CPU.I` is; with the bit clear it is dropped. -/
def Obligations.RequestIsQueuedOrDropped : Prop :=
  ∀ (v : BitVec 16) (s : State), s.src = .stepLoop →
    exec (.intReq v true) s =
      .next { s with int := { s.int with
        pending := s.int.pending ++ [{ vectorAddress := v, priorityOrder := s.int.seqNext }]
        seqNext := s.int.seqNext + 1 } }
    ∧ exec (.intReq v false) s = .next s

/-- R112, R113: `INT.POLL` with something pending and `CPU.I` set takes the entry with the least vector address, the earliest among
equals: it leaves the queue, `PC` is pushed, `I` cleared, `PC` set to the vector, the controller Idle again, nothing else changed.
Otherwise it changes nothing. -/
def Obligations.PollTakesTheHighestPriority : Prop :=
  ∀ s : State, s.src = .stepLoop →
    (s.int.pending ≠ [] → s.cpu.i = true →
      ∃ e ∈ s.int.pending,
        (∀ x ∈ s.int.pending, e.vectorAddress.toNat < x.vectorAddress.toNat
          ∨ (e.vectorAddress = x.vectorAddress ∧ e.priorityOrder ≤ x.priorityOrder))
        ∧ exec .intPoll s =
            .next { s with
              int := { s.int with icState := .idle, pending := s.int.pending.erase e }
              cpu := { pc := e.vectorAddress, i := false, rstack := s.cpu.pc :: s.cpu.rstack } })
    ∧ (s.int.pending = [] ∨ s.cpu.i = false → exec .intPoll s = .next s)

/-- R114: `INT.RETI` pops `PC` and sets `I`; with nothing saved the model refuses, as the rule says a model must. -/
def Obligations.RetiPopsOrIsRefused : Prop :=
  ∀ s : State, s.src = .stepLoop →
    (∀ a rest, s.cpu.rstack = a :: rest →
      exec .intReti s = .next { s with cpu := { pc := a, i := true, rstack := rest } })
    ∧ (s.cpu.rstack = [] → exec .intReti s = .refused .retiEmptyStack)

/-- 10_state.md R30: no operation of the block but `INT.POLL` and `INT.RETI` writes the CPU surface. `SYS.RESET` is left out
because the CPU core's own reset comes with it (R209, log 5). -/
def Obligations.OnlyDispatchAndReturnWriteTheCpu : Prop :=
  ∀ (i : Instr) (s t : State), exec i s = .next t → i ≠ .intPoll → i ≠ .intReti → i ≠ .sysReset → t.cpu = s.cpu

/-! ### Router -/

/-- 43_pwm_router.md R121, R122: `PWM.REG` adds exactly its pair and `PWM.UNREG` removes exactly its pair, from either principal;
nothing else changes. -/
def Obligations.RegistryAddsAndRemovesOnePair : Prop :=
  ∀ (pin : Pin) (id : InstanceId) (s : State),
    (∃ t, exec (.pwmReg pin id) s = .next t ∧ t = { s with registry := t.registry }
      ∧ ∀ e, e ∈ t.registry ↔ e = (pin, id) ∨ e ∈ s.registry)
    ∧ (∃ t, exec (.pwmUnreg pin id) s = .next t ∧ t = { s with registry := t.registry }
      ∧ ∀ e, e ∈ t.registry ↔ e ≠ (pin, id) ∧ e ∈ s.registry)

/-- R125, R127, 44_servo.md R132: a rising event enters the trace and starts a pulse in every servo registered on the pin, and in
nothing else. -/
def Obligations.RiseReachesEveryRegisteredServo : Prop :=
  ∀ (pin : Pin) (ts : Micros) (s : State), s.src = .stepLoop → ∃ t, exec (.pwmRise pin ts) s = .next t
    ∧ t = { s with out := s.out ++ [.pulse pin .high ts], act := t.act }
    ∧ ∀ id, actFind id t.act =
        (match actFind id s.act with
        | some (.servo sv) =>
          some (.servo (if (pin, id) ∈ s.registry then { sv with pulseStartTimeUs := some ts } else sv))
        | x => x)

/-- R126, R127, 44_servo.md R131, R133: a falling event enters the trace; in every servo registered on the pin it ends the pulse, and
sets the target from the width when the timestamp is not before the start. -/
def Obligations.FallDecodesInEveryRegisteredServo : Prop :=
  ∀ (pin : Pin) (ts : Micros) (s : State), s.src = .stepLoop →
    let decoded : ServoState → ServoState := fun sv =>
      match sv.pulseStartTimeUs with
      | none => sv
      | some start =>
        if start.toNat ≤ ts.toNat then
          { sv with
            targetAngleDeg := round32 s.cfg.rnd32
              (max 0 (min 180 ((((ts.toNat - start.toNat : Nat) : Rat) - 1000) / 1000 * 180)))
            pulseStartTimeUs := none }
        else { sv with pulseStartTimeUs := none }
    ∃ t, exec (.pwmFall pin ts) s = .next t
      ∧ t = { s with out := s.out ++ [.pulse pin .low ts], act := t.act }
      ∧ ∀ id, actFind id t.act =
          (match actFind id s.act with
          | some (.servo sv) => some (.servo (if (pin, id) ∈ s.registry then decoded sv else sv))
          | x => x)

/-- R123, R124: `PWM.ROUTE` is a rise at the clock's microsecond and a fall `pulse_width_us` later; the period plays no part. -/
def Obligations.RouteIsARiseAndAFall : Prop :=
  ∀ (pin : Pin) (pw period : BitVec 32) (s : State), s.src = .stepLoop →
    ∃ (rise fall : Micros) (t : State),
      rise.toNat = s.cpuCycles.toNat / 16 ∧ fall.toNat = s.cpuCycles.toNat / 16 + pw.toNat
      ∧ exec (.pwmRoute pin pw period) s = .next t
      ∧ execAll [.pwmRise pin rise, .pwmFall pin fall] s = .next t

/-- 44_servo.md R131: the decode function: 0 up to 1000 µs, 180 from 2000 µs on, 0.18 degrees per microsecond between. -/
def Obligations.PulseWidthDecodesToAngle : Prop :=
  (∀ w : Nat, w ≤ 1000 → pulseWidthToAngle w = 0)
  ∧ (∀ w : Nat, 1000 ≤ w → w ≤ 2000 → pulseWidthToAngle w = ((w : Rat) - 1000) * (18 / 100))
  ∧ (∀ w : Nat, 2000 ≤ w → pulseWidthToAngle w = 180)

/-! ### Servo -/

/-- 44_servo.md R134, R135: `SRV.ANIM` with a finite `dt >= 0` advances every servo by one animator step and touches nothing else:
no LCD, no target, no pulse, no register, no memory. The exact result of each servo. A NaN, an infinity or a negative `dt` changes
nothing. -/
def Obligations.AnimationStepResult : Prop :=
  ∀ (p : BitVec 64) (s : State), s.src = .host →
    (∀ dt, binary64Value p = some dt → 0 ≤ dt →
      let angle : ServoState → Rat := fun sv =>
        let delta := sv.targetAngleDeg - sv.currentAngleDeg
        let move := min |delta| (sv.angularSpeedDegPerS * dt)
        if sv.isStalled ∨ |delta| < sv.deadbandDeg ∨ move = 0 then sv.currentAngleDeg
        else round32 s.cfg.rnd32
          (if delta < 0 then sv.currentAngleDeg - move
            else if delta = 0 then sv.currentAngleDeg else sv.currentAngleDeg + move)
      ∃ t, exec (.srvAnim p) s = .next t
        ∧ t = { s with act := t.act, out := t.out }
        ∧ ∀ id, actFind id t.act =
            (match actFind id s.act with
            | some (.servo sv) =>
              some (.servo { sv with
                currentAngleDeg := angle sv
                lastAnimationTickWallclock := round64 s.cfg.rnd64 (sv.lastAnimationTickWallclock + dt) })
            | x => x))
    ∧ ((binary64Value p = none ∨ ∃ dt, binary64Value p = some dt ∧ dt < 0) → exec (.srvAnim p) s = .next s)

/-- R138, 10_state.md R28: with exact arithmetic and a speed not negative, no servo moves by more than `speed * dt`, none passes its
target, and a stalled one does not move. -/
def Obligations.ServoRateIsBounded : Prop :=
  ∀ (p : BitVec 64) (dt : Rat) (s t : State) (id : InstanceId) (sv : ServoState), s.src = .host →
    binary64Value p = some dt → 0 ≤ dt → s.cfg.rnd32 = .identity → exec (.srvAnim p) s = .next t →
    servoAt s id = some sv → 0 ≤ sv.angularSpeedDegPerS →
    ∃ sv', servoAt t id = some sv'
      ∧ |sv'.currentAngleDeg - sv.currentAngleDeg| ≤ sv.angularSpeedDegPerS * dt
      ∧ |sv.targetAngleDeg - sv'.currentAngleDeg| + |sv'.currentAngleDeg - sv.currentAngleDeg|
          = |sv.targetAngleDeg - sv.currentAngleDeg|
      ∧ (sv.isStalled = true → sv'.currentAngleDeg = sv.currentAngleDeg)

/-- R136, R134: with exact arithmetic and a speed not negative, one `SRV.ANIM` notifies exactly the servos whose angle changed, each
once, in increasing id, with the angle it has afterwards. -/
def Obligations.OneNotificationPerMovedServo : Prop :=
  ∀ (p : BitVec 64) (dt : Rat) (s : State), MachineInv s → s.src = .host → binary64Value p = some dt → 0 ≤ dt →
    s.cfg.rnd32 = .identity → 0 ≤ s.cfg.servoSpeed →
    ∃ (t : State) (moved : List (InstanceId × Rat)), exec (.srvAnim p) s = .next t
      ∧ t.out = s.out ++ moved.map (fun e => .angle e.1 e.2)
      ∧ moved.Pairwise (fun x y => x.1.toNat < y.1.toNat)
      ∧ ∀ id a, (id, a) ∈ moved ↔
          ∃ sv sv', servoAt s id = some sv ∧ servoAt t id = some sv' ∧ sv'.currentAngleDeg = a
            ∧ sv'.currentAngleDeg ≠ sv.currentAngleDeg

/-- R139: what the wall clock moves is read by the animator alone. Two states that differ only in the servos' current angles and
last animation ticks go, under any operation but `SRV.ANIM`, to outcomes that differ only there. -/
def Obligations.WallClockNeverReachesTheSimulation : Prop :=
  ∀ (i : Instr) (s t : State), (∀ p, i ≠ .srvAnim p) → withoutWall s = withoutWall t →
    seenThrough withoutWall (exec i s) = seenThrough withoutWall (exec i t)

/-- R137: `SRV.STALL` sets or clears the flag of its servo and nothing else; an id that names no servo changes nothing. -/
def Obligations.StallSetsTheFlag : Prop :=
  ∀ (id : InstanceId) (flag : Bool) (s : State), s.src = .host →
    (∀ sv, servoAt s id = some sv → ∃ t, exec (.srvStall id flag) s = .next t
      ∧ t = { s with act := t.act }
      ∧ ∀ k, actFind k t.act = if k = id then some (.servo { sv with isStalled := flag }) else actFind k s.act)
    ∧ (servoAt s id = none → exec (.srvStall id flag) s = .next s)

/-! ### Pins and the LCD -/

/-- 45_lcd.md R141: a level already held is no transition, a rising edge only records the level, and a falling edge records it and
latches every LCD whose enable line the pin is, nothing else. `MachineInv` rules out the cursors no run reaches (log 15). -/
def Obligations.PinChangeLatchesOnFallingEnable : Prop :=
  ∀ (pin : Pin) (level : Bool) (s : State), s.src = .stepLoop → MachineInv s →
    (levelOf s.pinlvl pin = level → exec (.pinChg pin level) s = .next s)
    ∧ (levelOf s.pinlvl pin = false →
        exec (.pinChg pin true) s = .next { s with pinlvl := setLevel s.pinlvl pin true })
    ∧ (levelOf s.pinlvl pin = true → ∃ t, exec (.pinChg pin false) s = .next t
        ∧ t = { s with pinlvl := setLevel s.pinlvl pin false, act := t.act }
        ∧ ∀ id,
            match actFind id s.act with
            | some (.lcd st p) =>
              if p.en = some pin then
                ∃ st', latch (setLevel s.pinlvl pin false) st p = some st' ∧ actFind id t.act = some (.lcd st' p)
              else actFind id t.act = some (.lcd st p)
            | x => actFind id t.act = x)

/-- R145, R159: in 4-bit mode at AwaitHighNibble a latch keeps the nibble on DB7 to DB4 and changes nothing else: no cell, no cursor,
no mode. -/
def Obligations.SingleLatchOnlyKeepsTheNibble : Prop :=
  ∀ (lvl : Vector Bool 256) (st : LcdState) (p : LcdPins), st.functionSet.bits = .four → st.awaitingLowNibble = false →
    ∃ st', latch lvl st p = some st'
      ∧ st' = { st with nibbleBuffer := st'.nibbleBuffer, awaitingLowNibble := true }
      ∧ ∀ k, k < 8 → st'.nibbleBuffer.getLsbD k =
          (if k = 7 then lineLevel lvl p.db[7] else if k = 6 then lineLevel lvl p.db[6]
            else if k = 5 then lineLevel lvl p.db[5] else if k = 4 then lineLevel lvl p.db[4] else false)

/-- R145, R146, 20_memory.md R46: two latches in 4-bit mode run the byte whose high nibble is on the lines at the first and whose low
nibble is on them at the second, with RS as it is at the second; in 8-bit mode every latch is a complete byte, DB7 its most
significant bit. -/
def Obligations.LatchesAssembleBytes : Prop :=
  (∀ (l1 l2 : Vector Bool 256) (st : LcdState) (p : LcdPins), st.functionSet.bits = .four → st.awaitingLowNibble = false →
    ∃ (st1 : LcdState) (byte : Byte), latch l1 st p = some st1
      ∧ byte.toNat = (latchedNibble l1 p).toNat * 16 + (latchedNibble l2 p).toNat
      ∧ latch l2 st1 p = applyByte { st with nibbleBuffer := st1.nibbleBuffer } (lineLevel l2 p.rs) byte)
  ∧ ∀ (lvl : Vector Bool 256) (st : LcdState) (p : LcdPins), st.functionSet.bits = .eight →
      ∃ byte : Byte, latch lvl st p = applyByte st (lineLevel lvl p.rs) byte
        ∧ ∀ k : Fin 8, byte.getLsbD k.val = lineLevel lvl p.db[k.val]

/-- R146, 30_encoding.md R66, R67: the byte an instance assembles from its pins does to it what the instruction its `LCD9` word
decodes to does: the bus path and the decoded path are one machine. The model's own choices: a data byte at a cursor outside
`V(lines)`, where no run goes, stops both with the fault of log 15; a byte for an id that names no LCD changes nothing (log 14). -/
def Obligations.AssembledByteRunsTheDecodedInstruction : Prop :=
  ∀ (rs : Bool) (byte : Byte) (s : State),
    (∀ st p, lcdAt s s.lcdSel = some (st, p) →
      (∀ st', applyByte st rs byte = some st' →
        exec (decodeLcd9 (lcd9Word rs byte)) s = .next { s with act := actSet s.lcdSel (.lcd st' p) s.act })
      ∧ (applyByte st rs byte = none → exec (decodeLcd9 (lcd9Word rs byte)) s = .fault .ddramAddress)
      ∧ (applyByte st rs byte = none ↔ rs = true ∧ validAddr st.functionSet.lines st.cursorAddr = false))
    ∧ (lcdAt s s.lcdSel = none → exec (decodeLcd9 (lcd9Word rs byte)) s = .next s)

/-- R142: `GPIO.WR` to a port in range keeps the value and performs `PIN.CHG` for the changed bits that drive a pin, in increasing bit
order; a port out of range changes nothing. -/
def Obligations.PortWriteIsItsPinChanges : Prop :=
  ∀ (port : BitVec 8) (v : Byte) (s : State), s.src = .stepLoop →
    (port.toNat < s.cfg.nports →
      exec (.gpioWr port v) s =
        execAll (changedPins s.cfg port.toNat (portRead s port.toNat) v) (portWrite s port.toNat v))
    ∧ (s.cfg.nports ≤ port.toNat → exec (.gpioWr port v) s = .next s)

/-- R142, 10_state.md R34: from a state that meets the invariant `GPIO.WR` completes; the port reads the value, every other port byte
reads as before, and besides ports only pin levels and LCD instances may change. -/
def Obligations.PortWriteCompletes : Prop :=
  ∀ (port : BitVec 8) (v : Byte) (s : State), s.src = .stepLoop → MachineInv s → port.toNat < s.cfg.nports →
    ∃ t, exec (.gpioWr port v) s = .next t
      ∧ portRead t port.toNat = v
      ∧ (∀ k, k ≠ port.toNat → portRead t k = portRead s k)
      ∧ t = { s with port := t.port, pinlvl := t.pinlvl, act := t.act }
      ∧ ∀ id sv, servoAt s id = some sv → servoAt t id = some sv

/-- R143: `LCD.PINMAP` binds one line of an LCD and nothing else; a role above 9, or an id that names no LCD, changes nothing. -/
def Obligations.PinmapBindsOneLine : Prop :=
  ∀ (role : LcdRole) (id : InstanceId) (pin : Pin) (s : State), s.src = .host →
    (∀ st p, lcdAt s id = some (st, p) → ∃ t p', exec (.lcdPinmap role id pin) s = .next t
      ∧ t = { s with act := t.act }
      ∧ (∀ k, actFind k t.act = if k = id then some (.lcd st p') else actFind k s.act)
      ∧ p'.rs = (if role = .rs then some pin else p.rs)
      ∧ p'.en = (if role = .en then some pin else p.en)
      ∧ ∀ k : Fin 8, p'.db[k.val] = if role = .db k then some pin else p.db[k.val])
    ∧ (lcdAt s id = none → exec (.lcdPinmap role id pin) s = .next s)
    ∧ (∀ r, exec (.lcdPinmap (.reserved r) id pin) s = .next s)

/-- R147 to R150: `LCD.CLEAR` makes every cell read 0x20 and homes the cursor; `LCD.HOME` homes the cursor; `LCD.ENTRY` and
`LCD.DISPCTL` set the entry mode and the display bits as the command's bits say. Nothing else changes: no cell under the last three,
no other instance, no other memory. -/
def Obligations.ClearHomeEntryAndDisplay : Prop :=
  ∀ (s : State) (st : LcdState) (p : LcdPins) (d c b sh : Bool), lcdAt s s.lcdSel = some (st, p) →
    (∃ t st', exec .lcdClear s = .next t ∧ t = { s with act := t.act }
      ∧ (∀ k, actFind k t.act = if k = s.lcdSel then some (.lcd st' p) else actFind k s.act)
      ∧ (∀ k, cellRead blankCell st'.ddram k = 0x20)
      ∧ st' = { st with ddram := st'.ddram, cursorAddr := 0 })
    ∧ (∃ t, exec .lcdHome s = .next t ∧ t = { s with act := t.act }
      ∧ ∀ k, actFind k t.act = if k = s.lcdSel then some (.lcd { st with cursorAddr := 0 } p) else actFind k s.act)
    ∧ (∃ t, exec (.lcdEntry d sh) s = .next t ∧ t = { s with act := t.act }
      ∧ ∀ k, actFind k t.act =
          if k = s.lcdSel then
            some (.lcd { st with entryMode := { direction := if d = true then .increment else .decrement
                                                shiftDisplay := sh } } p)
          else actFind k s.act)
    ∧ (∃ t, exec (.lcdDispctl d c b) s = .next t ∧ t = { s with act := t.act }
      ∧ ∀ k, actFind k t.act =
          if k = s.lcdSel then some (.lcd { st with displayOn := d, cursorOn := c, blinkOn := b } p)
          else actFind k s.act)

/-- R152: `LCD.FUNCSET` sets the width, the lines and the font, restarts the nibble machine, and re-homes a cursor the new geometry
makes invalid; no cell changes. -/
def Obligations.FunctionSetResult : Prop :=
  ∀ (s : State) (st : LcdState) (p : LcdPins) (l n f : Bool), lcdAt s s.lcdSel = some (st, p) →
    ∃ t st', exec (.lcdFuncset l n f) s = .next t ∧ t = { s with act := t.act }
      ∧ (∀ k, actFind k t.act = if k = s.lcdSel then some (.lcd st' p) else actFind k s.act)
      ∧ st'.functionSet = { bits := if l = true then .eight else .four, lines := if n = true then .two else .one
                            font := if f = true then .f5x10 else .f5x8 }
      ∧ st'.awaitingLowNibble = false
      ∧ (n = true →
          ((st.cursorAddr.toNat ≤ 0x27 ∨ (0x40 ≤ st.cursorAddr.toNat ∧ st.cursorAddr.toNat ≤ 0x67)) →
            st'.cursorAddr = st.cursorAddr)
          ∧ (((0x28 ≤ st.cursorAddr.toNat ∧ st.cursorAddr.toNat ≤ 0x3F) ∨ 0x68 ≤ st.cursorAddr.toNat) →
            st'.cursorAddr = 0))
      ∧ (n = false → st'.cursorAddr = if st.cursorAddr.toNat ≤ 0x4F then st.cursorAddr else 0)
      ∧ st' = { st with functionSet := st'.functionSet, awaitingLowNibble := false, cursorAddr := st'.cursorAddr }

/-- R151, R153, R155: `LCD.NOP`, `LCD.SHIFT` and `LCD.SETCGRAM` change nothing the spec gives the machine: the last two only leave the
model's own marks (log 12). -/
def Obligations.NopShiftAndSetCgramChangeNothing : Prop :=
  ∀ (s : State) (st : LcdState) (p : LcdPins) (sc rl : Bool) (a : BitVec 6), lcdAt s s.lcdSel = some (st, p) →
    exec .lcdNop s = .next s
    ∧ (∃ t, exec (.lcdShift sc rl) s = .next t ∧ t = { s with act := t.act }
      ∧ ∀ k, actFind k t.act =
          if k = s.lcdSel then some (.lcd { st with outsideSpec := true } p) else actFind k s.act)
    ∧ (∃ t, exec (.lcdSetcgram a) s = .next t ∧ t = { s with act := t.act }
      ∧ ∀ k, actFind k t.act =
          if k = s.lcdSel then some (.lcd { st with cgramLast := true } p) else actFind k s.act)

/-- R154, 20_memory.md R42: `LCD.SETDDRAM` moves the cursor to a valid address and ignores any other; no cell changes. Nothing is
said of the model's own mark `cgramLast` (log 12). -/
def Obligations.SetDdramMovesTheCursor : Prop :=
  ∀ (s : State) (st : LcdState) (p : LcdPins) (a : BitVec 7), lcdAt s s.lcdSel = some (st, p) →
    ∃ t st', exec (.lcdSetddram a) s = .next t ∧ t = { s with act := t.act }
      ∧ (∀ k, actFind k t.act = if k = s.lcdSel then some (.lcd st' p) else actFind k s.act)
      ∧ st' = { st with cursorAddr := st'.cursorAddr, cgramLast := st'.cgramLast }
      ∧ st'.cursorAddr.toNat =
          (match st.functionSet.lines with
          | .two =>
            if a.toNat ≤ 0x27 ∨ (0x40 ≤ a.toNat ∧ a.toNat ≤ 0x67) then a.toNat else st.cursorAddr.toNat
          | .one => if a.toNat ≤ 0x4F then a.toNat else st.cursorAddr.toNat)

/-- R156, R157, 20_memory.md R41, R42: `LCD.DATA` at a valid cursor writes the byte into the cursor's cell, leaves every other cell,
and advances the cursor as the entry mode says. After an `LCD.SETCGRAM` with no `LCD.SETDDRAM` between (`cgramLast`), where R153
says a model must refuse to give the write a meaning, that it is the same and leaves the mark `outsideSpec` is the model's choice
(log 12). -/
def Obligations.DataWritesOneCellAndAdvances : Prop :=
  ∀ (b : Byte) (s : State) (st : LcdState) (p : LcdPins) (k : Nat), lcdAt s s.lcdSel = some (st, p) → LcdOk st →
    cellIndex st.functionSet.lines st.cursorAddr = some k →
    ∃ t st', exec (.lcdData b) s = .next t ∧ t = { s with act := t.act }
      ∧ (∀ j, actFind j t.act = if j = s.lcdSel then some (.lcd st' p) else actFind j s.act)
      ∧ cellRead blankCell st'.ddram k = b
      ∧ (∀ j, j ≠ k → cellRead blankCell st'.ddram j = cellRead blankCell st.ddram j)
      ∧ st'.cursorAddr = nextAddr st.cursorAddr st.entryMode.direction st.functionSet.lines
      ∧ st' = { st with
          ddram := st'.ddram, cursorAddr := st'.cursorAddr, outsideSpec := st.outsideSpec || st.cgramLast }

/-- R157, 20_memory.md R42: the cursor advance stays in `V(lines)`, and running it all round visits each of the 80 cells: incrementing
adds 1 to the cell index modulo 80, decrementing takes 1 from it. -/
def Obligations.CursorAdvanceWalksTheCells : Prop :=
  ∀ (lines : Lines) (a : BitVec 8) (k : Nat), cellIndex lines a = some k →
    k < 80
    ∧ cellIndex lines (nextAddr a .increment lines) = some ((k + 1) % 80)
    ∧ cellIndex lines (nextAddr a .decrement lines) = some ((k + 79) % 80)

/-- 70_reset_and_hazards.md R212: the customary bring-up works from either bus width and from a lost nibble. Whatever an LCD wired for
4-bit mode (DB3 to DB0 unbound) was doing, after `lcd_begin4` it is in 4-bit two-line 5x8 mode at AwaitHighNibble, display on, cursor and blink off,
entry mode increment without shift, every cell 0x20 and the cursor at 0. -/
def Obligations.BeginSequenceSynchronisesTheLcd : Prop :=
  ∀ (s : State) (id : InstanceId) (st : LcdState) (p : LcdPins) (rs en d7 d6 d5 d4 : Pin),
    MachineInv s → s.src = .stepLoop → lcdAt s id = some (st, p) → FourBitWired p rs en d7 d6 d5 d4 →
    ∃ t st', execAll (lcdBegin4 p) s = .next t ∧ lcdAt t id = some (st', p)
      ∧ st'.functionSet = { bits := .four, lines := .two, font := .f5x8 }
      ∧ st'.awaitingLowNibble = false
      ∧ st'.displayOn = true ∧ st'.cursorOn = false ∧ st'.blinkOn = false
      ∧ st'.entryMode = { direction := .increment, shiftDisplay := false }
      ∧ (∀ k, cellRead blankCell st'.ddram k = 0x20)
      ∧ st'.cursorAddr = 0

/-! ### Host operations and reset -/

/-- 46_step_loop_and_host.md R173, with the values of 10_state.md R27, R29: attaching under a free id creates the instance with its
creation values, those of a servo rounded as they are stored (44_servo.md R130; that creation rounds is deduced, log 20), and
registers a servo on its pin; an id in use, or a kind other than Servo and Lcd, changes nothing. Nothing is said of the model's own two marks (log 12). -/
def Obligations.AttachCreatesTheInstance : Prop :=
  ∀ (pin : Pin) (id : InstanceId) (s : State), s.src = .host →
    (actFind id s.act = none → ∃ t sv, exec (.actAttach pin .servo id) s = .next t
      ∧ t = { s with act := t.act, registry := t.registry }
      ∧ (∀ k, actFind k t.act = if k = id then some (.servo sv) else actFind k s.act)
      ∧ (∀ e, e ∈ t.registry ↔ e = (pin, id) ∨ e ∈ s.registry)
      ∧ sv = { instanceId := id, pin := pin
               currentAngleDeg := round32 s.cfg.rnd32 s.cfg.servoInitAngle
               targetAngleDeg := round32 s.cfg.rnd32 s.cfg.servoInitAngle
               angularSpeedDegPerS := round32 s.cfg.rnd32 s.cfg.servoSpeed
               maxTorque := s.cfg.servoMaxTorque, isStalled := false
               deadbandDeg := round32 s.cfg.rnd32 s.cfg.servoDeadband
               pulseStartTimeUs := none, lastAnimationTickWallclock := round64 s.cfg.rnd64 0 })
    ∧ (actFind id s.act = none → ∃ t st p, exec (.actAttach pin .lcd id) s = .next t
      ∧ t = { s with act := t.act }
      ∧ (∀ k, actFind k t.act = if k = id then some (.lcd st p) else actFind k s.act)
      ∧ (∀ k, cellRead blankCell st.ddram k = 0x20)
      ∧ st = { ddram := st.ddram, cursorAddr := 0, entryMode := { direction := .increment, shiftDisplay := false }
               displayOn := false, cursorOn := false, blinkOn := false, nibbleBuffer := 0, awaitingLowNibble := false
               functionSet := { bits := s.cfg.lcdResetBits, lines := .one, font := .f5x8 }
               cgramLast := st.cgramLast, outsideSpec := st.outsideSpec }
      ∧ p.rs = none ∧ p.en = none ∧ ∀ k : Fin 8, p.db[k.val] = none)
    ∧ (∀ kind, actFind id s.act ≠ none → exec (.actAttach pin kind id) s = .next s)
    ∧ (∀ k, exec (.actAttach pin (.reserved k) id) s = .next s)

/-- R174: detaching removes the instance and every registration of its id, and touches no other instance or registration. -/
def Obligations.DetachRemovesTheInstance : Prop :=
  ∀ (id : InstanceId) (s : State), s.src = .host → ∃ t, exec (.actDetach id) s = .next t
    ∧ t = { s with act := t.act, registry := t.registry }
    ∧ (∀ k, actFind k t.act = if k = id then none else actFind k s.act)
    ∧ ∀ e, e ∈ t.registry ↔ e ∈ s.registry ∧ e.2 ≠ id

/-- R175: `LCD.GETBUF` returns 32 bytes, cells 0 to 15 and then cells 40 to 55, and changes nothing else; 32 bytes of 0x20 for an id
that names no LCD. The buffer does not depend on `shift_display`; of what the window shows while that is set nothing is said (R149,
log 12). -/
def Obligations.GetbufReturnsTheVisibleCells : Prop :=
  ∀ (id : InstanceId) (s : State), s.src = .host →
    (∀ st p, lcdAt s id = some (st, p) → ∃ buf : List Byte,
      exec (.lcdGetbuf id) s = .next { s with resp := .bytes buf }
      ∧ buf.length = 32
      ∧ ∀ col, col < 16 →
          buf[col]? = some (cellRead blankCell st.ddram col)
          ∧ buf[16 + col]? = some (cellRead blankCell st.ddram (40 + col)))
    ∧ (lcdAt s id = none → exec (.lcdGetbuf id) s = .next { s with resp := .bytes (List.replicate 32 0x20) })

/-- 70_reset_and_hazards.md R207, R208: `SYS.RESET` sets clock, timers, residues, enables, controller, pin levels and port shadows,
silently, and
keeps registry, instances and trace. Nothing is said of the CPU surface (log 5). -/
def Obligations.SysResetKeepsTheCircuit : Prop :=
  ∀ s : State, s.src = .host → ∃ t, exec .sysReset s = .next t
    ∧ t.cpuCycles = 0
    ∧ t.t0 = { counter := 0, top := 0, compareA := 0, compareB := 0, prescaler := s.cfg.presc0Reset
               overflowFlag := false, initialized := false }
    ∧ t.t1 = { counter := 0, top := 0, compareA := 0, compareB := 0, prescaler := s.cfg.presc1Reset
               overflowFlag := false, initialized := false }
    ∧ t.prescCnt0 = 0 ∧ t.prescCnt1 = 0 ∧ t.inten = 0
    ∧ t.int = { icState := .idle, pending := [], seqNext := 0 }
    ∧ (∀ pin, levelOf t.pinlvl pin = false)
    ∧ (∀ k, portRead t k = 0)
    ∧ t = { s with
        cpuCycles := t.cpuCycles, t0 := t.t0, t1 := t.t1, prescCnt0 := t.prescCnt0, prescCnt1 := t.prescCnt1
        inten := t.inten, int := t.int, pinlvl := t.pinlvl, port := t.port, cpu := t.cpu }

/-- R206, 10_state.md R39: after POR clock, timers, residues, enables, controller, registry, actuator table, pin levels, port shadows
and trace are as the rule says, whatever the open parameters are; State.reset is one such state. -/
def Obligations.PowerOnValues : Prop :=
  ∀ cfg : Config,
    let s := powerOn cfg
    s.cpuCycles = 0
    ∧ (∀ n, timer s n = { counter := 0, top := 0, compareA := 0, compareB := 0, prescaler := prescReset cfg n
                          overflowFlag := false, initialized := false })
    ∧ (∀ n, residue s n = 0) ∧ s.inten = 0
    ∧ s.int = { icState := .idle, pending := [], seqNext := 0 }
    ∧ s.registry = [] ∧ s.act = [] ∧ s.out = []
    ∧ (∀ pin, levelOf s.pinlvl pin = false)
    ∧ ∀ k, portRead s k = 0

/-- 10_state.md R13 to R17, R22, R23, R28, R32, R39: the invariant holds at POR, whatever the open parameters are, so at State.reset. -/
def Obligations.InvariantHoldsAtPowerOn : Prop :=
  ∀ cfg : Config, MachineInv (powerOn cfg)

/-- 10_state.md R13 to R17, R22 to R28, R32, 20_memory.md R41: from every state that meets the invariant, every step that goes on
keeps it: counters below their natural TOP, residues below their prescalers, `initialized` as `top` says, the controller Idle with
rising sequence numbers, servo targets in range, cursors valid, every memory in canonical form. -/
def Obligations.EveryStepKeepsTheInvariant : Prop :=
  ∀ s t : State, MachineInv s → step s = .next t → MachineInv t

/-- 60_exceptions.md R185, R191: from every state that meets the invariant no step faults, and only the two cases the spec leaves
without a result are refused: `CLK.TICK` past 2^64 and `INT.RETI` with nothing saved. -/
def Obligations.OnlyTheTwoUndefinedCasesStop : Prop :=
  ∀ s : State, MachineInv s →
    (∃ t, step s = .next t)
    ∨ (∃ rest w c, s.cmds = .cmd .stepLoop w :: rest ∧ decodeCmd80 w = .ok (.clkTick c)
        ∧ 2 ^ 64 ≤ s.cpuCycles.toNat + c.toNat ∧ step s = .refused .clockOverflow)
    ∨ (∃ rest w, s.cmds = .cmd .stepLoop w :: rest ∧ decodeCmd80 w = .ok .intReti
        ∧ s.cpu.rstack = [] ∧ step s = .refused .retiEmptyStack)

/-- 10_state.md R10, R36: the open parameters never change and the trace is only ever appended to. -/
def Obligations.ParametersStayAndTraceGrows : Prop :=
  ∀ s t : State, step s = .next t → t.cfg = s.cfg ∧ s.out <+: t.out

/-! ### The step loop -/

/-- 46_step_loop_and_host.md R170, R172: a `STEP` issued on an empty port runs as its operations one after another in the order of the
rule, one per step of the machine; the port is empty again at the end. The same of every interleaving of `STEP`s with operations of
the host and of the step loop between them: it runs turn by turn, and nothing of the host comes inside a `STEP`. The port as a queue of words, one taken
by each step of the machine, is the model's choice (log 1), and so is which operations of the step loop may stand between `STEP`s
(`Turn.loop`, `outsideStep`; log 26). -/
def Obligations.StepRunsInTheFixedOrder : Prop :=
  (∀ (w : List WItem) (c : BitVec 32) (g : List (BitVec 8 × Byte)) (s t : State),
    s.cmds = [] → (∀ i v, WItem.regWr i v ∈ w → i.wf = true) →
    execAll (w.map itemOp ++ [.clkTick c, .t0Tick c, .t1Tick c, .intPoll] ++ g.map fun e => .gpioWr e.1 e.2)
      { s with src := .stepLoop } = .next t →
    ∃ r, Host.Core.run Sys2Proof.core (w.length + 4 + g.length) (issue .stepLoop (stepOps w c g) s)
      = .next { t with resp := r })
  ∧ ∀ (turns : List Turn) (s t : State), s.cmds = [] → (∀ u ∈ turns, turnOk u = true) → execTurns turns s = .next t →
    ∃ r, Host.Core.run Sys2Proof.core (schedule turns).length { s with cmds := schedule turns }
      = .next { t with resp := r }

/-- R170, R171, 42_interrupt_controller.md R112, R113, R115: in a `STEP` with `CPU.I` set whose one item is a request, the poll comes
after that request and after those of the two ticks, and takes the entry R112 selects from all that is then pending: it leaves the
queue, `PC` is pushed and becomes its vector, `CPU.I` is cleared, and nothing else changes. So the request of the `STEP` is itself
dispatched by that `STEP` when no entry pending at its poll has a lower vector or, with the same vector, came earlier. -/
def Obligations.StepDispatchesAtItsEnd : Prop :=
  ∀ (c : BitVec 32) (v : BitVec 16) (s : State), s.src = .stepLoop → s.cpu.i = true →
    s.cpuCycles.toNat + c.toNat < 2 ^ 64 →
    ∃ (u t : State) (reqs0 reqs1 : List Pending) (e : Pending),
      let own : Pending := { vectorAddress := v, priorityOrder := s.int.seqNext }
      execAll [.intReq v true, .clkTick c, .t0Tick c, .t1Tick c] s = .next u
      ∧ u.int.pending = s.int.pending ++ [own] ++ reqs0 ++ reqs1
      ∧ (∀ x ∈ reqs0, x.vectorAddress = s.cfg.vecT0Ovf ∧ s.int.seqNext < x.priorityOrder)
      ∧ (∀ x ∈ reqs1, x.vectorAddress = s.cfg.vecT1Ovf ∧ s.int.seqNext < x.priorityOrder)
      ∧ u.cpuCycles.toNat = s.cpuCycles.toNat + c.toNat
      ∧ e ∈ u.int.pending
      ∧ (∀ x ∈ u.int.pending, e.vectorAddress.toNat < x.vectorAddress.toNat
          ∨ (e.vectorAddress = x.vectorAddress ∧ e.priorityOrder ≤ x.priorityOrder))
      ∧ execAll (stepOps [.intReq v true] c []) s = .next t
      ∧ t = { u with
          int := { u.int with icState := .idle, pending := u.int.pending.erase e }
          cpu := { pc := e.vectorAddress, i := false, rstack := s.cpu.pc :: s.cpu.rstack } }
      ∧ ((∀ x ∈ u.int.pending, v.toNat < x.vectorAddress.toNat
            ∨ (v = x.vectorAddress ∧ s.int.seqNext ≤ x.priorityOrder)) → e = own)
end

