-- ==== Sys2Proof/Laws/Arith.lean ====
section
/-! SUPPORT. The rational operations of Machine/Operands.lean in the library's terms, and the two roundings. -/

namespace Sys2Proof.Machine

open Sys2Proof

theorem absQ_eq (x : Rat) : absQ x = |x| := by
  unfold absQ
  split_ifs with h
  · exact (abs_of_neg h).symm
  · exact (abs_of_nonneg (not_lt.mp h)).symm

theorem minQ_eq (x y : Rat) : minQ x y = min x y := by
  unfold minQ
  split_ifs with h
  · exact (min_eq_left h).symm
  · exact (min_eq_right (not_le.mp h).le).symm

theorem clampQ_eq (x lo hi : Rat) (h : lo ≤ hi) : clampQ x lo hi = max lo (min hi x) := by
  unfold clampQ
  split_ifs with h1 h2
  · rw [min_eq_right (h1.le.trans h), max_eq_left h1.le]
  · rw [min_eq_left h2.le, max_eq_right h]
  · rw [min_eq_right (not_lt.mp h2), max_eq_right (not_lt.mp h1)]

theorem signQ_mul_absQ (x : Rat) : signQ x * |x| = x := by
  unfold signQ
  split_ifs with h1 h2
  · rw [abs_of_neg h1]; ring
  · rw [h2]; simp
  · rw [abs_of_pos (lt_of_le_of_ne (not_lt.mp h1) (Ne.symm h2))]; ring

/-- The decode function with the library's minimum and maximum. -/
theorem pulseWidthToAngle_eq (w : Nat) :
    pulseWidthToAngle w = max 0 (min 180 (((w : Rat) - 1000) / 1000 * 180)) := by
  unfold pulseWidthToAngle
  rw [clampQ_eq _ _ _ (by positivity)]
  norm_num [minPulseUs, maxPulseUs, angleMaxDeg]

/-- A decoded angle is in range. -/
theorem pulseWidthToAngle_range (w : Nat) : 0 ≤ pulseWidthToAngle w ∧ pulseWidthToAngle w ≤ 180 := by
  rw [pulseWidthToAngle_eq]
  exact ⟨le_max_left .., max_le (by norm_num) (min_le_left ..)⟩

@[simp] theorem round32_identity (q : Rat) : round32 .identity q = q := rfl

@[simp] theorem round64_identity (q : Rat) : round64 .identity q = q := rfl

/-- `RND64` does not decrease, whatever it is (40_clock.md R86, log 8). -/
theorem round64_mono (r : Rounding) : Monotone (round64 r) := by
  cases r with
  | identity => exact monotone_id
  | other k => exact (openRounding64 k).monotone

end Sys2Proof.Machine
end

