-- ==== Sys2Proof/Laws/Binary64.lean ====
section
/-! SUPPORT. The binary64 patterns of Machine/Operands.lean: their magnitudes rise with their bits, and what the pattern driven for
a rational can be. -/

namespace Sys2Proof.Machine

open Sys2Proof

/-- The next magnitude bits stand for a greater magnitude. -/
theorem magnitudeUnits_succ (x : Nat) : magnitudeUnits x < magnitudeUnits (x + 1) := by
  unfold magnitudeUnits
  have hx := Nat.div_add_mod x (2 ^ 52)
  have hlt := Nat.mod_lt x (show 0 < 2 ^ 52 by norm_num)
  generalize x / 2 ^ 52 = e at *
  generalize x % 2 ^ 52 = f at *
  subst hx
  by_cases h : f + 1 < 2 ^ 52
  · have h1 : (2 ^ 52 * e + f + 1) / 2 ^ 52 = e := by omega
    have h2 : (2 ^ 52 * e + f + 1) % 2 ^ 52 = f + 1 := by omega
    rw [h1, h2]
    split_ifs with he
    · omega
    · exact Nat.mul_lt_mul_of_pos_right (by omega) (by positivity)
  · have h1 : (2 ^ 52 * e + f + 1) / 2 ^ 52 = e + 1 := by omega
    have h2 : (2 ^ 52 * e + f + 1) % 2 ^ 52 = 0 := by omega
    rw [h1, h2, if_neg (Nat.succ_ne_zero e), Nat.add_sub_cancel]
    split_ifs with he
    · subst he; omega
    · obtain ⟨k, rfl⟩ := Nat.exists_eq_succ_of_ne_zero he
      calc (2 ^ 52 + f) * 2 ^ (k.succ - 1) < (2 ^ 52 * 2) * 2 ^ k :=
            Nat.mul_lt_mul_of_pos_right (by omega) (by positivity)
        _ = (2 ^ 52 + 0) * 2 ^ k.succ := by rw [Nat.add_zero, Nat.mul_assoc, ← Nat.pow_succ']

theorem magnitudeUnits_strictMono : StrictMono magnitudeUnits := strictMono_nat_of_lt_succ magnitudeUnits_succ

theorem magnitudeOf_strictMono : StrictMono magnitudeOf := fun x y h => by
  unfold magnitudeOf
  have : (magnitudeUnits x : Rat) < magnitudeUnits y := by exact_mod_cast magnitudeUnits_strictMono h
  gcongr

@[simp] theorem magnitudeOf_zero : magnitudeOf 0 = 0 := by
  unfold magnitudeOf
  rw [show magnitudeUnits 0 = 0 from rfl, Nat.cast_zero, zero_div]

theorem magnitudeOf_nonneg (x : Nat) : 0 ≤ magnitudeOf x := by unfold magnitudeOf; positivity

/-- Bits that fit, in the rationals. -/
theorem bitsFit_iff (n d x : Nat) (hd : 0 < d) :
    bitsFit n d x = true ↔ x < infinityBits ∧ magnitudeOf x ≤ (n : Rat) / d := by
  unfold bitsFit magnitudeOf
  rw [Bool.and_eq_true, decide_eq_true_iff, decide_eq_true_iff,
    div_le_div_iff₀ (by positivity) (by positivity)]
  exact and_congr_right fun _ => by exact_mod_cast Iff.rfl

/-- The search ends at bits that fit, and no greater ones do. -/
theorem greatestBits_spec (n d : Nat) : ∀ (b x : Nat), bitsFit n d x = true →
    (∀ y, x + 2 ^ b ≤ y → bitsFit n d y = false) →
    bitsFit n d (greatestBits n d b x) = true ∧ ∀ y, greatestBits n d b x < y → bitsFit n d y = false
  | 0, x, h, hy => ⟨h, fun y hlt => hy y (by simpa [greatestBits] using hlt)⟩
  | b + 1, x, h, hy => by
    unfold greatestBits
    split_ifs with hb
    · exact greatestBits_spec n d b _ hb fun y hle => hy y (by rw [pow_succ]; omega)
    · refine greatestBits_spec n d b _ h fun y hle => ?_
      rw [Bool.not_eq_true] at hb
      rw [Bool.eq_false_iff] at hb ⊢
      intro hfit
      refine hb ?_
      unfold bitsFit at hfit ⊢
      rw [Bool.and_eq_true, decide_eq_true_iff, decide_eq_true_iff] at hfit ⊢
      exact ⟨hle.trans_lt hfit.1,
        (Nat.mul_le_mul_right d (magnitudeUnits_strictMono.monotone hle)).trans hfit.2⟩

/-- The bits of the greatest number whose magnitude is at most that of `q`. -/
theorem greatestBits_of_rat (q : Rat) :
    greatestBits q.num.natAbs q.den 63 0 < infinityBits
      ∧ magnitudeOf (greatestBits q.num.natAbs q.den 63 0) ≤ |q|
      ∧ ∀ y, y < infinityBits → magnitudeOf y ≤ |q| → y ≤ greatestBits q.num.natAbs q.den 63 0 := by
  have hq : |q| = (q.num.natAbs : Rat) / q.den := by
    conv_lhs => rw [← Rat.num_div_den q]
    rw [abs_div, Nat.abs_cast, Nat.cast_natAbs, Int.cast_abs]
  obtain ⟨h1, h2⟩ := greatestBits_spec q.num.natAbs q.den 63 0
    ((bitsFit_iff _ _ _ q.den_pos).mpr ⟨by decide, by rw [magnitudeOf_zero]; positivity⟩)
    (fun y hy => Bool.eq_false_iff.mpr fun h => by
      have := ((bitsFit_iff _ _ _ q.den_pos).mp h).1
      unfold infinityBits at this; omega)
  rw [bitsFit_iff _ _ _ q.den_pos, ← hq] at h1
  refine ⟨h1.1, h1.2, fun y hy hle => ?_⟩
  by_contra hc
  have := h2 y (by omega)
  rw [Bool.eq_false_iff, ne_eq, bitsFit_iff _ _ _ q.den_pos, ← hq] at this
  exact this ⟨hy, hle⟩

/-- What the magnitude bits driven for `q` can be: those of its magnitude, or where no bits have it, those on either side of it. -/
theorem magnitudeBits_cases (q : Rat) :
    ∃ x, x < infinityBits ∧ magnitudeOf x ≤ |q| ∧ (∀ y, y < infinityBits → magnitudeOf y ≤ |q| → y ≤ x)
      ∧ ((magnitudeOf x = |q| ∧ magnitudeBits q = x)
        ∨ (magnitudeOf x < |q| ∧ magnitudeBits q = if drivesNext q x then x + 1 else x)) := by
  have hspec := greatestBits_of_rat q
  have hq : |q| = (q.num.natAbs : Rat) / q.den := by
    conv_lhs => rw [← Rat.num_div_den q]
    rw [abs_div, Nat.abs_cast, Nat.cast_natAbs, Int.cast_abs]
  unfold magnitudeBits
  generalize greatestBits q.num.natAbs q.den 63 0 = x at *
  obtain ⟨h1, h2, h3⟩ := hspec
  have hexact : magnitudeUnits x * q.den = q.num.natAbs * 2 ^ 1074 ↔ magnitudeOf x = |q| := by
    unfold magnitudeOf
    rw [hq, div_eq_div_iff (by positivity) (by have := q.den_pos; positivity)]
    exact_mod_cast Iff.rfl
  refine ⟨x, h1, h2, h3, ?_⟩
  simp only [hexact]
  by_cases he : magnitudeOf x = |q|
  · exact .inl ⟨he, if_pos he⟩
  · exact .inr ⟨lt_of_le_of_ne h2 he, if_neg he⟩

/-- The value of a pattern built from a sign and magnitude bits. -/
theorem binary64Value_ofNat (neg : Bool) (x : Nat) (hx : x < 2 ^ 63) :
    binary64Value (BitVec.ofNat 64 ((if neg = true then 2 ^ 63 else 0) + x)) =
      if infinityBits ≤ x then none else some (if neg = true then -magnitudeOf x else magnitudeOf x) := by
  have h1 : ((BitVec.ofNat 64 ((if neg = true then 2 ^ 63 else 0) + x)).extractLsb' 0 63).toNat = x := by
    rw [BitVec.extractLsb'_toNat, BitVec.toNat_ofNat, Nat.shiftRight_zero]
    cases neg <;> simp <;> omega
  have h2 : (BitVec.ofNat 64 ((if neg = true then 2 ^ 63 else 0) + x)).getLsbD 63 = neg := by
    rw [BitVec.getLsbD_ofNat, Nat.testBit_eq_decide_div_mod_eq]
    cases neg <;> simp <;> omega
  unfold binary64Value
  simp only [h1, h2]

/-- The magnitude bits driven leave room for the sign. -/
theorem magnitudeBits_lt (q : Rat) : magnitudeBits q < 2 ^ 63 := by
  obtain ⟨x, h1, -, -, ⟨-, h⟩ | ⟨-, h⟩⟩ := magnitudeBits_cases q <;> rw [h]
  · unfold infinityBits at h1; omega
  · unfold infinityBits at h1; split_ifs <;> omega

/-- What the pattern driven for a rational other than 0 denotes. -/
theorem binary64Value_binary64Of (q : Rat) (hq : q ≠ 0) :
    binary64Value (binary64Of q) =
      if infinityBits ≤ magnitudeBits q then none
      else some (if q < 0 then -magnitudeOf (magnitudeBits q) else magnitudeOf (magnitudeBits q)) := by
  unfold binary64Of
  rw [if_neg hq]
  simpa using binary64Value_ofNat (decide (q < 0)) (magnitudeBits q) (magnitudeBits_lt q)

/-- The pattern driven for 0 is that of plus zero (log 7), which denotes 0. -/
theorem binary64Value_zero : binary64Of 0 = 0 ∧ binary64Value 0 = some 0 :=
  ⟨if_pos rfl, by simpa [infinityBits] using binary64Value_ofNat false 0 (by norm_num)⟩

end Sys2Proof.Machine
end

