-- ==== Sys2Proof/Laws/Cells.lean ====
section
/-! SUPPORT. The cell memories (DDRAM and PORT): read after write, and every memory operation keeps the canonical form. -/

namespace Sys2Proof.Machine

open Sys2Proof

/-- What a list in canonical form says of its cells. -/
theorem Memory.wf_iff (blank : Byte) (size : Nat) (m : List Host.Cell) :
    Memory.wf blank size m = true ↔
      m.Pairwise (fun x y => x.1 < y.1) ∧ ∀ c ∈ m, c.1 < size ∧ c.2 ≠ blank := by
  simp [Memory.wf]

@[simp] theorem Memory.wf_nil (blank : Byte) (size : Nat) : Memory.wf blank size [] = true := rfl

@[simp] theorem cellRead_nil (blank : Byte) (a : Nat) : cellRead blank [] a = blank := rfl

/-- A cell no entry names reads as the blank. -/
theorem cellRead_of_forall_ne (blank : Byte) (m : List Host.Cell) (a : Nat) (h : ∀ c ∈ m, c.1 ≠ a) :
    cellRead blank m a = blank := by
  induction m with
  | nil => rfl
  | cons c m ih =>
    obtain ⟨k, x⟩ := c
    have hk : k ≠ a := h (k, x) (by simp)
    simp [cellRead, hk, ih fun c hc => h c (by simp [hc])]

/-- Where the keys of a written list come from. -/
theorem mem_cellWrite (blank : Byte) (m : List Host.Cell) (a : Nat) (v : Byte) (c : Host.Cell)
    (h : c ∈ cellWrite blank m a v) : c ∈ m ∨ (c = (a, v) ∧ v ≠ blank) := by
  induction m with
  | nil => by_cases hv : v = blank <;> simp_all [cellWrite]
  | cons e m ih =>
    obtain ⟨k, x⟩ := e
    unfold cellWrite at h
    split_ifs at h with h1 h2 h3 h4 <;> simp only [List.mem_cons] at h ⊢
    · exact .inl h
    · rcases h with h | h | h
      · exact .inr ⟨h, h2⟩
      · exact .inl (.inl h)
      · exact .inl (.inr h)
    · exact .inl (.inr h)
    · rcases h with h | h
      · exact .inr ⟨h, h4⟩
      · exact .inl (.inr h)
    · rcases h with h | h
      · exact .inl (.inl h)
      · rcases ih h with h | h
        · exact .inl (.inr h)
        · exact .inr h

/-- A write keeps the canonical form. -/
theorem cellWrite_wf (blank : Byte) (size : Nat) (m : List Host.Cell) (a : Nat) (v : Byte)
    (hm : Memory.wf blank size m = true) (ha : a < size) : Memory.wf blank size (cellWrite blank m a v) = true := by
  rw [Memory.wf_iff] at hm ⊢
  refine ⟨?_, fun c hc => ?_⟩
  · obtain ⟨hp, -⟩ := hm
    induction m with
    | nil => by_cases hv : v = blank <;> simp [cellWrite, hv]
    | cons e m ih =>
      obtain ⟨k, x⟩ := e
      have hp' := List.pairwise_cons.mp hp
      unfold cellWrite
      split_ifs with h1 h2 h3 h4
      · exact hp
      · refine List.pairwise_cons.mpr ⟨fun c hc => ?_, hp⟩
        rcases List.mem_cons.mp hc with rfl | hc
        · exact h1
        · exact lt_trans h1 (hp'.1 c hc)
      · exact hp'.2
      · exact List.pairwise_cons.mpr ⟨fun c hc => by simpa [h3] using hp'.1 c hc, hp'.2⟩
      · refine List.pairwise_cons.mpr ⟨fun c hc => ?_, ih hp'.2⟩
        rcases mem_cellWrite blank m a v c hc with hc | ⟨rfl, -⟩
        · exact hp'.1 c hc
        · simp only; omega
  · rcases mem_cellWrite blank m a v c hc with hc | ⟨rfl, hv⟩
    · exact hm.2 c hc
    · exact ⟨ha, hv⟩

/-- Read after write: the written cell reads the value, every other cell as before. -/
theorem cellRead_cellWrite (blank : Byte) (m : List Host.Cell) (a b : Nat) (v : Byte)
    (hm : m.Pairwise fun x y => x.1 < y.1) :
    cellRead blank (cellWrite blank m a v) b = if b = a then v else cellRead blank m b := by
  induction m with
  | nil =>
    by_cases hv : v = blank
    · simp [cellWrite, hv]
    · by_cases hb : b = a
      · subst hb; simp [cellWrite, hv, cellRead]
      · have hb' : ¬ a = b := fun h => hb h.symm
        simp [cellWrite, hv, cellRead, hb, hb']
  | cons e m ih =>
    obtain ⟨k, x⟩ := e
    have hp := List.pairwise_cons.mp hm
    have hrest : ∀ c ∈ m, k < c.1 := fun c hc => hp.1 c hc
    by_cases hb : b = a
    · subst hb
      have ih' := ih hp.2
      simp only [if_true] at ih' ⊢
      unfold cellWrite
      split_ifs with h1 h2 h3 h4
      · rw [h2]
        refine cellRead_of_forall_ne _ _ _ fun c hc => ?_
        rcases List.mem_cons.mp hc with rfl | hc
        · simp only; omega
        · have := hrest c hc; omega
      · simp [cellRead]
      · rw [h4]
        refine cellRead_of_forall_ne _ _ _ fun c hc => ?_
        have := hrest c hc
        omega
      · simp [cellRead]
      · have hk : ¬ k = b := fun h => h3 h.symm
        simp only [cellRead, hk, if_false]
        exact ih'
    · have hb' : ¬ a = b := fun h => hb h.symm
      have ih' := ih hp.2
      rw [if_neg hb] at ih' ⊢
      unfold cellWrite
      split_ifs with h1 h2 h3 h4
      · rfl
      · simp [cellRead, hb']
      · subst h3; simp [cellRead, hb']
      · subst h3; simp [cellRead, hb']
      · simp only [cellRead, ih']

/-- A port write is read back, and leaves the other ports. -/
theorem portRead_portWrite (s : State) (size k j : Nat) (v : Byte) (h : Memory.wf blankPort size s.port = true) :
    portRead (portWrite s k v) j = if j = k then v else portRead s j :=
  cellRead_cellWrite blankPort s.port k j v ((Memory.wf_iff _ _ _).mp h).1

/-- A DDRAM cell index is below the size, in every geometry. -/
theorem cellIndex_lt (lines : Lines) (a : BitVec 8) (k : Nat) (h : cellIndex lines a = some k) : k < ddramSize := by
  unfold cellIndex at h
  unfold ddramSize
  split at h <;> split_ifs at h <;> simp only [Option.some.injEq] at h <;> omega

/-- `memWrite` answers exactly inside the geometry, writes the one cell, and keeps the rest of the instance. -/
theorem memWrite_eq_some (st st' : LcdState) (a : BitVec 8) (v : Byte) (h : memWrite st a v = some st') :
    ∃ k, cellIndex st.functionSet.lines a = some k ∧ st' = { st with ddram := cellWrite blankCell st.ddram k v } := by
  unfold memWrite at h
  cases hk : cellIndex st.functionSet.lines a with
  | none => simp [hk] at h
  | some k => exact ⟨k, rfl, by simpa [hk] using h.symm⟩

/-- A DDRAM write keeps the canonical form. -/
theorem memWrite_wf (st st' : LcdState) (a : BitVec 8) (v : Byte) (h : memWrite st a v = some st')
    (hw : Memory.wf blankCell ddramSize st.ddram = true) : Memory.wf blankCell ddramSize st'.ddram = true := by
  obtain ⟨k, hk, rfl⟩ := memWrite_eq_some st st' a v h
  exact cellWrite_wf _ _ _ _ _ hw (cellIndex_lt _ _ _ hk)

/-- A DDRAM write is read back through `memRead`. -/
theorem memRead_memWrite (st st' : LcdState) (a : BitVec 8) (v : Byte) (h : memWrite st a v = some st')
    (hw : Memory.wf blankCell ddramSize st.ddram = true) : memRead st' a = some v := by
  obtain ⟨k, hk, rfl⟩ := memWrite_eq_some st st' a v h
  simp [memRead, hk, cellRead_cellWrite _ _ _ _ _ ((Memory.wf_iff _ _ _).mp hw).1]

end Sys2Proof.Machine
end

