-- ==== Sys2Proof/Laws/Decode.lean ====
section
/-! SUPPORT. The fields of a command word and the codes of registers, roles and kinds, both ways. -/

namespace Sys2Proof

theorem extractLsb'_append_high {n m : Nat} (x : BitVec n) (y : BitVec m) : (x ++ y).extractLsb' m n = x := by
  ext i h
  simp only [BitVec.getElem_extractLsb', BitVec.getLsbD_append, show ¬ m + i < m by omega, if_false]
  simp [h]

theorem extractLsb'_append_low {n m : Nat} (k l : Nat) (x : BitVec n) (y : BitVec m) (h : k + l ≤ m) :
    (x ++ y).extractLsb' k l = y.extractLsb' k l := by
  ext i hi
  simp [BitVec.getLsbD_append, show k + i < m by omega]

@[simp] theorem opField_cmdWord (op a : BitVec 8) (d : BitVec 64) : opField (cmdWord op a d) = op :=
  extractLsb'_append_high (m := 72) op (a ++ d)

@[simp] theorem aField_cmdWord (op a : BitVec 8) (d : BitVec 64) : aField (cmdWord op a d) = a :=
  (extractLsb'_append_low 64 8 op (a ++ d) (by decide)).trans (extractLsb'_append_high a d)

@[simp] theorem dField_cmdWord (op a : BitVec 8) (d : BitVec 64) : dField (cmdWord op a d) = d :=
  ((extractLsb'_append_low 0 64 op (a ++ d) (by decide)).trans (extractLsb'_append_low 0 64 a d (by decide))).trans
    BitVec.extractLsb'_eq_self

/-- A command word decodes by its fields. -/
@[simp] theorem decodeCmd80_cmdWord (op a : BitVec 8) (d : BitVec 64) :
    decodeCmd80 (cmdWord op a d) = decodeFields op a d := by
  simp [decodeCmd80]

@[simp] theorem dLow32_setWidth (c : BitVec 32) : dLow32 (c.setWidth 64) = c := by
  unfold dLow32; ext i hi; simp [hi]; omega

@[simp] theorem dLow16_dOf16 (v : BitVec 16) : dLow16 (dOf16 v) = v := by
  unfold dLow16 dOf16; ext i hi; simp [hi]; omega

@[simp] theorem dLow32_append (hi lo : BitVec 32) : dLow32 (hi ++ lo) = lo :=
  (extractLsb'_append_low 0 32 hi lo (by decide)).trans BitVec.extractLsb'_eq_self

@[simp] theorem dHigh32_append (hi lo : BitVec 32) : dHigh32 (hi ++ lo) = hi := extractLsb'_append_high hi lo

@[simp] theorem dLow16_dOfByte2 (b : BitVec 8) (v : BitVec 16) : dLow16 (dOfByte2 b v) = v := by
  unfold dLow16 dOfByte2
  ext i hi
  simp only [BitVec.getElem_extractLsb', BitVec.getLsbD_setWidth, BitVec.getLsbD_append]
  simp [hi, show i < 64 by omega]

@[simp] theorem dByte2_dOfByte2 (b : BitVec 8) (v : BitVec 16) : dByte2 (dOfByte2 b v) = b := by
  unfold dByte2 dOfByte2
  ext i hi
  simp only [BitVec.getElem_extractLsb', BitVec.getLsbD_setWidth, BitVec.getLsbD_append]
  simp [hi, show 16 + i < 64 by omega]

@[simp] theorem flagByte_getElem (b : Bool) : (flagByte b)[0] = b := by cases b <;> rfl

/-- A register's index reads back as the register, unless a named index is called reserved. -/
theorem regOfIndex_indexOfReg (r : Reg) (h : r.wf = true) : regOfIndex (indexOfReg r) = r := by
  cases r with
  | reserved i => revert h; revert i; decide
  | _ => rfl

theorem regOfIndex_wf (i : BitVec 8) : (regOfIndex i).wf = true := by revert i; decide

theorem roleOfNumber_numberOfRole (r : LcdRole) (h : r.wf = true) : roleOfNumber (numberOfRole r) = r := by
  cases r with
  | reserved k => revert h; revert k; decide
  | db l => revert l; decide
  | _ => rfl

theorem roleOfNumber_wf (k : BitVec 8) : (roleOfNumber k).wf = true := by revert k; decide

theorem kindOfNumber_numberOfKind (k : ActKind) (h : k.wf = true) : kindOfNumber (numberOfKind k) = k := by
  cases k with
  | reserved k => revert h; revert k; decide
  | _ => rfl

theorem kindOfNumber_wf (k : BitVec 8) : (kindOfNumber k).wf = true := by revert k; decide

end Sys2Proof
end

