-- ==== Sys2Proof/Laws/State.lean ====
section
/-! SUPPORT. One lemma per field for each update of the state, so that no proof unfolds one. -/

namespace Sys2Proof.Machine

open Sys2Proof

/-! ### `emit` -/

@[simp] theorem emit_cfg (s : State) (e : Event) : (emit s e).cfg = s.cfg := rfl
@[simp] theorem emit_cmds (s : State) (e : Event) : (emit s e).cmds = s.cmds := rfl
@[simp] theorem emit_src (s : State) (e : Event) : (emit s e).src = s.src := rfl
@[simp] theorem emit_lcdSel (s : State) (e : Event) : (emit s e).lcdSel = s.lcdSel := rfl
@[simp] theorem emit_resp (s : State) (e : Event) : (emit s e).resp = s.resp := rfl
@[simp] theorem emit_cpuCycles (s : State) (e : Event) : (emit s e).cpuCycles = s.cpuCycles := rfl
@[simp] theorem emit_t0 (s : State) (e : Event) : (emit s e).t0 = s.t0 := rfl
@[simp] theorem emit_t1 (s : State) (e : Event) : (emit s e).t1 = s.t1 := rfl
@[simp] theorem emit_prescCnt0 (s : State) (e : Event) : (emit s e).prescCnt0 = s.prescCnt0 := rfl
@[simp] theorem emit_prescCnt1 (s : State) (e : Event) : (emit s e).prescCnt1 = s.prescCnt1 := rfl
@[simp] theorem emit_inten (s : State) (e : Event) : (emit s e).inten = s.inten := rfl
@[simp] theorem emit_int (s : State) (e : Event) : (emit s e).int = s.int := rfl
@[simp] theorem emit_registry (s : State) (e : Event) : (emit s e).registry = s.registry := rfl
@[simp] theorem emit_act (s : State) (e : Event) : (emit s e).act = s.act := rfl
@[simp] theorem emit_pinlvl (s : State) (e : Event) : (emit s e).pinlvl = s.pinlvl := rfl
@[simp] theorem emit_port (s : State) (e : Event) : (emit s e).port = s.port := rfl
@[simp] theorem emit_cpu (s : State) (e : Event) : (emit s e).cpu = s.cpu := rfl
@[simp] theorem emit_out (s : State) (e : Event) : (emit s e).out = s.out ++ [e] := rfl

/-! ### `portWrite` -/

@[simp] theorem portWrite_cfg (s : State) (k : Nat) (v : Byte) : (portWrite s k v).cfg = s.cfg := rfl
@[simp] theorem portWrite_cmds (s : State) (k : Nat) (v : Byte) : (portWrite s k v).cmds = s.cmds := rfl
@[simp] theorem portWrite_src (s : State) (k : Nat) (v : Byte) : (portWrite s k v).src = s.src := rfl
@[simp] theorem portWrite_lcdSel (s : State) (k : Nat) (v : Byte) : (portWrite s k v).lcdSel = s.lcdSel := rfl
@[simp] theorem portWrite_resp (s : State) (k : Nat) (v : Byte) : (portWrite s k v).resp = s.resp := rfl
@[simp] theorem portWrite_cpuCycles (s : State) (k : Nat) (v : Byte) :
    (portWrite s k v).cpuCycles = s.cpuCycles := rfl
@[simp] theorem portWrite_t0 (s : State) (k : Nat) (v : Byte) : (portWrite s k v).t0 = s.t0 := rfl
@[simp] theorem portWrite_t1 (s : State) (k : Nat) (v : Byte) : (portWrite s k v).t1 = s.t1 := rfl
@[simp] theorem portWrite_prescCnt0 (s : State) (k : Nat) (v : Byte) :
    (portWrite s k v).prescCnt0 = s.prescCnt0 := rfl
@[simp] theorem portWrite_prescCnt1 (s : State) (k : Nat) (v : Byte) :
    (portWrite s k v).prescCnt1 = s.prescCnt1 := rfl
@[simp] theorem portWrite_inten (s : State) (k : Nat) (v : Byte) : (portWrite s k v).inten = s.inten := rfl
@[simp] theorem portWrite_int (s : State) (k : Nat) (v : Byte) : (portWrite s k v).int = s.int := rfl
@[simp] theorem portWrite_registry (s : State) (k : Nat) (v : Byte) : (portWrite s k v).registry = s.registry := rfl
@[simp] theorem portWrite_act (s : State) (k : Nat) (v : Byte) : (portWrite s k v).act = s.act := rfl
@[simp] theorem portWrite_pinlvl (s : State) (k : Nat) (v : Byte) : (portWrite s k v).pinlvl = s.pinlvl := rfl
@[simp] theorem portWrite_port (s : State) (k : Nat) (v : Byte) :
    (portWrite s k v).port = cellWrite blankPort s.port k v := rfl
@[simp] theorem portWrite_cpu (s : State) (k : Nat) (v : Byte) : (portWrite s k v).cpu = s.cpu := rfl
@[simp] theorem portWrite_out (s : State) (k : Nat) (v : Byte) : (portWrite s k v).out = s.out := rfl

/-! ### `setTimer` -/

@[simp] theorem setTimer_cfg (s : State) (n : TimerId) (t : TimerState) :
    (setTimer s n t).cfg = s.cfg := by cases n <;> rfl
@[simp] theorem setTimer_cmds (s : State) (n : TimerId) (t : TimerState) :
    (setTimer s n t).cmds = s.cmds := by cases n <;> rfl
@[simp] theorem setTimer_src (s : State) (n : TimerId) (t : TimerState) :
    (setTimer s n t).src = s.src := by cases n <;> rfl
@[simp] theorem setTimer_lcdSel (s : State) (n : TimerId) (t : TimerState) :
    (setTimer s n t).lcdSel = s.lcdSel := by cases n <;> rfl
@[simp] theorem setTimer_resp (s : State) (n : TimerId) (t : TimerState) :
    (setTimer s n t).resp = s.resp := by cases n <;> rfl
@[simp] theorem setTimer_cpuCycles (s : State) (n : TimerId) (t : TimerState) :
    (setTimer s n t).cpuCycles = s.cpuCycles := by cases n <;> rfl
@[simp] theorem setTimer_prescCnt0 (s : State) (n : TimerId) (t : TimerState) :
    (setTimer s n t).prescCnt0 = s.prescCnt0 := by cases n <;> rfl
@[simp] theorem setTimer_prescCnt1 (s : State) (n : TimerId) (t : TimerState) :
    (setTimer s n t).prescCnt1 = s.prescCnt1 := by cases n <;> rfl
@[simp] theorem setTimer_inten (s : State) (n : TimerId) (t : TimerState) :
    (setTimer s n t).inten = s.inten := by cases n <;> rfl
@[simp] theorem setTimer_int (s : State) (n : TimerId) (t : TimerState) :
    (setTimer s n t).int = s.int := by cases n <;> rfl
@[simp] theorem setTimer_registry (s : State) (n : TimerId) (t : TimerState) :
    (setTimer s n t).registry = s.registry := by cases n <;> rfl
@[simp] theorem setTimer_act (s : State) (n : TimerId) (t : TimerState) :
    (setTimer s n t).act = s.act := by cases n <;> rfl
@[simp] theorem setTimer_pinlvl (s : State) (n : TimerId) (t : TimerState) :
    (setTimer s n t).pinlvl = s.pinlvl := by cases n <;> rfl
@[simp] theorem setTimer_port (s : State) (n : TimerId) (t : TimerState) :
    (setTimer s n t).port = s.port := by cases n <;> rfl
@[simp] theorem setTimer_cpu (s : State) (n : TimerId) (t : TimerState) :
    (setTimer s n t).cpu = s.cpu := by cases n <;> rfl
@[simp] theorem setTimer_out (s : State) (n : TimerId) (t : TimerState) :
    (setTimer s n t).out = s.out := by cases n <;> rfl

@[simp] theorem timer_t0 (s : State) : timer s .t0 = s.t0 := rfl
@[simp] theorem timer_t1 (s : State) : timer s .t1 = s.t1 := rfl
@[simp] theorem setTimer_t0_t0 (s : State) (t : TimerState) : (setTimer s .t0 t).t0 = t := rfl
@[simp] theorem setTimer_t0_t1 (s : State) (t : TimerState) : (setTimer s .t0 t).t1 = s.t1 := rfl
@[simp] theorem setTimer_t1_t0 (s : State) (t : TimerState) : (setTimer s .t1 t).t0 = s.t0 := rfl
@[simp] theorem setTimer_t1_t1 (s : State) (t : TimerState) : (setTimer s .t1 t).t1 = t := rfl
@[simp] theorem timer_setTimer (s : State) (n : TimerId) (t : TimerState) : timer (setTimer s n t) n = t := by
  cases n <;> rfl
@[simp] theorem residue_setTimer (s : State) (n m : TimerId) (t : TimerState) :
    residue (setTimer s n t) m = residue s m := by cases n <;> cases m <;> rfl
@[simp] theorem setTimer_setTimer (s : State) (n : TimerId) (t u : TimerState) :
    setTimer (setTimer s n t) n u = setTimer s n u := by cases n <;> rfl
theorem timer_setTimer_ne (s : State) (n m : TimerId) (t : TimerState) (h : m ≠ n) :
    timer (setTimer s n t) m = timer s m := by cases n <;> cases m <;> first | rfl | exact absurd rfl h

/-! ### `setResidue` -/

@[simp] theorem setResidue_cfg (s : State) (n : TimerId) (v : BitVec 16) :
    (setResidue s n v).cfg = s.cfg := by cases n <;> rfl
@[simp] theorem setResidue_cmds (s : State) (n : TimerId) (v : BitVec 16) :
    (setResidue s n v).cmds = s.cmds := by cases n <;> rfl
@[simp] theorem setResidue_src (s : State) (n : TimerId) (v : BitVec 16) :
    (setResidue s n v).src = s.src := by cases n <;> rfl
@[simp] theorem setResidue_lcdSel (s : State) (n : TimerId) (v : BitVec 16) :
    (setResidue s n v).lcdSel = s.lcdSel := by cases n <;> rfl
@[simp] theorem setResidue_resp (s : State) (n : TimerId) (v : BitVec 16) :
    (setResidue s n v).resp = s.resp := by cases n <;> rfl
@[simp] theorem setResidue_cpuCycles (s : State) (n : TimerId) (v : BitVec 16) :
    (setResidue s n v).cpuCycles = s.cpuCycles := by cases n <;> rfl
@[simp] theorem setResidue_t0 (s : State) (n : TimerId) (v : BitVec 16) :
    (setResidue s n v).t0 = s.t0 := by cases n <;> rfl
@[simp] theorem setResidue_t1 (s : State) (n : TimerId) (v : BitVec 16) :
    (setResidue s n v).t1 = s.t1 := by cases n <;> rfl
@[simp] theorem setResidue_inten (s : State) (n : TimerId) (v : BitVec 16) :
    (setResidue s n v).inten = s.inten := by cases n <;> rfl
@[simp] theorem setResidue_int (s : State) (n : TimerId) (v : BitVec 16) :
    (setResidue s n v).int = s.int := by cases n <;> rfl
@[simp] theorem setResidue_registry (s : State) (n : TimerId) (v : BitVec 16) :
    (setResidue s n v).registry = s.registry := by cases n <;> rfl
@[simp] theorem setResidue_act (s : State) (n : TimerId) (v : BitVec 16) :
    (setResidue s n v).act = s.act := by cases n <;> rfl
@[simp] theorem setResidue_pinlvl (s : State) (n : TimerId) (v : BitVec 16) :
    (setResidue s n v).pinlvl = s.pinlvl := by cases n <;> rfl
@[simp] theorem setResidue_port (s : State) (n : TimerId) (v : BitVec 16) :
    (setResidue s n v).port = s.port := by cases n <;> rfl
@[simp] theorem setResidue_cpu (s : State) (n : TimerId) (v : BitVec 16) :
    (setResidue s n v).cpu = s.cpu := by cases n <;> rfl
@[simp] theorem setResidue_out (s : State) (n : TimerId) (v : BitVec 16) :
    (setResidue s n v).out = s.out := by cases n <;> rfl

@[simp] theorem residue_t0 (s : State) : residue s .t0 = s.prescCnt0 := rfl
@[simp] theorem residue_t1 (s : State) : residue s .t1 = s.prescCnt1 := rfl
@[simp] theorem setResidue_t0_prescCnt0 (s : State) (v : BitVec 16) : (setResidue s .t0 v).prescCnt0 = v := rfl
@[simp] theorem setResidue_t0_prescCnt1 (s : State) (v : BitVec 16) : (setResidue s .t0 v).prescCnt1 = s.prescCnt1 := rfl
@[simp] theorem setResidue_t1_prescCnt0 (s : State) (v : BitVec 16) : (setResidue s .t1 v).prescCnt0 = s.prescCnt0 := rfl
@[simp] theorem setResidue_t1_prescCnt1 (s : State) (v : BitVec 16) : (setResidue s .t1 v).prescCnt1 = v := rfl
@[simp] theorem residue_setResidue (s : State) (n : TimerId) (v : BitVec 16) : residue (setResidue s n v) n = v := by
  cases n <;> rfl
@[simp] theorem timer_setResidue (s : State) (n m : TimerId) (v : BitVec 16) :
    timer (setResidue s n v) m = timer s m := by cases n <;> cases m <;> rfl
@[simp] theorem timer_emit (s : State) (n : TimerId) (e : Event) : timer (emit s e) n = timer s n := by cases n <;> rfl
@[simp] theorem residue_emit (s : State) (n : TimerId) (e : Event) : residue (emit s e) n = residue s n := by
  cases n <;> rfl

/-! ### `requestInterrupt` -/

@[simp] theorem requestInterrupt_cfg (s : State) (v : BitVec 16) (en : Bool) :
    (requestInterrupt s v en).cfg = s.cfg := by cases en <;> rfl
@[simp] theorem requestInterrupt_cmds (s : State) (v : BitVec 16) (en : Bool) :
    (requestInterrupt s v en).cmds = s.cmds := by cases en <;> rfl
@[simp] theorem requestInterrupt_src (s : State) (v : BitVec 16) (en : Bool) :
    (requestInterrupt s v en).src = s.src := by cases en <;> rfl
@[simp] theorem requestInterrupt_lcdSel (s : State) (v : BitVec 16) (en : Bool) :
    (requestInterrupt s v en).lcdSel = s.lcdSel := by cases en <;> rfl
@[simp] theorem requestInterrupt_resp (s : State) (v : BitVec 16) (en : Bool) :
    (requestInterrupt s v en).resp = s.resp := by cases en <;> rfl
@[simp] theorem requestInterrupt_cpuCycles (s : State) (v : BitVec 16) (en : Bool) :
    (requestInterrupt s v en).cpuCycles = s.cpuCycles := by cases en <;> rfl
@[simp] theorem requestInterrupt_t0 (s : State) (v : BitVec 16) (en : Bool) :
    (requestInterrupt s v en).t0 = s.t0 := by cases en <;> rfl
@[simp] theorem requestInterrupt_t1 (s : State) (v : BitVec 16) (en : Bool) :
    (requestInterrupt s v en).t1 = s.t1 := by cases en <;> rfl
@[simp] theorem requestInterrupt_prescCnt0 (s : State) (v : BitVec 16) (en : Bool) :
    (requestInterrupt s v en).prescCnt0 = s.prescCnt0 := by cases en <;> rfl
@[simp] theorem requestInterrupt_prescCnt1 (s : State) (v : BitVec 16) (en : Bool) :
    (requestInterrupt s v en).prescCnt1 = s.prescCnt1 := by cases en <;> rfl
@[simp] theorem requestInterrupt_inten (s : State) (v : BitVec 16) (en : Bool) :
    (requestInterrupt s v en).inten = s.inten := by cases en <;> rfl
@[simp] theorem requestInterrupt_registry (s : State) (v : BitVec 16) (en : Bool) :
    (requestInterrupt s v en).registry = s.registry := by cases en <;> rfl
@[simp] theorem requestInterrupt_act (s : State) (v : BitVec 16) (en : Bool) :
    (requestInterrupt s v en).act = s.act := by cases en <;> rfl
@[simp] theorem requestInterrupt_pinlvl (s : State) (v : BitVec 16) (en : Bool) :
    (requestInterrupt s v en).pinlvl = s.pinlvl := by cases en <;> rfl
@[simp] theorem requestInterrupt_port (s : State) (v : BitVec 16) (en : Bool) :
    (requestInterrupt s v en).port = s.port := by cases en <;> rfl
@[simp] theorem requestInterrupt_cpu (s : State) (v : BitVec 16) (en : Bool) :
    (requestInterrupt s v en).cpu = s.cpu := by cases en <;> rfl
@[simp] theorem requestInterrupt_out (s : State) (v : BitVec 16) (en : Bool) :
    (requestInterrupt s v en).out = s.out := by cases en <;> rfl

@[simp] theorem requestInterrupt_false (s : State) (v : BitVec 16) : requestInterrupt s v false = s := rfl
@[simp] theorem requestInterrupt_pending (s : State) (v : BitVec 16) :
    (requestInterrupt s v true).int.pending = s.int.pending ++ [⟨v, s.int.seqNext⟩] := rfl
@[simp] theorem requestInterrupt_seqNext (s : State) (v : BitVec 16) :
    (requestInterrupt s v true).int.seqNext = s.int.seqNext + 1 := rfl
@[simp] theorem requestInterrupt_icState (s : State) (v : BitVec 16) (en : Bool) :
    (requestInterrupt s v en).int.icState = s.int.icState := by cases en <;> rfl
@[simp] theorem timer_requestInterrupt (s : State) (n : TimerId) (v : BitVec 16) (en : Bool) :
    timer (requestInterrupt s v en) n = timer s n := by cases n <;> cases en <;> rfl
@[simp] theorem residue_requestInterrupt (s : State) (n : TimerId) (v : BitVec 16) (en : Bool) :
    residue (requestInterrupt s v en) n = residue s n := by cases n <;> cases en <;> rfl

/-! ### `takeInterrupt` -/

@[simp] theorem takeInterrupt_cfg (s : State) (e : Pending) : (takeInterrupt s e).cfg = s.cfg := rfl
@[simp] theorem takeInterrupt_cmds (s : State) (e : Pending) : (takeInterrupt s e).cmds = s.cmds := rfl
@[simp] theorem takeInterrupt_src (s : State) (e : Pending) : (takeInterrupt s e).src = s.src := rfl
@[simp] theorem takeInterrupt_lcdSel (s : State) (e : Pending) : (takeInterrupt s e).lcdSel = s.lcdSel := rfl
@[simp] theorem takeInterrupt_resp (s : State) (e : Pending) : (takeInterrupt s e).resp = s.resp := rfl
@[simp] theorem takeInterrupt_cpuCycles (s : State) (e : Pending) : (takeInterrupt s e).cpuCycles = s.cpuCycles := rfl
@[simp] theorem takeInterrupt_t0 (s : State) (e : Pending) : (takeInterrupt s e).t0 = s.t0 := rfl
@[simp] theorem takeInterrupt_t1 (s : State) (e : Pending) : (takeInterrupt s e).t1 = s.t1 := rfl
@[simp] theorem takeInterrupt_prescCnt0 (s : State) (e : Pending) : (takeInterrupt s e).prescCnt0 = s.prescCnt0 := rfl
@[simp] theorem takeInterrupt_prescCnt1 (s : State) (e : Pending) : (takeInterrupt s e).prescCnt1 = s.prescCnt1 := rfl
@[simp] theorem takeInterrupt_inten (s : State) (e : Pending) : (takeInterrupt s e).inten = s.inten := rfl
@[simp] theorem takeInterrupt_int (s : State) (e : Pending) :
    (takeInterrupt s e).int = { s.int with icState := .idle, pending := s.int.pending.erase e } := rfl
@[simp] theorem takeInterrupt_registry (s : State) (e : Pending) : (takeInterrupt s e).registry = s.registry := rfl
@[simp] theorem takeInterrupt_act (s : State) (e : Pending) : (takeInterrupt s e).act = s.act := rfl
@[simp] theorem takeInterrupt_pinlvl (s : State) (e : Pending) : (takeInterrupt s e).pinlvl = s.pinlvl := rfl
@[simp] theorem takeInterrupt_port (s : State) (e : Pending) : (takeInterrupt s e).port = s.port := rfl
@[simp] theorem takeInterrupt_cpu (s : State) (e : Pending) :
    (takeInterrupt s e).cpu = { pc := e.vectorAddress, i := false, rstack := s.cpu.pc :: s.cpu.rstack } := rfl
@[simp] theorem takeInterrupt_out (s : State) (e : Pending) : (takeInterrupt s e).out = s.out := rfl

/-! ### `pulseEvent` -/

@[simp] theorem pulseEvent_cfg (s : State) (pin : Pin) (l : Level) (ts : Micros) :
    (pulseEvent s pin l ts).cfg = s.cfg := rfl
@[simp] theorem pulseEvent_cmds (s : State) (pin : Pin) (l : Level) (ts : Micros) :
    (pulseEvent s pin l ts).cmds = s.cmds := rfl
@[simp] theorem pulseEvent_src (s : State) (pin : Pin) (l : Level) (ts : Micros) :
    (pulseEvent s pin l ts).src = s.src := rfl
@[simp] theorem pulseEvent_lcdSel (s : State) (pin : Pin) (l : Level) (ts : Micros) :
    (pulseEvent s pin l ts).lcdSel = s.lcdSel := rfl
@[simp] theorem pulseEvent_resp (s : State) (pin : Pin) (l : Level) (ts : Micros) :
    (pulseEvent s pin l ts).resp = s.resp := rfl
@[simp] theorem pulseEvent_cpuCycles (s : State) (pin : Pin) (l : Level) (ts : Micros) :
    (pulseEvent s pin l ts).cpuCycles = s.cpuCycles := rfl
@[simp] theorem pulseEvent_t0 (s : State) (pin : Pin) (l : Level) (ts : Micros) :
    (pulseEvent s pin l ts).t0 = s.t0 := rfl
@[simp] theorem pulseEvent_t1 (s : State) (pin : Pin) (l : Level) (ts : Micros) :
    (pulseEvent s pin l ts).t1 = s.t1 := rfl
@[simp] theorem pulseEvent_prescCnt0 (s : State) (pin : Pin) (l : Level) (ts : Micros) :
    (pulseEvent s pin l ts).prescCnt0 = s.prescCnt0 := rfl
@[simp] theorem pulseEvent_prescCnt1 (s : State) (pin : Pin) (l : Level) (ts : Micros) :
    (pulseEvent s pin l ts).prescCnt1 = s.prescCnt1 := rfl
@[simp] theorem pulseEvent_inten (s : State) (pin : Pin) (l : Level) (ts : Micros) :
    (pulseEvent s pin l ts).inten = s.inten := rfl
@[simp] theorem pulseEvent_int (s : State) (pin : Pin) (l : Level) (ts : Micros) :
    (pulseEvent s pin l ts).int = s.int := rfl
@[simp] theorem pulseEvent_registry (s : State) (pin : Pin) (l : Level) (ts : Micros) :
    (pulseEvent s pin l ts).registry = s.registry := rfl
@[simp] theorem pulseEvent_act (s : State) (pin : Pin) (l : Level) (ts : Micros) :
    (pulseEvent s pin l ts).act = s.act.map (deliverTo s.cfg.rnd32 s.registry pin l ts) := rfl
@[simp] theorem pulseEvent_pinlvl (s : State) (pin : Pin) (l : Level) (ts : Micros) :
    (pulseEvent s pin l ts).pinlvl = s.pinlvl := rfl
@[simp] theorem pulseEvent_port (s : State) (pin : Pin) (l : Level) (ts : Micros) :
    (pulseEvent s pin l ts).port = s.port := rfl
@[simp] theorem pulseEvent_cpu (s : State) (pin : Pin) (l : Level) (ts : Micros) :
    (pulseEvent s pin l ts).cpu = s.cpu := rfl
@[simp] theorem pulseEvent_out (s : State) (pin : Pin) (l : Level) (ts : Micros) :
    (pulseEvent s pin l ts).out = s.out ++ [.pulse pin l ts] := rfl

@[simp] theorem timer_pulseEvent (s : State) (n : TimerId) (pin : Pin) (l : Level) (ts : Micros) :
    timer (pulseEvent s pin l ts) n = timer s n := by cases n <;> rfl
@[simp] theorem residue_pulseEvent (s : State) (n : TimerId) (pin : Pin) (l : Level) (ts : Micros) :
    residue (pulseEvent s pin l ts) n = residue s n := by cases n <;> rfl

/-! ### `accept` -/

@[simp] theorem accept_cfg (s : State) (w : BusWord) (rest : List BusWord) :
    (accept s w rest).cfg = s.cfg := by cases w <;> rfl
@[simp] theorem accept_cmds (s : State) (w : BusWord) (rest : List BusWord) :
    (accept s w rest).cmds = rest := by cases w <;> rfl
@[simp] theorem accept_resp (s : State) (w : BusWord) (rest : List BusWord) :
    (accept s w rest).resp = .notMeaningful := by cases w <;> rfl
@[simp] theorem accept_cpuCycles (s : State) (w : BusWord) (rest : List BusWord) :
    (accept s w rest).cpuCycles = s.cpuCycles := by cases w <;> rfl
@[simp] theorem accept_t0 (s : State) (w : BusWord) (rest : List BusWord) :
    (accept s w rest).t0 = s.t0 := by cases w <;> rfl
@[simp] theorem accept_t1 (s : State) (w : BusWord) (rest : List BusWord) :
    (accept s w rest).t1 = s.t1 := by cases w <;> rfl
@[simp] theorem accept_prescCnt0 (s : State) (w : BusWord) (rest : List BusWord) :
    (accept s w rest).prescCnt0 = s.prescCnt0 := by cases w <;> rfl
@[simp] theorem accept_prescCnt1 (s : State) (w : BusWord) (rest : List BusWord) :
    (accept s w rest).prescCnt1 = s.prescCnt1 := by cases w <;> rfl
@[simp] theorem accept_inten (s : State) (w : BusWord) (rest : List BusWord) :
    (accept s w rest).inten = s.inten := by cases w <;> rfl
@[simp] theorem accept_int (s : State) (w : BusWord) (rest : List BusWord) :
    (accept s w rest).int = s.int := by cases w <;> rfl
@[simp] theorem accept_registry (s : State) (w : BusWord) (rest : List BusWord) :
    (accept s w rest).registry = s.registry := by cases w <;> rfl
@[simp] theorem accept_act (s : State) (w : BusWord) (rest : List BusWord) :
    (accept s w rest).act = s.act := by cases w <;> rfl
@[simp] theorem accept_pinlvl (s : State) (w : BusWord) (rest : List BusWord) :
    (accept s w rest).pinlvl = s.pinlvl := by cases w <;> rfl
@[simp] theorem accept_port (s : State) (w : BusWord) (rest : List BusWord) :
    (accept s w rest).port = s.port := by cases w <;> rfl
@[simp] theorem accept_cpu (s : State) (w : BusWord) (rest : List BusWord) :
    (accept s w rest).cpu = s.cpu := by cases w <;> rfl
@[simp] theorem accept_out (s : State) (w : BusWord) (rest : List BusWord) :
    (accept s w rest).out = s.out := by cases w <;> rfl

@[simp] theorem accept_cmd_src (s : State) (p : Principal) (w : BitVec 80) (rest : List BusWord) :
    (accept s (.cmd p w) rest).src = p := rfl
@[simp] theorem accept_cmd_lcdSel (s : State) (p : Principal) (w : BitVec 80) (rest : List BusWord) :
    (accept s (.cmd p w) rest).lcdSel = s.lcdSel := rfl
@[simp] theorem accept_lcd_src (s : State) (id : InstanceId) (w : BitVec 9) (rest : List BusWord) :
    (accept s (.lcd id w) rest).src = s.src := rfl
@[simp] theorem accept_lcd_lcdSel (s : State) (id : InstanceId) (w : BitVec 9) (rest : List BusWord) :
    (accept s (.lcd id w) rest).lcdSel = id := rfl

/-! ### `animate` -/

@[simp] theorem animate_cfg (s : State) (dt : Rat) : (animate s dt).cfg = s.cfg := rfl
@[simp] theorem animate_cmds (s : State) (dt : Rat) : (animate s dt).cmds = s.cmds := rfl
@[simp] theorem animate_src (s : State) (dt : Rat) : (animate s dt).src = s.src := rfl
@[simp] theorem animate_lcdSel (s : State) (dt : Rat) : (animate s dt).lcdSel = s.lcdSel := rfl
@[simp] theorem animate_resp (s : State) (dt : Rat) : (animate s dt).resp = s.resp := rfl
@[simp] theorem animate_cpuCycles (s : State) (dt : Rat) : (animate s dt).cpuCycles = s.cpuCycles := rfl
@[simp] theorem animate_t0 (s : State) (dt : Rat) : (animate s dt).t0 = s.t0 := rfl
@[simp] theorem animate_t1 (s : State) (dt : Rat) : (animate s dt).t1 = s.t1 := rfl
@[simp] theorem animate_prescCnt0 (s : State) (dt : Rat) : (animate s dt).prescCnt0 = s.prescCnt0 := rfl
@[simp] theorem animate_prescCnt1 (s : State) (dt : Rat) : (animate s dt).prescCnt1 = s.prescCnt1 := rfl
@[simp] theorem animate_inten (s : State) (dt : Rat) : (animate s dt).inten = s.inten := rfl
@[simp] theorem animate_int (s : State) (dt : Rat) : (animate s dt).int = s.int := rfl
@[simp] theorem animate_registry (s : State) (dt : Rat) : (animate s dt).registry = s.registry := rfl
@[simp] theorem animate_act (s : State) (dt : Rat) : (animate s dt).act = s.act.map (animEntry s.cfg dt) := rfl
@[simp] theorem animate_pinlvl (s : State) (dt : Rat) : (animate s dt).pinlvl = s.pinlvl := rfl
@[simp] theorem animate_port (s : State) (dt : Rat) : (animate s dt).port = s.port := rfl
@[simp] theorem animate_cpu (s : State) (dt : Rat) : (animate s dt).cpu = s.cpu := rfl
@[simp] theorem animate_out (s : State) (dt : Rat) :
    (animate s dt).out = s.out ++ s.act.filterMap (animEvent s.cfg dt) := rfl

/-! ### `attachLcd` -/

@[simp] theorem attachLcd_cfg (s : State) (id : InstanceId) : (attachLcd s id).cfg = s.cfg := rfl
@[simp] theorem attachLcd_cmds (s : State) (id : InstanceId) : (attachLcd s id).cmds = s.cmds := rfl
@[simp] theorem attachLcd_src (s : State) (id : InstanceId) : (attachLcd s id).src = s.src := rfl
@[simp] theorem attachLcd_lcdSel (s : State) (id : InstanceId) : (attachLcd s id).lcdSel = s.lcdSel := rfl
@[simp] theorem attachLcd_resp (s : State) (id : InstanceId) : (attachLcd s id).resp = s.resp := rfl
@[simp] theorem attachLcd_cpuCycles (s : State) (id : InstanceId) : (attachLcd s id).cpuCycles = s.cpuCycles := rfl
@[simp] theorem attachLcd_t0 (s : State) (id : InstanceId) : (attachLcd s id).t0 = s.t0 := rfl
@[simp] theorem attachLcd_t1 (s : State) (id : InstanceId) : (attachLcd s id).t1 = s.t1 := rfl
@[simp] theorem attachLcd_prescCnt0 (s : State) (id : InstanceId) : (attachLcd s id).prescCnt0 = s.prescCnt0 := rfl
@[simp] theorem attachLcd_prescCnt1 (s : State) (id : InstanceId) : (attachLcd s id).prescCnt1 = s.prescCnt1 := rfl
@[simp] theorem attachLcd_inten (s : State) (id : InstanceId) : (attachLcd s id).inten = s.inten := rfl
@[simp] theorem attachLcd_int (s : State) (id : InstanceId) : (attachLcd s id).int = s.int := rfl
@[simp] theorem attachLcd_registry (s : State) (id : InstanceId) : (attachLcd s id).registry = s.registry := rfl
@[simp] theorem attachLcd_act (s : State) (id : InstanceId) :
    (attachLcd s id).act = actPut id (.lcd (freshLcd s.cfg) noPins) s.act := rfl
@[simp] theorem attachLcd_pinlvl (s : State) (id : InstanceId) : (attachLcd s id).pinlvl = s.pinlvl := rfl
@[simp] theorem attachLcd_port (s : State) (id : InstanceId) : (attachLcd s id).port = s.port := rfl
@[simp] theorem attachLcd_cpu (s : State) (id : InstanceId) : (attachLcd s id).cpu = s.cpu := rfl
@[simp] theorem attachLcd_out (s : State) (id : InstanceId) : (attachLcd s id).out = s.out := rfl

/-! ### `attachServo` -/

@[simp] theorem attachServo_cfg (s : State) (pin : Pin) (id : InstanceId) : (attachServo s pin id).cfg = s.cfg := rfl
@[simp] theorem attachServo_cmds (s : State) (pin : Pin) (id : InstanceId) :
    (attachServo s pin id).cmds = s.cmds := rfl
@[simp] theorem attachServo_src (s : State) (pin : Pin) (id : InstanceId) : (attachServo s pin id).src = s.src := rfl
@[simp] theorem attachServo_lcdSel (s : State) (pin : Pin) (id : InstanceId) :
    (attachServo s pin id).lcdSel = s.lcdSel := rfl
@[simp] theorem attachServo_resp (s : State) (pin : Pin) (id : InstanceId) :
    (attachServo s pin id).resp = s.resp := rfl
@[simp] theorem attachServo_cpuCycles (s : State) (pin : Pin) (id : InstanceId) :
    (attachServo s pin id).cpuCycles = s.cpuCycles := rfl
@[simp] theorem attachServo_t0 (s : State) (pin : Pin) (id : InstanceId) : (attachServo s pin id).t0 = s.t0 := rfl
@[simp] theorem attachServo_t1 (s : State) (pin : Pin) (id : InstanceId) : (attachServo s pin id).t1 = s.t1 := rfl
@[simp] theorem attachServo_prescCnt0 (s : State) (pin : Pin) (id : InstanceId) :
    (attachServo s pin id).prescCnt0 = s.prescCnt0 := rfl
@[simp] theorem attachServo_prescCnt1 (s : State) (pin : Pin) (id : InstanceId) :
    (attachServo s pin id).prescCnt1 = s.prescCnt1 := rfl
@[simp] theorem attachServo_inten (s : State) (pin : Pin) (id : InstanceId) :
    (attachServo s pin id).inten = s.inten := rfl
@[simp] theorem attachServo_int (s : State) (pin : Pin) (id : InstanceId) : (attachServo s pin id).int = s.int := rfl
@[simp] theorem attachServo_registry (s : State) (pin : Pin) (id : InstanceId) :
    (attachServo s pin id).registry = regAdd (pin, id) s.registry := rfl
@[simp] theorem attachServo_act (s : State) (pin : Pin) (id : InstanceId) :
    (attachServo s pin id).act = actPut id (.servo (freshServo s.cfg pin id)) s.act := rfl
@[simp] theorem attachServo_pinlvl (s : State) (pin : Pin) (id : InstanceId) :
    (attachServo s pin id).pinlvl = s.pinlvl := rfl
@[simp] theorem attachServo_port (s : State) (pin : Pin) (id : InstanceId) :
    (attachServo s pin id).port = s.port := rfl
@[simp] theorem attachServo_cpu (s : State) (pin : Pin) (id : InstanceId) : (attachServo s pin id).cpu = s.cpu := rfl
@[simp] theorem attachServo_out (s : State) (pin : Pin) (id : InstanceId) : (attachServo s pin id).out = s.out := rfl

/-! ### `writeReg` -/

@[simp] theorem writeReg_cfg (s : State) (r : Reg) (v : BitVec 16) : (writeReg s r v).cfg = s.cfg := by
  cases r <;> rfl
@[simp] theorem writeReg_cmds (s : State) (r : Reg) (v : BitVec 16) : (writeReg s r v).cmds = s.cmds := by
  cases r <;> rfl
@[simp] theorem writeReg_src (s : State) (r : Reg) (v : BitVec 16) : (writeReg s r v).src = s.src := by
  cases r <;> rfl
@[simp] theorem writeReg_lcdSel (s : State) (r : Reg) (v : BitVec 16) : (writeReg s r v).lcdSel = s.lcdSel := by
  cases r <;> rfl
@[simp] theorem writeReg_resp (s : State) (r : Reg) (v : BitVec 16) : (writeReg s r v).resp = s.resp := by
  cases r <;> rfl
@[simp] theorem writeReg_cpuCycles (s : State) (r : Reg) (v : BitVec 16) : (writeReg s r v).cpuCycles = s.cpuCycles := by
  cases r <;> rfl
@[simp] theorem writeReg_int (s : State) (r : Reg) (v : BitVec 16) : (writeReg s r v).int = s.int := by
  cases r <;> rfl
@[simp] theorem writeReg_registry (s : State) (r : Reg) (v : BitVec 16) : (writeReg s r v).registry = s.registry := by
  cases r <;> rfl
@[simp] theorem writeReg_act (s : State) (r : Reg) (v : BitVec 16) : (writeReg s r v).act = s.act := by
  cases r <;> rfl
@[simp] theorem writeReg_pinlvl (s : State) (r : Reg) (v : BitVec 16) : (writeReg s r v).pinlvl = s.pinlvl := by
  cases r <;> rfl
@[simp] theorem writeReg_port (s : State) (r : Reg) (v : BitVec 16) : (writeReg s r v).port = s.port := by
  cases r <;> rfl
@[simp] theorem writeReg_cpu (s : State) (r : Reg) (v : BitVec 16) : (writeReg s r v).cpu = s.cpu := by
  cases r <;> rfl
@[simp] theorem writeReg_out (s : State) (r : Reg) (v : BitVec 16) : (writeReg s r v).out = s.out := by
  cases r <;> rfl

end Sys2Proof.Machine
end

