-- ==== Sys2Proof/Laws/Tables.lean ====
section
/-! SUPPORT. The actuator table, the registry and the interrupt queue: what each operation finds, adds, removes and keeps. -/

namespace Sys2Proof.Machine

open Sys2Proof

/-! ### The actuator table -/

@[simp] theorem actFind_nil (id : InstanceId) : actFind id [] = none := rfl

theorem actFind_cons (id k : InstanceId) (x : ActInstance) (t : List (InstanceId × ActInstance)) :
    actFind id ((k, x) :: t) = if k = id then some x else actFind id t := rfl

/-- What is found stands in the table. -/
theorem actFind_mem (id : InstanceId) (x : ActInstance) (t : List (InstanceId × ActInstance))
    (h : actFind id t = some x) : (id, x) ∈ t := by
  induction t with
  | nil => simp at h
  | cons e t ih =>
    obtain ⟨k, y⟩ := e
    rw [actFind_cons] at h
    split_ifs at h with hk
    · cases h; subst hk; simp
    · exact List.mem_cons_of_mem _ (ih h)

/-- An id is not found exactly when no entry carries it. -/
theorem actFind_eq_none_iff (id : InstanceId) (t : List (InstanceId × ActInstance)) :
    actFind id t = none ↔ ∀ e ∈ t, e.1 ≠ id := by
  induction t with
  | nil => simp
  | cons e t ih =>
    obtain ⟨k, y⟩ := e
    rw [actFind_cons]
    by_cases hk : k = id
    · simp [hk]
    · simp [hk, ih]

/-- In a table with rising ids every entry is the one found. -/
theorem actFind_of_mem (id : InstanceId) (x : ActInstance) (t : List (InstanceId × ActInstance))
    (hs : t.Pairwise fun x y => x.1.toNat < y.1.toNat) (h : (id, x) ∈ t) : actFind id t = some x := by
  induction t with
  | nil => simp at h
  | cons e t ih =>
    obtain ⟨k, y⟩ := e
    have hp := List.pairwise_cons.mp hs
    rw [actFind_cons]
    rcases List.mem_cons.mp h with h | h
    · cases h; simp
    · have hlt := hp.1 _ h
      have hk : k ≠ id := fun hk => by subst hk; simp at hlt
      rw [if_neg hk]
      exact ih hp.2 h

/-- `ACT[id] <- x` for an id in use. -/
theorem actFind_actSet (id k : InstanceId) (x : ActInstance) (t : List (InstanceId × ActInstance))
    (h : actFind id t ≠ none) : actFind k (actSet id x t) = if k = id then some x else actFind k t := by
  induction t with
  | nil => simp at h
  | cons e t ih =>
    obtain ⟨j, y⟩ := e
    by_cases hj : j = id
    · subst hj
      by_cases hk : k = j
      · subst hk; simp [actSet, actFind_cons]
      · have hk' : ¬ j = k := fun h => hk h.symm
        simp [actSet, actFind_cons, hk, hk']
    · rw [actFind_cons, if_neg hj] at h
      have ih' := ih h
      by_cases hk : j = k
      · subst hk; simp [actSet, actFind_cons, hj]
      · simp [actSet, actFind_cons, hj, hk, ih']

/-- `actSet` keeps every id where it stands. -/
theorem actSet_map_fst (id : InstanceId) (x : ActInstance) (t : List (InstanceId × ActInstance)) :
    (actSet id x t).map Prod.fst = t.map Prod.fst := by
  induction t with
  | nil => rfl
  | cons e t ih =>
    obtain ⟨j, y⟩ := e
    by_cases hj : j = id <;> simp [actSet, hj, ih]

/-- Setting an id to what it has changes nothing. -/
theorem actSet_self (id : InstanceId) (x : ActInstance) (t : List (InstanceId × ActInstance))
    (h : actFind id t = some x) : actSet id x t = t := by
  induction t with
  | nil => rfl
  | cons e t ih =>
    obtain ⟨j, y⟩ := e
    rw [actFind_cons] at h
    by_cases hj : j = id
    · rw [if_pos hj] at h; cases h; simp [actSet, hj]
    · rw [if_neg hj] at h; simp [actSet, hj, ih h]

/-- An entry of a set table is the new one or an old one. -/
theorem mem_actSet (id : InstanceId) (x : ActInstance) (t : List (InstanceId × ActInstance))
    (e : InstanceId × ActInstance) (h : e ∈ actSet id x t) : e = (id, x) ∨ e ∈ t := by
  induction t with
  | nil => simp [actSet] at h
  | cons f t ih =>
    obtain ⟨j, y⟩ := f
    unfold actSet at h
    split_ifs at h with hj
    · subst hj
      rcases List.mem_cons.mp h with h | h
      · exact .inl h
      · exact .inr (List.mem_cons_of_mem _ h)
    · rcases List.mem_cons.mp h with h | h
      · exact .inr (h ▸ List.mem_cons_self ..)
      · exact (ih h).imp_right (List.mem_cons_of_mem _)

/-- `ACT[id] <- x` for a free id. -/
theorem actFind_actPut (id k : InstanceId) (x : ActInstance) (t : List (InstanceId × ActInstance))
    (h : actFind id t = none) : actFind k (actPut id x t) = if k = id then some x else actFind k t := by
  induction t with
  | nil =>
    by_cases hk : k = id
    · subst hk; simp [actPut, actFind_cons]
    · have hk' : ¬ id = k := fun h => hk h.symm
      simp [actPut, actFind_cons, hk, hk']
  | cons e t ih =>
    obtain ⟨j, y⟩ := e
    rw [actFind_cons] at h
    split_ifs at h with hj
    have ih' := ih h
    unfold actPut
    by_cases h1 : id.toNat < j.toNat
    · rw [if_pos h1]
      by_cases hk : k = id
      · subst hk; simp [actFind_cons]
      · have hk' : ¬ id = k := fun h => hk h.symm
        simp [actFind_cons, hk, hk']
    · rw [if_neg h1]
      by_cases hk : j = k
      · subst hk; simp [actFind_cons, hj]
      · simp [actFind_cons, hk, ih']

/-- An entry of a grown table is the new one or an old one. -/
theorem mem_actPut (id : InstanceId) (x : ActInstance) (t : List (InstanceId × ActInstance))
    (e : InstanceId × ActInstance) : e ∈ actPut id x t ↔ e = (id, x) ∨ e ∈ t := by
  induction t with
  | nil => simp [actPut]
  | cons f t ih =>
    obtain ⟨j, y⟩ := f
    unfold actPut
    split_ifs with h1
    · simp
    · simp only [List.mem_cons, ih]
      tauto

/-- A free id goes in where the ids keep rising. -/
theorem actPut_rising (id : InstanceId) (x : ActInstance) (t : List (InstanceId × ActInstance))
    (hs : t.Pairwise fun x y => x.1.toNat < y.1.toNat) (h : actFind id t = none) :
    (actPut id x t).Pairwise fun x y => x.1.toNat < y.1.toNat := by
  induction t with
  | nil => simp [actPut]
  | cons e t ih =>
    obtain ⟨j, y⟩ := e
    have hp := List.pairwise_cons.mp hs
    rw [actFind_cons] at h
    split_ifs at h with hj
    unfold actPut
    split_ifs with h1
    · refine List.pairwise_cons.mpr ⟨fun e he => ?_, hs⟩
      rcases List.mem_cons.mp he with rfl | he
      · exact h1
      · exact lt_trans h1 (hp.1 e he)
    · refine List.pairwise_cons.mpr ⟨fun e he => ?_, ih hp.2 h⟩
      rcases (mem_actPut id x t e).mp he with rfl | he
      · have : j.toNat ≠ id.toNat := fun hn => hj (BitVec.eq_of_toNat_eq hn)
        simp only; omega
      · exact hp.1 e he

/-- `ACT[id] <- None`. -/
theorem actFind_actDrop (id k : InstanceId) (t : List (InstanceId × ActInstance)) :
    actFind k (actDrop id t) = if k = id then none else actFind k t := by
  induction t with
  | nil => simp [actDrop]
  | cons e t ih =>
    obtain ⟨j, y⟩ := e
    unfold actDrop at ih ⊢
    by_cases hj : j = id
    · subst hj
      by_cases hk : k = j
      · subst hk; simpa using ih
      · have hk' : ¬ j = k := fun h => hk h.symm
        simpa [actFind_cons, hk, hk'] using ih
    · by_cases hk : j = k
      · subst hk; simp [actFind_cons, hj]
      · simp [actFind_cons, hj, hk, ih]

/-- An entry of a shrunk table is an old one. -/
theorem mem_actDrop (id : InstanceId) (t : List (InstanceId × ActInstance)) (e : InstanceId × ActInstance) :
    e ∈ actDrop id t ↔ e ∈ t ∧ e.1 ≠ id := by
  simp [actDrop]

/-- A pass over the table that keeps every id: what is found is the image of what was. -/
theorem actFind_map (id : InstanceId) (f : InstanceId × ActInstance → InstanceId × ActInstance)
    (hf : ∀ e, (f e).1 = e.1) (t : List (InstanceId × ActInstance)) :
    actFind id (t.map f) = (actFind id t).map fun x => (f (id, x)).2 := by
  induction t with
  | nil => rfl
  | cons e t ih =>
    obtain ⟨j, y⟩ := e
    have h1 := hf (j, y)
    rw [List.map_cons, show f (j, y) = (j, (f (j, y)).2) from Prod.ext h1 rfl, actFind_cons, actFind_cons]
    by_cases hj : j = id
    · subst hj; simp
    · simp [hj, ih]

/-- A pass over the table that keeps every id keeps them rising. -/
theorem rising_map (f : InstanceId × ActInstance → InstanceId × ActInstance) (hf : ∀ e, (f e).1 = e.1)
    (t : List (InstanceId × ActInstance)) (hs : t.Pairwise fun x y => x.1.toNat < y.1.toNat) :
    (t.map f).Pairwise fun x y => x.1.toNat < y.1.toNat := by
  rw [List.pairwise_map]
  exact hs.imp fun h => by rw [hf, hf]; exact h

/-- Two tables with the same ids in the same order are both rising or neither. -/
theorem rising_of_map_fst (t u : List (InstanceId × ActInstance)) (h : u.map Prod.fst = t.map Prod.fst)
    (hs : t.Pairwise fun x y => x.1.toNat < y.1.toNat) : u.Pairwise fun x y => x.1.toNat < y.1.toNat := by
  have ht : (t.map Prod.fst).Pairwise fun x y : InstanceId => x.toNat < y.toNat := List.pairwise_map.mpr hs
  rw [← h, List.pairwise_map] at ht
  exact ht

/-- What `lcdAt` finds. -/
theorem lcdAt_eq_some (s : State) (id : InstanceId) (st : LcdState) (p : LcdPins) :
    lcdAt s id = some (st, p) ↔ actFind id s.act = some (.lcd st p) := by
  unfold lcdAt
  split <;> simp_all

/-- What `lcdAt` does not find. -/
theorem lcdAt_eq_none (s : State) (id : InstanceId) :
    lcdAt s id = none ↔ ∀ st p, actFind id s.act ≠ some (.lcd st p) := by
  unfold lcdAt
  split <;> simp_all

/-- What `servoAt` finds. -/
theorem servoAt_eq_some (s : State) (id : InstanceId) (sv : ServoState) :
    servoAt s id = some sv ↔ actFind id s.act = some (.servo sv) := by
  unfold servoAt
  split <;> simp_all

/-- What `servoAt` does not find. -/
theorem servoAt_eq_none (s : State) (id : InstanceId) :
    servoAt s id = none ↔ ∀ sv, actFind id s.act ≠ some (.servo sv) := by
  unfold servoAt
  split <;> simp_all

/-! ### The registry -/

/-- The registry's order tells two pairs apart. -/
theorem pairKey_inj (x y : Pin × InstanceId) (h : pairKey x = pairKey y) : x = y := by
  unfold pairKey at h
  have h1 := x.2.isLt
  have h2 := y.2.isLt
  exact Prod.ext (BitVec.eq_of_toNat_eq (by omega)) (BitVec.eq_of_toNat_eq (by omega))

/-- Registering adds exactly its pair. -/
theorem mem_regAdd (e x : Pin × InstanceId) (t : List (Pin × InstanceId)) : x ∈ regAdd e t ↔ x = e ∨ x ∈ t := by
  induction t with
  | nil => simp [regAdd]
  | cons k t ih =>
    unfold regAdd
    split_ifs with h1 h2
    · simp
    · subst h2; simp
    · simp only [List.mem_cons, ih]
      tauto

/-- Registering keeps the order. -/
theorem regAdd_rising (e : Pin × InstanceId) (t : List (Pin × InstanceId))
    (hs : t.Pairwise fun x y => pairKey x < pairKey y) : (regAdd e t).Pairwise fun x y => pairKey x < pairKey y := by
  induction t with
  | nil => simp [regAdd]
  | cons k t ih =>
    have hp := List.pairwise_cons.mp hs
    unfold regAdd
    split_ifs with h1 h2
    · refine List.pairwise_cons.mpr ⟨fun x hx => ?_, hs⟩
      rcases List.mem_cons.mp hx with rfl | hx
      · exact h1
      · exact lt_trans h1 (hp.1 x hx)
    · exact hs
    · refine List.pairwise_cons.mpr ⟨fun x hx => ?_, ih hp.2⟩
      rcases (mem_regAdd e x t).mp hx with rfl | hx
      · have : pairKey k ≠ pairKey x := fun h => h2 (pairKey_inj _ _ h).symm
        omega
      · exact hp.1 x hx

/-- Unregistering removes exactly its pair. -/
theorem mem_regRemove (e x : Pin × InstanceId) (t : List (Pin × InstanceId)) :
    x ∈ regRemove e t ↔ x ∈ t ∧ x ≠ e := by
  simp [regRemove]

/-- Detaching an id removes exactly its pairs. -/
theorem mem_regDropId (id : InstanceId) (x : Pin × InstanceId) (t : List (Pin × InstanceId)) :
    x ∈ regDropId id t ↔ x ∈ t ∧ x.2 ≠ id := by
  simp [regDropId]

/-! ### The interrupt queue -/

/-- Nothing is selected exactly from an empty queue. -/
theorem selectPending_eq_none (q : List Pending) : selectPending q = none ↔ q = [] := by
  cases q with
  | nil => simp [selectPending]
  | cons e t =>
    simp only [selectPending, reduceCtorEq, iff_false]
    split
    · simp
    · split_ifs <;> simp

/-- The selected entry stands in the queue, and every entry has a greater vector address, or the same one and arrived no
earlier. -/
theorem selectPending_spec (q : List Pending) (e : Pending) (h : selectPending q = some e) :
    e ∈ q ∧ ∀ x ∈ q, e.vectorAddress.toNat < x.vectorAddress.toNat
      ∨ (e.vectorAddress = x.vectorAddress ∧ e.priorityOrder ≤ x.priorityOrder) := by
  induction q generalizing e with
  | nil => simp [selectPending] at h
  | cons a t ih =>
    unfold selectPending at h
    cases hb : selectPending t with
    | none =>
      rw [hb] at h
      have ht := (selectPending_eq_none t).mp hb
      simp only [Option.some.injEq] at h
      subst h ht
      simp
    | some b =>
      rw [hb] at h
      obtain ⟨hm, hle⟩ := ih b hb
      have key : before b a = true ↔ (b.vectorAddress.toNat < a.vectorAddress.toNat
          ∨ (b.vectorAddress = a.vectorAddress ∧ b.priorityOrder < a.priorityOrder)) := by
        simp [before]
      by_cases hba : before b a = true
      · simp only [hba, if_true, Option.some.injEq] at h
        subst h
        refine ⟨List.mem_cons_of_mem _ hm, fun x hx => ?_⟩
        rcases List.mem_cons.mp hx with rfl | hx
        · exact (key.mp hba).imp_right fun h => ⟨h.1, h.2.le⟩
        · exact hle x hx
      · simp only [hba, Bool.false_eq_true, if_false, Option.some.injEq] at h
        subst h
        refine ⟨List.mem_cons_self .., fun x hx => ?_⟩
        have hn := fun h => hba (key.mpr h)
        rcases List.mem_cons.mp hx with rfl | hx
        · exact .inr ⟨rfl, le_rfl⟩
        · have hab : a.vectorAddress.toNat < b.vectorAddress.toNat
              ∨ (a.vectorAddress = b.vectorAddress ∧ a.priorityOrder ≤ b.priorityOrder) := by
            rcases lt_trichotomy a.vectorAddress.toNat b.vectorAddress.toNat with h | h | h
            · exact .inl h
            · have he : a.vectorAddress = b.vectorAddress := BitVec.eq_of_toNat_eq h
              refine .inr ⟨he, ?_⟩
              by_contra hlt
              exact hn (.inr ⟨he.symm, by omega⟩)
            · exact absurd (.inl h) hn
          rcases hab with h1 | ⟨h1, h1'⟩ <;> rcases hle x hx with h2 | ⟨h2, h2'⟩
          · exact .inl (lt_trans h1 h2)
          · exact .inl (h2 ▸ h1)
          · exact .inl (h1 ▸ h2)
          · exact .inr ⟨h1.trans h2, le_trans h1' h2'⟩

end Sys2Proof.Machine
end

