-- ==== Sys2Proof/Laws/Timers.lean ====
section
/-! SUPPORT. Pulse delivery and the timers' parts (41_timers.md R91 to R97): what each can do, said once. -/

namespace Sys2Proof.Machine

open Sys2Proof

/-! ### Delivery -/

@[simp] theorem deliverTo_fst (r : Rounding) (g : List (Pin × InstanceId)) (pin : Pin) (l : Level) (ts : Micros)
    (e : InstanceId × ActInstance) : (deliverTo r g pin l ts e).1 = e.1 := by
  obtain ⟨id, sv | ⟨st, p⟩⟩ := e
  · simp only [deliverTo]; split_ifs <;> rfl
  · rfl

@[simp] theorem deliverTo_lcd (r : Rounding) (g : List (Pin × InstanceId)) (pin : Pin) (l : Level) (ts : Micros)
    (id : InstanceId) (st : LcdState) (p : LcdPins) :
    deliverTo r g pin l ts (id, .lcd st p) = (id, .lcd st p) := rfl

theorem deliverTo_servo (r : Rounding) (g : List (Pin × InstanceId)) (pin : Pin) (l : Level) (ts : Micros)
    (id : InstanceId) (sv : ServoState) :
    deliverTo r g pin l ts (id, .servo sv) = (id, .servo (if (pin, id) ∈ g then servoPulse r l ts sv else sv)) := by
  simp only [deliverTo]; split_ifs <;> rfl

/-- A pulse event changes a servo's pulse start and target only. -/
theorem servoPulse_frame (r : Rounding) (l : Level) (ts : Micros) (sv : ServoState) :
    servoPulse r l ts sv =
      { sv with
        pulseStartTimeUs := (servoPulse r l ts sv).pulseStartTimeUs
        targetAngleDeg := (servoPulse r l ts sv).targetAngleDeg } := by
  unfold servoPulse
  split
  · rfl
  · split_ifs <;> rfl
  · rfl

/-- What is found after a pulse event: the servo, pulsed if it is registered on the pin; an LCD as it was. -/
theorem actFind_pulseEvent (s : State) (pin : Pin) (l : Level) (ts : Micros) (id : InstanceId) :
    actFind id (pulseEvent s pin l ts).act =
      match actFind id s.act with
      | some (.servo sv) =>
        some (.servo (if (pin, id) ∈ s.registry then servoPulse s.cfg.rnd32 l ts sv else sv))
      | x => x := by
  rw [pulseEvent_act, actFind_map _ _ (by simp)]
  cases h : actFind id s.act with
  | none => rfl
  | some x =>
    cases x with
    | servo sv => simp [deliverTo_servo]
    | lcd st p => simp

/-! ### What ticking timer `n` may change -/

/-- How a tick may change the actuator table: a pass that leaves LCDs alone, of a servo changes pulse start and target only,
and nothing of a servo registered on neither output pin. -/
def PulsesOnly (s : State) (f : InstanceId × ActInstance → InstanceId × ActInstance) : Prop :=
  (∀ id st p, f (id, .lcd st p) = (id, .lcd st p))
  ∧ ∀ id sv, ∃ sv' : ServoState, f (id, .servo sv) = (id, .servo sv')
    ∧ sv' = { sv with pulseStartTimeUs := sv'.pulseStartTimeUs, targetAngleDeg := sv'.targetAngleDeg }
    ∧ ((s.cfg.pinOc1a, id) ∉ s.registry → (s.cfg.pinOc1b, id) ∉ s.registry → sv' = sv)

/-- What a tick of timer `n` from `s` to `t` leaves unchanged. -/
structure TickFrame (n : TimerId) (s t : State) : Prop where
  cfg_eq : t.cfg = s.cfg
  cmds_eq : t.cmds = s.cmds
  src_eq : t.src = s.src
  lcdSel_eq : t.lcdSel = s.lcdSel
  resp_eq : t.resp = s.resp
  cpuCycles_eq : t.cpuCycles = s.cpuCycles
  inten_eq : t.inten = s.inten
  registry_eq : t.registry = s.registry
  pinlvl_eq : t.pinlvl = s.pinlvl
  port_eq : t.port = s.port
  cpu_eq : t.cpu = s.cpu
  icState_eq : t.int.icState = s.int.icState
  other_timer : ∀ m, m ≠ n → timer t m = timer s m
  other_residue : ∀ m, m ≠ n → residue t m = residue s m
  timer_eq : timer t n =
    { timer s n with counter := (timer t n).counter, overflowFlag := (timer t n).overflowFlag }
  act_eq : ∃ f, PulsesOnly s f ∧ t.act = s.act.map f

theorem PulsesOnly.id (s : State) : PulsesOnly s fun e => e :=
  ⟨fun _ _ _ => rfl, fun _ sv => ⟨sv, rfl, rfl, fun _ _ => rfl⟩⟩

theorem TickFrame.refl (n : TimerId) (s : State) : TickFrame n s s := by
  constructor <;> first | rfl | exact fun _ _ => rfl | exact ⟨_, PulsesOnly.id s, by simp⟩

theorem TickFrame.trans {n : TimerId} {s t u : State} (h : TickFrame n s t) (k : TickFrame n t u) :
    TickFrame n s u where
  cfg_eq := k.cfg_eq.trans h.cfg_eq
  cmds_eq := k.cmds_eq.trans h.cmds_eq
  src_eq := k.src_eq.trans h.src_eq
  lcdSel_eq := k.lcdSel_eq.trans h.lcdSel_eq
  resp_eq := k.resp_eq.trans h.resp_eq
  cpuCycles_eq := k.cpuCycles_eq.trans h.cpuCycles_eq
  inten_eq := k.inten_eq.trans h.inten_eq
  registry_eq := k.registry_eq.trans h.registry_eq
  pinlvl_eq := k.pinlvl_eq.trans h.pinlvl_eq
  port_eq := k.port_eq.trans h.port_eq
  cpu_eq := k.cpu_eq.trans h.cpu_eq
  icState_eq := k.icState_eq.trans h.icState_eq
  other_timer := fun m hm => (k.other_timer m hm).trans (h.other_timer m hm)
  other_residue := fun m hm => (k.other_residue m hm).trans (h.other_residue m hm)
  timer_eq := by
    have h1 := k.timer_eq
    rw [h.timer_eq] at h1
    exact h1
  act_eq := by
    obtain ⟨f, ⟨hl, hs⟩, hf⟩ := h.act_eq
    obtain ⟨g, ⟨kl, ks⟩, hg⟩ := k.act_eq
    refine ⟨fun e => g (f e), ⟨fun id st p => by simp only [hl, kl], fun id sv => ?_⟩, by simp [hg, hf]⟩
    obtain ⟨x, hx, hx', hx''⟩ := hs id sv
    obtain ⟨y, hy, hy', hy''⟩ := ks id x
    refine ⟨y, by simp only [hx, hy], ?_, fun ha hb => ?_⟩
    · rw [hx'] at hy'; exact hy'
    · rw [hy'' (by rw [h.cfg_eq, h.registry_eq]; exact ha) (by rw [h.cfg_eq, h.registry_eq]; exact hb), hx'' ha hb]

/-- The frame of a tick of Timer0 as one equation. -/
theorem TickFrame.eq_t0 {s t : State} (h : TickFrame .t0 s t) :
    t = { s with
      t0 := { s.t0 with counter := t.t0.counter, overflowFlag := t.t0.overflowFlag }
      prescCnt0 := t.prescCnt0
      int := { s.int with pending := t.int.pending, seqNext := t.int.seqNext }
      act := t.act
      out := t.out } := by
  have h1 : t.t1 = s.t1 := h.other_timer .t1 (by decide)
  have h2 : t.prescCnt1 = s.prescCnt1 := h.other_residue .t1 (by decide)
  have h3 : t.t0 = { s.t0 with counter := t.t0.counter, overflowFlag := t.t0.overflowFlag } := h.timer_eq
  have h4 : t.int = { s.int with pending := t.int.pending, seqNext := t.int.seqNext } := by
    dsimp only; rw [← h.icState_eq]
  have h5 := h.cfg_eq
  have h6 := h.cmds_eq
  have h7 := h.src_eq
  have h8 := h.lcdSel_eq
  have h9 := h.resp_eq
  have h10 := h.cpuCycles_eq
  have h11 := h.inten_eq
  have h12 := h.registry_eq
  have h13 := h.pinlvl_eq
  have h14 := h.port_eq
  have h15 := h.cpu_eq
  clear h
  rcases t with ⟨⟩
  simp only [State.mk.injEq] at *
  exact ⟨h5, h6, h7, h8, h9, h10, h3, h1, trivial, h2, h11, h4, h12, trivial, h13, h14, h15, trivial⟩

/-- The frame of a tick of Timer1 as one equation. -/
theorem TickFrame.eq_t1 {s t : State} (h : TickFrame .t1 s t) :
    t = { s with
      t1 := { s.t1 with counter := t.t1.counter, overflowFlag := t.t1.overflowFlag }
      prescCnt1 := t.prescCnt1
      int := { s.int with pending := t.int.pending, seqNext := t.int.seqNext }
      act := t.act
      out := t.out } := by
  have h1 : t.t0 = s.t0 := h.other_timer .t0 (by decide)
  have h2 : t.prescCnt0 = s.prescCnt0 := h.other_residue .t0 (by decide)
  have h3 : t.t1 = { s.t1 with counter := t.t1.counter, overflowFlag := t.t1.overflowFlag } := h.timer_eq
  have h4 : t.int = { s.int with pending := t.int.pending, seqNext := t.int.seqNext } := by
    dsimp only; rw [← h.icState_eq]
  have h5 := h.cfg_eq
  have h6 := h.cmds_eq
  have h7 := h.src_eq
  have h8 := h.lcdSel_eq
  have h9 := h.resp_eq
  have h10 := h.cpuCycles_eq
  have h11 := h.inten_eq
  have h12 := h.registry_eq
  have h13 := h.pinlvl_eq
  have h14 := h.port_eq
  have h15 := h.cpu_eq
  clear h
  rcases t with ⟨⟩
  simp only [State.mk.injEq] at *
  exact ⟨h5, h6, h7, h8, h9, h10, h1, h3, h2, trivial, h11, h4, h12, trivial, h13, h14, h15, trivial⟩

/-- A servo pulse event on an output pin is such a change. -/
theorem pulsesOnly_deliver (s : State) (pin : Pin) (l : Level) (ts : Micros)
    (hp : pin = s.cfg.pinOc1a ∨ pin = s.cfg.pinOc1b) :
    PulsesOnly s (deliverTo s.cfg.rnd32 s.registry pin l ts) := by
  refine ⟨fun _ _ _ => rfl, fun id sv => ⟨_, deliverTo_servo .., ?_, fun ha hb => ?_⟩⟩
  · split_ifs
    · exact servoPulse_frame ..
    · rfl
  · have hn : (pin, id) ∉ s.registry := by rcases hp with rfl | rfl <;> assumption
    rw [if_neg hn]

theorem tickFrame_emit (n : TimerId) (s : State) (e : Event) : TickFrame n s (emit s e) := by
  constructor <;> first | rfl | exact fun _ _ => rfl | exact ⟨_, PulsesOnly.id s, by simp⟩

theorem tickFrame_setResidue (n : TimerId) (s : State) (v : BitVec 16) : TickFrame n s (setResidue s n v) := by
  constructor <;> first | exact ⟨_, PulsesOnly.id s, by simp⟩ | simp
  cases n <;> intro m hm <;> cases m <;> first | rfl | exact absurd rfl hm

theorem tickFrame_request (n : TimerId) (s : State) (v : BitVec 16) (en : Bool) :
    TickFrame n s (requestInterrupt s v en) := by
  constructor <;> first | exact ⟨_, PulsesOnly.id s, by simp⟩ | simp

/-- Writing the counter and the overflow flag. -/
theorem tickFrame_setTimer (n : TimerId) (s : State) (t : TimerState)
    (h : t = { timer s n with counter := t.counter, overflowFlag := t.overflowFlag }) :
    TickFrame n s (setTimer s n t) := by
  constructor <;>
    first
    | exact ⟨_, PulsesOnly.id s, by simp⟩
    | exact fun m hm => timer_setTimer_ne s n m t hm
    | exact (timer_setTimer s n t).trans (h.trans (by simp))
    | simp

theorem tickFrame_pulse (n : TimerId) (s : State) (pin : Pin) (l : Level) (ts : Micros)
    (hp : pin = s.cfg.pinOc1a ∨ pin = s.cfg.pinOc1b) : TickFrame n s (pulseEvent s pin l ts) := by
  constructor <;> first | exact ⟨_, pulsesOnly_deliver s pin l ts hp, rfl⟩ | simp

theorem tickFrame_routePulse (n : TimerId) (s : State) (pin : Pin) (pw now : Nat)
    (hp : pin = s.cfg.pinOc1a ∨ pin = s.cfg.pinOc1b) : TickFrame n s (routePulseAt s pin pw now) :=
  (tickFrame_pulse n s pin .high _ hp).trans (tickFrame_pulse n _ pin .low _ (by simpa using hp))

theorem tickFrame_channelPulse (n : TimerId) (s : State) (pin : Pin) (cmp : BitVec 16) (ts : Nat)
    (hp : pin = s.cfg.pinOc1a ∨ pin = s.cfg.pinOc1b) : TickFrame n s (channelPulse s pin cmp ts) := by
  unfold channelPulse
  split_ifs
  · exact .refl n s
  · exact tickFrame_routePulse n s pin _ ts hp

theorem tickFrame_pwm1 (s : State) (ts : Nat) : TickFrame .t1 s (pwm1 s ts) := by
  unfold pwm1
  split_ifs
  · exact .refl .t1 s
  · exact (tickFrame_channelPulse .t1 s _ _ ts (.inl rfl)).trans (tickFrame_channelPulse .t1 _ _ _ ts (.inr rfl))

/-- A wrap of Timer0. -/
theorem wrap_t0 (s : State) (ts : Nat) :
    wrap .t0 s ts = requestInterrupt (emit (setTimer s .t0 (setOverflow s.t0)) (.ovf .t0 (BitVec.ofNat 64 ts)))
      (vectorOf s.cfg .t0) (intenBit s.inten .t0) := rfl

/-- A wrap of Timer1. -/
theorem wrap_t1 (s : State) (ts : Nat) :
    wrap .t1 s ts = pwm1 (requestInterrupt
      (emit (setTimer s .t1 (setOverflow s.t1)) (.ovf .t1 (BitVec.ofNat 64 ts)))
      (vectorOf s.cfg .t1) (intenBit s.inten .t1)) ts := rfl

theorem tickFrame_wrap (n : TimerId) (s : State) (ts : Nat) : TickFrame n s (wrap n s ts) := by
  have h : ∀ v en, TickFrame n s (requestInterrupt
      (emit (setTimer s n (setOverflow (timer s n))) (.ovf n (BitVec.ofNat 64 ts))) v en) := fun v en =>
    ((tickFrame_setTimer n s _ rfl).trans (tickFrame_emit n _ _)).trans (tickFrame_request n _ v en)
  cases n with
  | t0 => exact h _ _
  | t1 => exact (h _ _).trans (tickFrame_pwm1 _ ts)

theorem tickFrame_compareCheck (n : TimerId) (s : State) (ts : Nat) : TickFrame n s (compareCheck n s ts) := by
  have h : ∀ (u : State) ch c, TickFrame n u (compareChannel n u ch c ts) := fun u ch c => by
    unfold compareChannel
    split_ifs
    · exact tickFrame_emit ..
    · exact .refl n u
  exact (h s .a _).trans (h _ .b _)

/-- A count at the TOP wraps. -/
theorem count_of_le (n : TimerId) (s : State) (ts : Nat)
    (h : effTop n (timer s n) ≤ (timer s n).counter.toNat + 1) :
    count n s ts =
      (compareCheck n (wrap n (setTimer s n { timer s n with counter := 0 }) ts) ts, 1) := if_pos h

/-- A count below the TOP adds one. -/
theorem count_of_lt (n : TimerId) (s : State) (ts : Nat)
    (h : (timer s n).counter.toNat + 1 < effTop n (timer s n)) :
    count n s ts =
      (compareCheck n (setTimer s n { timer s n with counter := (timer s n).counter + 1 }) ts, 0) :=
  if_neg (by omega)

theorem tickFrame_count (n : TimerId) (s : State) (ts : Nat) : TickFrame n s (count n s ts).1 := by
  rcases le_or_gt (effTop n (timer s n)) ((timer s n).counter.toNat + 1) with h | h
  · rw [count_of_le n s ts h]
    exact ((tickFrame_setTimer n s _ rfl).trans (tickFrame_wrap n _ ts)).trans (tickFrame_compareCheck n _ ts)
  · rw [count_of_lt n s ts h]
    exact (tickFrame_setTimer n s _ rfl).trans (tickFrame_compareCheck n _ ts)

theorem tickFrame_tickCycle (n : TimerId) (s : State) (rest : Nat) : TickFrame n s (tickCycle n s rest).1 := by
  unfold tickCycle
  split_ifs
  · exact (tickFrame_setResidue n s 0).trans (tickFrame_count n _ _)
  · exact tickFrame_setResidue n s _

theorem tickFrame_tickCycles (n : TimerId) (c : Nat) (s : State) (ovf : Nat) :
    TickFrame n s (tickCycles n c s ovf).1 := by
  induction c generalizing s ovf with
  | zero => exact .refl n s
  | succ c ih => exact (tickFrame_tickCycle n s c).trans (ih _ _)

/-- The frame of a tick. -/
theorem tickFrame_tick (n : TimerId) (s : State) (c : Nat) : TickFrame n s (tick n s c).1 := by
  unfold tick
  split_ifs
  · exact .refl n s
  · exact tickFrame_tickCycles ..

/-- Ticking Timer0 reaches no actuator. -/
theorem act_tick_t0 (s : State) (c : Nat) : (tick .t0 s c).1.act = s.act := by
  have hw : ∀ (u : State) ts, (wrap .t0 u ts).act = u.act := fun u ts => by simp [wrap_t0]
  have hc : ∀ (u : State) ts, (compareCheck .t0 u ts).act = u.act := fun u ts => by
    simp only [compareCheck, compareChannel]; split_ifs <;> rfl
  have h1 : ∀ (u : State) ts, (count .t0 u ts).1.act = u.act := fun u ts => by
    rcases le_or_gt (effTop .t0 (timer u .t0)) ((timer u .t0).counter.toNat + 1) with h | h
    · rw [count_of_le _ u ts h]; simp [hc, hw]
    · rw [count_of_lt _ u ts h]; simp [hc]
  have h2 : ∀ c (u : State) ovf, (tickCycles .t0 c u ovf).1.act = u.act := fun c => by
    induction c with
    | zero => exact fun _ _ => rfl
    | succ c ih =>
      intro u ovf
      simp only [tickCycles, ih, tickCycle]
      split_ifs <;> simp [h1]
  unfold tick
  split_ifs
  · rfl
  · exact h2 ..

/-! ### What the parts do to the ticked timer -/

@[simp] theorem timer_routePulse (s : State) (n : TimerId) (pin : Pin) (pw now : Nat) :
    timer (routePulseAt s pin pw now) n = timer s n := by simp [routePulseAt]

@[simp] theorem residue_routePulse (s : State) (n : TimerId) (pin : Pin) (pw now : Nat) :
    residue (routePulseAt s pin pw now) n = residue s n := by simp [routePulseAt]

@[simp] theorem timer_channelPulse (s : State) (n : TimerId) (pin : Pin) (cmp : BitVec 16) (ts : Nat) :
    timer (channelPulse s pin cmp ts) n = timer s n := by unfold channelPulse; split_ifs <;> simp

@[simp] theorem residue_channelPulse (s : State) (n : TimerId) (pin : Pin) (cmp : BitVec 16) (ts : Nat) :
    residue (channelPulse s pin cmp ts) n = residue s n := by unfold channelPulse; split_ifs <;> simp

@[simp] theorem timer_pwm1 (s : State) (n : TimerId) (ts : Nat) : timer (pwm1 s ts) n = timer s n := by
  unfold pwm1; split_ifs <;> simp

@[simp] theorem residue_pwm1 (s : State) (n : TimerId) (ts : Nat) : residue (pwm1 s ts) n = residue s n := by
  unfold pwm1; split_ifs <;> simp

theorem timer_wrap (n : TimerId) (s : State) (ts : Nat) : timer (wrap n s ts) n = setOverflow (timer s n) := by
  unfold wrap; cases n <;> simp only [timer_pwm1, timer_requestInterrupt, timer_emit, timer_setTimer]

theorem residue_wrap (n : TimerId) (s : State) (ts : Nat) : residue (wrap n s ts) n = residue s n := by
  unfold wrap
  cases n <;> simp only [residue_pwm1, residue_requestInterrupt, residue_emit, residue_setTimer]

@[simp] theorem timer_compareCheck (n : TimerId) (s : State) (ts : Nat) :
    timer (compareCheck n s ts) n = timer s n := by
  simp only [compareCheck, compareChannel]; split_ifs <;> simp

@[simp] theorem residue_compareCheck (n : TimerId) (s : State) (ts : Nat) :
    residue (compareCheck n s ts) n = residue s n := by
  simp only [compareCheck, compareChannel]; split_ifs <;> simp

/-- One count of the ticked timer (R92): it wraps at its TOP, and only then sets its flag. -/
theorem timer_count (n : TimerId) (s : State) (ts : Nat) :
    timer (count n s ts).1 n =
      if effTop n (timer s n) ≤ (timer s n).counter.toNat + 1 then
        { timer s n with counter := 0, overflowFlag := true }
      else { timer s n with counter := (timer s n).counter + 1 } := by
  rcases le_or_gt (effTop n (timer s n)) ((timer s n).counter.toNat + 1) with h | h
  · rw [count_of_le n s ts h, if_pos h]; simp [timer_wrap, setOverflow]
  · rw [count_of_lt n s ts h, if_neg (by omega)]; simp

theorem residue_count (n : TimerId) (s : State) (ts : Nat) : residue (count n s ts).1 n = residue s n := by
  rcases le_or_gt (effTop n (timer s n)) ((timer s n).counter.toNat + 1) with h | h
  · rw [count_of_le n s ts h]; simp [residue_wrap]
  · rw [count_of_lt n s ts h]; simp

theorem count_snd (n : TimerId) (s : State) (ts : Nat) :
    (count n s ts).2 = if effTop n (timer s n) ≤ (timer s n).counter.toNat + 1 then 1 else 0 := by
  rcases le_or_gt (effTop n (timer s n)) ((timer s n).counter.toNat + 1) with h | h
  · rw [count_of_le n s ts h, if_pos h]
  · rw [count_of_lt n s ts h, if_neg (by omega)]

/-- The TOP is not changed by counting. -/
theorem effTop_count (n : TimerId) (s : State) (ts : Nat) :
    effTop n (timer (count n s ts).1 n) = effTop n (timer s n) := by
  rw [(tickFrame_count n s ts).timer_eq]; rfl

theorem effTop_pos (n : TimerId) (t : TimerState) : 0 < effTop n t := by
  unfold effTop
  split_ifs with h
  · cases n <;> decide
  · have : t.top.toNat ≠ 0 := fun h0 => h (BitVec.eq_of_toNat_eq h0)
    omega

theorem effTop_le (n : TimerId) (t : TimerState) : effTop n t ≤ 65535 := by
  unfold effTop
  split_ifs
  · cases n <;> decide
  · have := t.top.isLt; omega

/-- One cycle: either the residue reaches the prescaler and one count happens, or it grows by one. -/
theorem tickCycle_cases (n : TimerId) (s : State) (rest : Nat) :
    ((timer s n).prescaler.toNat ≤ (residue s n).toNat + 1
      ∧ tickCycle n s rest = count n (setResidue s n 0) (wrapTime s.cpuCycles.toNat rest))
    ∨ ((residue s n).toNat + 1 < (timer s n).prescaler.toNat
      ∧ tickCycle n s rest = (setResidue s n (residue s n + 1), 0)) := by
  unfold tickCycle
  by_cases h : (timer s n).prescaler.toNat ≤ (residue s n).toNat + 1
  · exact .inl ⟨h, if_pos h⟩
  · exact .inr ⟨by omega, if_neg h⟩

/-- The count a batch starts from is added to. -/
theorem tickCycles_ovf (n : TimerId) (c : Nat) (s : State) (ovf : Nat) :
    tickCycles n c s ovf = ((tickCycles n c s 0).1, ovf + (tickCycles n c s 0).2) := by
  induction c generalizing s ovf with
  | zero => rfl
  | succ c ih =>
    simp only [tickCycles]
    rw [ih _ (ovf + _), ih _ (0 + _)]
    simp [Nat.add_assoc]

/-! ### The trace of a count -/

@[simp] theorem routePulseAt_out (s : State) (pin : Pin) (pw now : Nat) :
    (routePulseAt s pin pw now).out =
      s.out ++ [.pulse pin .high (BitVec.ofNat 64 now), .pulse pin .low (BitVec.ofNat 64 (now + pw))] := by
  simp [routePulseAt]

@[simp] theorem routePulseAt_int (s : State) (pin : Pin) (pw now : Nat) :
    (routePulseAt s pin pw now).int = s.int := rfl

/-- A channel's pulse adds its two events to the trace, or nothing for a compare register of 0. -/
theorem channelPulse_out (s : State) (pin : Pin) (cmp : BitVec 16) (ts : Nat) :
    (channelPulse s pin cmp ts).out = s.out ++
      if cmp = 0 then [] else
        [.pulse pin .high (BitVec.ofNat 64 ts), .pulse pin .low (BitVec.ofNat 64
          (ts + pulseUs cmp.toNat s.t1.top.toNat (periodUs s.t1.top.toNat s.t1.prescaler.toNat)))] := by
  unfold channelPulse
  split_ifs <;> simp

@[simp] theorem channelPulse_int (s : State) (pin : Pin) (cmp : BitVec 16) (ts : Nat) :
    (channelPulse s pin cmp ts).int = s.int := by unfold channelPulse; split_ifs <;> rfl

@[simp] theorem pwm1_int (s : State) (ts : Nat) : (pwm1 s ts).int = s.int := by unfold pwm1; split_ifs <;> simp

/-- A wrap queues one request where the source's enable bit is set. -/
theorem wrap_int (n : TimerId) (s : State) (ts : Nat) :
    (wrap n s ts).int = (requestInterrupt s (vectorOf s.cfg n) (intenBit s.inten n)).int := by
  unfold wrap
  cases n <;> cases h : intenBit s.inten _ <;> simp [requestInterrupt, h]

/-- The compare events of a check (R97): A, then B. -/
def hits (n : TimerId) (t : TimerState) (ts : Nat) : List Event :=
  (if t.compareA ≠ 0 ∧ t.counter = t.compareA then [.cmp n .a (BitVec.ofNat 64 ts)] else [])
    ++ if t.compareB ≠ 0 ∧ t.counter = t.compareB then [.cmp n .b (BitVec.ofNat 64 ts)] else []

/-- The pulse events of a wrap (R94): channel A, then channel B. -/
def pulses (s : State) (ts : Nat) : List Event :=
  let pair : Pin → BitVec 16 → List Event := fun pin cmp =>
    if cmp = 0 then [] else
      [.pulse pin .high (BitVec.ofNat 64 ts), .pulse pin .low (BitVec.ofNat 64
        (ts + pulseUs cmp.toNat s.t1.top.toNat (periodUs s.t1.top.toNat s.t1.prescaler.toNat)))]
  if s.t1.top = 0 then [] else pair s.cfg.pinOc1a s.t1.compareA ++ pair s.cfg.pinOc1b s.t1.compareB

/-- A check adds its compare events to the trace and changes nothing else. -/
theorem compareCheck_eq (n : TimerId) (s : State) (ts : Nat) :
    compareCheck n s ts = { s with out := s.out ++ hits n (timer s n) ts } := by
  have h : ∀ (u : State) ch c, compareChannel n u ch c ts = { u with
      out := u.out ++ if c ≠ 0 ∧ (timer u n).counter = c then [.cmp n ch (BitVec.ofNat 64 ts)] else [] } :=
    fun u ch c => by
      unfold compareChannel
      split_ifs
      · rfl
      · simp
  have ht : ∀ evs, timer { s with out := evs } n = timer s n := fun evs => by cases n <;> rfl
  simp only [compareCheck, h, ht, hits, List.append_assoc]

/-- A count at the TOP is a wrap and nothing more: a compare match never coincides with it (R97). -/
theorem count_of_wrap (n : TimerId) (s : State) (ts : Nat)
    (h : effTop n (timer s n) ≤ (timer s n).counter.toNat + 1) :
    count n s ts = (wrap n (setTimer s n { timer s n with counter := 0 }) ts, 1) := by
  rw [count_of_le n s ts h, compareCheck_eq]
  have hc : (timer (wrap n (setTimer s n { timer s n with counter := 0 }) ts) n).counter = 0 := by
    rw [timer_wrap, timer_setTimer]; rfl
  have : hits n (timer (wrap n (setTimer s n { timer s n with counter := 0 }) ts) n) ts = [] := by
    unfold hits
    rw [hc, if_neg fun ⟨x, y⟩ => x y.symm, if_neg fun ⟨x, y⟩ => x y.symm]
    rfl
  rw [this, List.append_nil]

/-- The pulses of a wrap go to the trace in order. -/
theorem pwm1_out (s : State) (ts : Nat) : (pwm1 s ts).out = s.out ++ pulses s ts := by
  have h1 : (channelPulse s s.cfg.pinOc1a s.t1.compareA ts).t1 = s.t1 := timer_channelPulse s .t1 ..
  have h2 : (channelPulse s s.cfg.pinOc1a s.t1.compareA ts).cfg = s.cfg :=
    (tickFrame_channelPulse .t1 s _ _ ts (.inl rfl)).cfg_eq
  unfold pwm1
  by_cases h : s.t1.top = 0
  · simp [pulses, h]
  · simp only [h, if_false, channelPulse_out, h1, h2, pulses, List.append_assoc]

/-- A wrap adds its overflow to the trace and then, on Timer1, its pulses. -/
theorem wrap_out (n : TimerId) (s : State) (ts : Nat) :
    (wrap n s ts).out = s.out ++ .ovf n (BitVec.ofNat 64 ts) :: if n = .t1 then pulses s ts else [] := by
  cases n
  · simp [wrap_t0]
  · rw [wrap_t1, pwm1_out]
    simp [pulses, setOverflow]

@[simp] theorem compareCheck_int (n : TimerId) (s : State) (ts : Nat) : (compareCheck n s ts).int = s.int := by
  simp only [compareCheck, compareChannel]; split_ifs <;> rfl

@[simp] theorem compareCheck_act (n : TimerId) (s : State) (ts : Nat) : (compareCheck n s ts).act = s.act := by
  simp only [compareCheck, compareChannel]; split_ifs <;> rfl

/-- What one count adds to the trace: its overflow and pulses if it wraps, then its compare events. -/
theorem count_out (n : TimerId) (s : State) (ts : Nat) :
    (count n s ts).1.out = s.out
      ++ (if effTop n (timer s n) ≤ (timer s n).counter.toNat + 1 then
          .ovf n (BitVec.ofNat 64 ts) :: (if n = .t1 then pulses s ts else [])
        else [])
      ++ hits n (timer (count n s ts).1 n) ts := by
  have ht : ∀ (u : State) evs, timer { u with out := evs } n = timer u n := fun u evs => by cases n <;> rfl
  rcases le_or_gt (effTop n (timer s n)) ((timer s n).counter.toNat + 1) with h | h
  · rw [count_of_le _ s ts h, if_pos h, compareCheck_eq]
    simp only [ht, wrap_out, setTimer_out]
    congr 3
    cases n
    · rfl
    · simp [pulses]
  · rw [count_of_lt _ s ts h, if_neg (by omega), compareCheck_eq]
    simp only [ht, setTimer_out, List.append_nil]

/-- What one count does to the controller: a wrap asks for the interrupt. -/
theorem count_int (n : TimerId) (s : State) (ts : Nat) :
    (count n s ts).1.int =
      if effTop n (timer s n) ≤ (timer s n).counter.toNat + 1 then
        (requestInterrupt s (vectorOf s.cfg n) (intenBit s.inten n)).int
      else s.int := by
  rcases le_or_gt (effTop n (timer s n)) ((timer s n).counter.toNat + 1) with h | h
  · rw [count_of_le _ s ts h, if_pos h]
    simp only [compareCheck_int, wrap_int]
    cases hb : intenBit s.inten n <;> simp [hb, requestInterrupt]
  · rw [count_of_lt _ s ts h, if_neg (by omega)]; simp

end Sys2Proof.Machine
end

