-- ==== Sys2Proof/Laws/Exec.lean ====
section
/-! SUPPORT. Sequencing, principals, and that no operation reads the port or the response: what is waiting and what was answered
before reach nothing else. -/

namespace Sys2Proof.Machine

open Sys2Proof

@[simp] theorem andThen_next (s : State) (f : State → Result) : andThen (.next s) f = f s := rfl
@[simp] theorem andThen_fault (e : Fault) (f : State → Result) : andThen (.fault e) f = .fault e := rfl
@[simp] theorem andThen_refused (e : Refusal) (f : State → Result) : andThen (.refused e) f = .refused e := rfl

/-- Two operations complete exactly when the first does and then the second. -/
theorem andThen_eq_next (r : Result) (f : State → Result) (t : State) :
    andThen r f = .next t ↔ ∃ u, r = .next u ∧ f u = .next t := by
  cases r <;> simp

theorem stepOnly_of (s : State) (r : Result) (h : s.src = .stepLoop) : stepOnly s r = r := if_pos h
theorem hostOnly_of (s : State) (r : Result) (h : s.src = .host) : hostOnly s r = r := if_pos h
theorem stepOnly_ne (s : State) (r : Result) (h : s.src ≠ .stepLoop) : stepOnly s r = .next s := if_neg h
theorem hostOnly_ne (s : State) (r : Result) (h : s.src ≠ .host) : hostOnly s r = .next s := if_neg h

@[simp] theorem execAll_nil (s : State) : execAll [] s = .next s := rfl
@[simp] theorem execAll_cons (i : Instr) (is : List Instr) (s : State) :
    execAll (i :: is) s = andThen (exec i s) (execAll is) := rfl

/-- A sequence of operations in two parts. -/
theorem execAll_append (a b : List Instr) (s : State) :
    execAll (a ++ b) s = andThen (execAll a s) (execAll b) := by
  induction a generalizing s with
  | nil => rfl
  | cons i a ih =>
    simp only [List.cons_append, execAll_cons]
    cases exec i s <;> simp [ih]

/-! ### What a step does -/

theorem step_nil (s : State) (h : s.cmds = []) : step s = .next s := by simp [step, fetch, h]

/-- A word with an instruction runs it on the state that has accepted the word. -/
theorem step_ok (s : State) (w : BusWord) (rest : List BusWord) (i : Instr) (hc : s.cmds = w :: rest)
    (hd : decode (payload w) = .ok i) : step s = exec i (accept s w rest) := by
  simp [step, fetch, hc, hd]

/-- A word without an instruction is accepted and does nothing else. -/
theorem step_error (s : State) (w : BusWord) (rest : List BusWord) (e : DecodeReject) (hc : s.cmds = w :: rest)
    (hd : decode (payload w) = .error e) : step s = .next (accept s w rest) := by
  simp [step, fetch, hc, hd]

/-! ### The LCD bytes as effects on the selected instance -/

theorem exec_lcdNop (s : State) :
    exec .lcdNop s = onSelectedLcd s (fun st => some st) := rfl
theorem exec_lcdClear (s : State) :
    exec .lcdClear s = onSelectedLcd s (fun st => some (clearDisplay st)) := rfl
theorem exec_lcdHome (s : State) :
    exec .lcdHome s = onSelectedLcd s (fun st => some (returnHome st)) := rfl
theorem exec_lcdEntry (d sh : Bool) (s : State) :
    exec (.lcdEntry d sh) s = onSelectedLcd s (fun st => some (setEntryMode st d sh)) := rfl
theorem exec_lcdDispctl (d c b : Bool) (s : State) :
    exec (.lcdDispctl d c b) s = onSelectedLcd s (fun st => some (setDisplayControl st d c b)) := rfl
theorem exec_lcdShift (sc rl : Bool) (s : State) :
    exec (.lcdShift sc rl) s = onSelectedLcd s (fun st => some (shiftCommand st)) := rfl
theorem exec_lcdFuncset (l n f : Bool) (s : State) :
    exec (.lcdFuncset l n f) s = onSelectedLcd s (fun st => some (setFunction st l n f)) := rfl
theorem exec_lcdSetcgram (a : BitVec 6) (s : State) :
    exec (.lcdSetcgram a) s = onSelectedLcd s (fun st => some (setCgramAddr st)) := rfl
theorem exec_lcdSetddram (a : BitVec 7) (s : State) :
    exec (.lcdSetddram a) s = onSelectedLcd s (fun st => some (setDdramAddr st a)) := rfl
theorem exec_lcdData (b : Byte) (s : State) :
    exec (.lcdData b) s = onSelectedLcd s (fun st => writeData st b) := rfl

/-- A byte on an LCD that is there. -/
theorem onSelectedLcd_of (s : State) (st st' : LcdState) (p : LcdPins) (f : LcdState → Option LcdState)
    (h : lcdAt s s.lcdSel = some (st, p)) (hf : f st = some st') :
    onSelectedLcd s f = .next { s with act := actSet s.lcdSel (.lcd st' p) s.act } := by
  simp [onSelectedLcd, h, hf]

/-- A byte nothing receives. -/
theorem onSelectedLcd_none (s : State) (f : LcdState → Option LcdState) (h : lcdAt s s.lcdSel = none) :
    onSelectedLcd s f = .next s := by
  simp [onSelectedLcd, h]

/-- A byte operation changes the actuator table only. -/
theorem onSelectedLcd_next (s t : State) (f : LcdState → Option LcdState) (h : onSelectedLcd s f = .next t) :
    t = { s with act := t.act } := by
  unfold onSelectedLcd at h
  split at h
  · split at h <;> cases h; rfl
  · cases h; rfl

/-! ### The port and the response are read by no operation -/

/-- `s` with other words waiting and another response. -/
def withIo (c : List BusWord) (r : Resp) (s : State) : State := { s with cmds := c, resp := r }

@[simp] theorem withIo_cfg (c : List BusWord) (r : Resp) (s : State) : (withIo c r s).cfg = s.cfg := rfl
@[simp] theorem withIo_src (c : List BusWord) (r : Resp) (s : State) : (withIo c r s).src = s.src := rfl
@[simp] theorem withIo_lcdSel (c : List BusWord) (r : Resp) (s : State) : (withIo c r s).lcdSel = s.lcdSel := rfl
@[simp] theorem withIo_cpuCycles (c : List BusWord) (r : Resp) (s : State) : (withIo c r s).cpuCycles = s.cpuCycles := rfl
@[simp] theorem withIo_t0 (c : List BusWord) (r : Resp) (s : State) : (withIo c r s).t0 = s.t0 := rfl
@[simp] theorem withIo_t1 (c : List BusWord) (r : Resp) (s : State) : (withIo c r s).t1 = s.t1 := rfl
@[simp] theorem withIo_prescCnt0 (c : List BusWord) (r : Resp) (s : State) : (withIo c r s).prescCnt0 = s.prescCnt0 := rfl
@[simp] theorem withIo_prescCnt1 (c : List BusWord) (r : Resp) (s : State) : (withIo c r s).prescCnt1 = s.prescCnt1 := rfl
@[simp] theorem withIo_inten (c : List BusWord) (r : Resp) (s : State) : (withIo c r s).inten = s.inten := rfl
@[simp] theorem withIo_int (c : List BusWord) (r : Resp) (s : State) : (withIo c r s).int = s.int := rfl
@[simp] theorem withIo_registry (c : List BusWord) (r : Resp) (s : State) : (withIo c r s).registry = s.registry := rfl
@[simp] theorem withIo_act (c : List BusWord) (r : Resp) (s : State) : (withIo c r s).act = s.act := rfl
@[simp] theorem withIo_pinlvl (c : List BusWord) (r : Resp) (s : State) : (withIo c r s).pinlvl = s.pinlvl := rfl
@[simp] theorem withIo_port (c : List BusWord) (r : Resp) (s : State) : (withIo c r s).port = s.port := rfl
@[simp] theorem withIo_cpu (c : List BusWord) (r : Resp) (s : State) : (withIo c r s).cpu = s.cpu := rfl
@[simp] theorem withIo_out (c : List BusWord) (r : Resp) (s : State) : (withIo c r s).out = s.out := rfl
@[simp] theorem withIo_cmds (c : List BusWord) (r : Resp) (s : State) : (withIo c r s).cmds = c := rfl
@[simp] theorem withIo_resp (c : List BusWord) (r : Resp) (s : State) : (withIo c r s).resp = r := rfl

/-- `s` without what waits and what was answered. -/
def stripIo (s : State) : State := withIo [] .notMeaningful s

theorem stripIo_withIo (c : List BusWord) (r : Resp) (s : State) : stripIo (withIo c r s) = stripIo s := rfl

/-- `s` with other words waiting, another response and another clock reading: what counting reads none of. -/
def withClock (c : List BusWord) (r : Resp) (k : BitVec 64) (s : State) : State :=
  { s with cmds := c, resp := r, cpuCycles := k }

@[simp] theorem withClock_cfg (c : List BusWord) (r : Resp) (k : BitVec 64) (s : State) :
    (withClock c r k s).cfg = s.cfg := rfl
@[simp] theorem withClock_t0 (c : List BusWord) (r : Resp) (k : BitVec 64) (s : State) :
    (withClock c r k s).t0 = s.t0 := rfl
@[simp] theorem withClock_t1 (c : List BusWord) (r : Resp) (k : BitVec 64) (s : State) :
    (withClock c r k s).t1 = s.t1 := rfl
@[simp] theorem withClock_inten (c : List BusWord) (r : Resp) (k : BitVec 64) (s : State) :
    (withClock c r k s).inten = s.inten := rfl
@[simp] theorem withClock_cpuCycles (c : List BusWord) (r : Resp) (k : BitVec 64) (s : State) :
    (withClock c r k s).cpuCycles = k := rfl

theorem timer_withClock (c : List BusWord) (r : Resp) (k : BitVec 64) (s : State) (n : TimerId) : timer (withClock c r k s) n = timer s n := by
  cases n <;> rfl
theorem residue_withClock (c : List BusWord) (r : Resp) (k : BitVec 64) (s : State) (n : TimerId) :
    residue (withClock c r k s) n = residue s n := by cases n <;> rfl
theorem setTimer_withClock (c : List BusWord) (r : Resp) (k : BitVec 64) (s : State) (n : TimerId) (t : TimerState) :
    setTimer (withClock c r k s) n t = withClock c r k (setTimer s n t) := by cases n <;> rfl
theorem setResidue_withClock (c : List BusWord) (r : Resp) (k : BitVec 64) (s : State) (n : TimerId) (v : BitVec 16) :
    setResidue (withClock c r k s) n v = withClock c r k (setResidue s n v) := by cases n <;> rfl
theorem request_withClock (c : List BusWord) (r : Resp) (k : BitVec 64) (s : State) (v : BitVec 16) (en : Bool) :
    requestInterrupt (withClock c r k s) v en = withClock c r k (requestInterrupt s v en) := by cases en <;> rfl

theorem emit_withClock (c : List BusWord) (r : Resp) (k : BitVec 64) (s : State) (e : Event) :
    emit (withClock c r k s) e = withClock c r k (emit s e) := rfl
theorem routePulse_withClock (c : List BusWord) (r : Resp) (k : BitVec 64) (s : State) (pin : Pin) (pw now : Nat) :
    routePulseAt (withClock c r k s) pin pw now = withClock c r k (routePulseAt s pin pw now) := rfl

theorem channelPulse_withClock (c : List BusWord) (r : Resp) (k : BitVec 64) (s : State) (pin : Pin) (cmp : BitVec 16) (ts : Nat) :
    channelPulse (withClock c r k s) pin cmp ts = withClock c r k (channelPulse s pin cmp ts) := by
  unfold channelPulse
  split_ifs
  · rfl
  · rw [withClock_t1, routePulse_withClock]

/-- The state with another principal; no pulse reads it. -/
def withSrc (p : Principal) (s : State) : State := { s with src := p }

@[simp] theorem withSrc_t1 (p : Principal) (s : State) : (withSrc p s).t1 = s.t1 := rfl
@[simp] theorem withSrc_src (p : Principal) (s : State) : (withSrc p s).src = p := rfl
theorem routePulse_withSrc (p : Principal) (s : State) (pin : Pin) (pw now : Nat) :
    routePulseAt (withSrc p s) pin pw now = withSrc p (routePulseAt s pin pw now) := rfl

theorem channelPulse_withSrc (p : Principal) (s : State) (pin : Pin) (cmp : BitVec 16) (ts : Nat) :
    channelPulse (withSrc p s) pin cmp ts = withSrc p (channelPulse s pin cmp ts) := by
  unfold channelPulse
  split_ifs
  · rfl
  · rw [withSrc_t1, routePulse_withSrc]

/-- The pulse width of R95 in one formula. -/
theorem pulseUs_periodUs (cmp top prescaler : Nat) :
    pulseUs cmp top (periodUs top prescaler) = cmp * (top * prescaler * 1000000 / 16000000) / top := by
  simp only [pulseUs, periodUs, show clockHz = 16000000 from rfl]

/-- The pulses of a wrap, without the binding of the intermediate state. -/
theorem pwm1_eq (s : State) (ts : Nat) :
    pwm1 s ts = if s.t1.top = 0 then s else
      channelPulse (channelPulse s s.cfg.pinOc1a s.t1.compareA ts)
        (channelPulse s s.cfg.pinOc1a s.t1.compareA ts).cfg.pinOc1b
        (channelPulse s s.cfg.pinOc1a s.t1.compareA ts).t1.compareB ts := rfl

theorem pwm1_withClock (c : List BusWord) (r : Resp) (k : BitVec 64) (s : State) (ts : Nat) :
    pwm1 (withClock c r k s) ts = withClock c r k (pwm1 s ts) := by
  simp only [pwm1_eq, withClock_t1, withClock_cfg, channelPulse_withClock]
  split_ifs <;> rfl

theorem wrap_withClock (c : List BusWord) (r : Resp) (k : BitVec 64) (s : State) (n : TimerId) (ts : Nat) :
    wrap n (withClock c r k s) ts = withClock c r k (wrap n s ts) := by
  cases n
  · simp only [wrap_t0, withClock_t0, withClock_cfg, withClock_inten, setTimer_withClock, emit_withClock, request_withClock]
  · simp only [wrap_t1, withClock_t1, withClock_cfg, withClock_inten, setTimer_withClock, emit_withClock, request_withClock, pwm1_withClock]

theorem compareChannel_withClock (c : List BusWord) (r : Resp) (k : BitVec 64) (n : TimerId) (s : State) (ch : Channel)
    (cmp : BitVec 16) (ts : Nat) :
    compareChannel n (withClock c r k s) ch cmp ts = withClock c r k (compareChannel n s ch cmp ts) := by
  unfold compareChannel
  rw [timer_withClock]
  split_ifs <;> rfl

theorem compareCheck_withClock (c : List BusWord) (r : Resp) (k : BitVec 64) (n : TimerId) (s : State) (ts : Nat) :
    compareCheck n (withClock c r k s) ts = withClock c r k (compareCheck n s ts) := by
  simp only [compareCheck, timer_withClock, compareChannel_withClock]

theorem count_withClock (c : List BusWord) (r : Resp) (k : BitVec 64) (n : TimerId) (s : State) (ts : Nat) :
    count n (withClock c r k s) ts = (withClock c r k (count n s ts).1, (count n s ts).2) := by
  rcases le_or_gt (effTop n (timer s n)) ((timer s n).counter.toNat + 1) with h | h
  · rw [count_of_le n s ts h, count_of_le n _ ts (by rw [timer_withClock]; exact h), timer_withClock, setTimer_withClock,
      wrap_withClock, compareCheck_withClock]
  · rw [count_of_lt n s ts h, count_of_lt n _ ts (by rw [timer_withClock]; exact h), timer_withClock, setTimer_withClock,
      compareCheck_withClock]

theorem timer_withIo (c : List BusWord) (r : Resp) (s : State) (n : TimerId) : timer (withIo c r s) n = timer s n := by
  cases n <;> rfl
theorem residue_withIo (c : List BusWord) (r : Resp) (s : State) (n : TimerId) :
    residue (withIo c r s) n = residue s n := by cases n <;> rfl
theorem setResidue_withIo (c : List BusWord) (r : Resp) (s : State) (n : TimerId) (v : BitVec 16) :
    setResidue (withIo c r s) n v = withIo c r (setResidue s n v) := by cases n <;> rfl
theorem routePulse_withIo (c : List BusWord) (r : Resp) (s : State) (pin : Pin) (pw now : Nat) :
    routePulseAt (withIo c r s) pin pw now = withIo c r (routePulseAt s pin pw now) := rfl

theorem withIo_eq_withClock (c : List BusWord) (r : Resp) (s : State) (k : BitVec 64) (h : s.cpuCycles = k) :
    withIo c r s = withClock c r k s := by subst h; rfl

theorem count_withIo (c : List BusWord) (r : Resp) (n : TimerId) (s : State) (ts : Nat) :
    count n (withIo c r s) ts = (withIo c r (count n s ts).1, (count n s ts).2) := by
  rw [withIo_eq_withClock c r s _ rfl, withIo_eq_withClock c r _ _ (tickFrame_count n s ts).cpuCycles_eq,
    count_withClock]

theorem tickCycle_withIo (c : List BusWord) (r : Resp) (n : TimerId) (s : State) (rest : Nat) :
    tickCycle n (withIo c r s) rest = (withIo c r (tickCycle n s rest).1, (tickCycle n s rest).2) := by
  unfold tickCycle
  rw [timer_withIo, residue_withIo]
  split_ifs
  · rw [setResidue_withIo, count_withIo]; rfl
  · rw [setResidue_withIo]

theorem tickCycles_withIo (c : List BusWord) (r : Resp) (n : TimerId) (k : Nat) (s : State) (ovf : Nat) :
    tickCycles n k (withIo c r s) ovf = (withIo c r (tickCycles n k s ovf).1, (tickCycles n k s ovf).2) := by
  induction k generalizing s ovf with
  | zero => rfl
  | succ k ih => simp only [tickCycles, tickCycle_withIo, ih]

theorem tick_withIo (c : List BusWord) (r : Resp) (n : TimerId) (s : State) (k : Nat) :
    tick n (withIo c r s) k = (withIo c r (tick n s k).1, (tick n s k).2) := by
  unfold tick
  rw [timer_withIo]
  split_ifs
  · rfl
  · exact tickCycles_withIo ..

theorem pinChange_withIo (c : List BusWord) (r : Resp) (s : State) (pin : Pin) (level : Bool) :
    pinChange (withIo c r s) pin level = seenThrough (withIo c r) (pinChange s pin level) := by
  unfold pinChange
  rw [withIo_pinlvl, withIo_act]
  by_cases h : levelOf s.pinlvl pin = level
  · rw [if_pos h, if_pos h]; rfl
  · rw [if_neg h, if_neg h]
    cases level
    · simp only [Bool.false_eq_true, if_false]
      cases latchAll (setLevel s.pinlvl pin false) pin s.act <;> rfl
    · rfl

theorem portChanges_withIo (c : List BusWord) (r : Resp) (port : Nat) (old v : Byte) (bits : List Nat) (s : State) :
    portChanges port old v bits (withIo c r s) = seenThrough (withIo c r) (portChanges port old v bits s) := by
  induction bits generalizing s with
  | nil => rfl
  | cons b bits ih =>
    simp only [portChanges]
    split_ifs
    · exact ih s
    · rw [show (withIo c r s).cfg = s.cfg from rfl]
      cases portPinOf s.cfg port b with
      | none => exact ih s
      | some p =>
        simp only [pinChange_withIo]
        cases pinChange s p (v.getLsbD b) with
        | next t => exact ih t
        | fault e => rfl
        | refused e => rfl

theorem stepOnly_withIo (c : List BusWord) (r : Resp) (s : State) (x y : Result)
    (h : seenThrough stripIo x = seenThrough stripIo y) :
    seenThrough stripIo (stepOnly (withIo c r s) x) = seenThrough stripIo (stepOnly s y) := by
  unfold stepOnly
  rw [withIo_src]
  split_ifs
  · exact h
  · rfl

theorem hostOnly_withIo (c : List BusWord) (r : Resp) (s : State) (x y : Result)
    (h : seenThrough stripIo x = seenThrough stripIo y) :
    seenThrough stripIo (hostOnly (withIo c r s) x) = seenThrough stripIo (hostOnly s y) := by
  unfold hostOnly
  rw [withIo_src]
  split_ifs
  · exact h
  · rfl

theorem seenThrough_stripIo_withIo (c : List BusWord) (r : Resp) (x : Result) :
    seenThrough stripIo (seenThrough (withIo c r) x) = seenThrough stripIo x := by
  cases x <;> rfl

theorem onSelectedLcd_withIo (c : List BusWord) (r : Resp) (s : State) (f : LcdState → Option LcdState) :
    seenThrough stripIo (onSelectedLcd (withIo c r s) f) = seenThrough stripIo (onSelectedLcd s f) := by
  unfold onSelectedLcd
  rw [show lcdAt (withIo c r s) (withIo c r s).lcdSel = lcdAt s s.lcdSel from rfl]
  cases lcdAt s s.lcdSel with
  | none => rfl
  | some x => cases h : f x.1 <;> (simp only [h]; try rfl)

theorem tickResult_withIo (c : List BusWord) (r : Resp) (n : TimerId) (s : State) (k : BitVec 32) :
    stripIo (tickResult n (withIo c r s) k) = stripIo (tickResult n s k) := by
  simp only [tickResult, tick_withIo]
  rfl

/-- What waits on the port and what was answered before reach no operation. -/
theorem exec_withIo (c : List BusWord) (r : Resp) (i : Instr) (s : State) :
    seenThrough stripIo (exec i (withIo c r s)) = seenThrough stripIo (exec i s) := by
  cases i with
  | clkTick k =>
    refine stepOnly_withIo c r s _ _ ?_
    rw [withIo_cpuCycles]
    split_ifs <;> rfl
  | clkReset => rfl
  | clkMicros => simp only [exec, execClkMicros, withIo_cpuCycles]; rfl
  | clkMillis => simp only [exec, execClkMillis, withIo_cpuCycles]; rfl
  | clkSeconds => simp only [exec, execClkSeconds, withIo_cpuCycles, withIo_cfg]; rfl
  | t0Tick k => exact stepOnly_withIo c r s _ _ (congrArg Host.Outcome.next (tickResult_withIo c r .t0 s k))
  | t1Tick k => exact stepOnly_withIo c r s _ _ (congrArg Host.Outcome.next (tickResult_withIo c r .t1 s k))
  | regWr x v => refine stepOnly_withIo c r s _ _ ?_; cases x <;> rfl
  | regRd x => refine stepOnly_withIo c r s _ _ ?_; cases x <;> rfl
  | intReq v en => refine stepOnly_withIo c r s _ _ ?_; cases en <;> rfl
  | intPoll =>
    refine stepOnly_withIo c r s _ _ ?_
    rw [withIo_int, withIo_cpu]
    cases selectPending s.int.pending with
    | none => rfl
    | some e => cases s.cpu.i <;> rfl
  | intReti =>
    refine stepOnly_withIo c r s _ _ ?_
    unfold returnFromInterrupt
    rw [withIo_cpu]
    cases s.cpu.rstack <;> rfl
  | pwmReg pin id => rfl
  | pwmUnreg pin id => rfl
  | pwmRoute pin pw per => exact stepOnly_withIo c r s _ _ (by simp only [withIo_cpuCycles, routePulse_withIo, seenThrough, stripIo_withIo])
  | pwmRise pin ts => exact stepOnly_withIo c r s _ _ rfl
  | pwmFall pin ts => exact stepOnly_withIo c r s _ _ rfl
  | srvAnim dt =>
    refine hostOnly_withIo c r s _ _ ?_
    cases binary64Value dt with
    | none => rfl
    | some q => simp only; split_ifs <;> rfl
  | srvStall id flag =>
    refine hostOnly_withIo c r s _ _ ?_
    rw [show servoAt (withIo c r s) id = servoAt s id from rfl]
    cases servoAt s id <;> rfl
  | pinChg pin level =>
    exact stepOnly_withIo c r s _ _ (by rw [pinChange_withIo, seenThrough_stripIo_withIo])
  | gpioWr port v =>
    refine stepOnly_withIo c r s _ _ ?_
    rw [withIo_cfg]
    split_ifs
    · rw [show portRead (withIo c r s) port.toNat = portRead s port.toNat from rfl,
        show portWrite (withIo c r s) port.toNat v = withIo c r (portWrite s port.toNat v) from rfl,
        portChanges_withIo, seenThrough_stripIo_withIo]
    · rfl
  | lcdPinmap role id pin =>
    refine hostOnly_withIo c r s _ _ ?_
    rw [show lcdAt (withIo c r s) id = lcdAt s id from rfl]
    cases lcdAt s id <;> rfl
  | actAttach pin kind id =>
    refine hostOnly_withIo c r s _ _ ?_
    rw [withIo_act]
    cases actFind id s.act <;> cases kind <;> rfl
  | actDetach id => exact hostOnly_withIo c r s _ _ rfl
  | lcdGetbuf id =>
    refine hostOnly_withIo c r s _ _ ?_
    rw [show lcdAt (withIo c r s) id = lcdAt s id from rfl]
    cases lcdAt s id <;> rfl
  | sysReset => exact hostOnly_withIo c r s _ _ rfl
  | lcdNop => simp only [exec, execLcdNop, onSelectedLcd_withIo]
  | lcdClear => simp only [exec, execLcdClear, onSelectedLcd_withIo]
  | lcdHome => simp only [exec, execLcdHome, onSelectedLcd_withIo]
  | lcdEntry d sh => simp only [exec, execLcdEntry, onSelectedLcd_withIo]
  | lcdDispctl d c' b => simp only [exec, execLcdDispctl, onSelectedLcd_withIo]
  | lcdShift sc rl => simp only [exec, execLcdShift, onSelectedLcd_withIo]
  | lcdFuncset l n f => simp only [exec, execLcdFuncset, onSelectedLcd_withIo]
  | lcdSetcgram a => simp only [exec, execLcdSetcgram, onSelectedLcd_withIo]
  | lcdSetddram a => simp only [exec, execLcdSetddram, onSelectedLcd_withIo]
  | lcdData b => simp only [exec, execLcdData, onSelectedLcd_withIo]

/-! ### What every operation leaves alone -/

/-- A pin change that completes changes pin levels and instances only. -/
theorem pinChange_next (s t : State) (pin : Pin) (level : Bool) (h : pinChange s pin level = .next t) :
    t = { s with pinlvl := t.pinlvl, act := t.act } := by
  unfold pinChange at h
  dsimp only at h
  split_ifs at h
  · cases h; rfl
  · cases h; rfl
  · split at h <;> cases h; rfl

/-- The pin changes of a port write that complete change pin levels and instances only. -/
theorem portChanges_next (port : Nat) (old v : Byte) (bits : List Nat) (s t : State)
    (h : portChanges port old v bits s = .next t) : t = { s with pinlvl := t.pinlvl, act := t.act } := by
  induction bits generalizing s with
  | nil => cases h; rfl
  | cons b bits ih =>
    simp only [portChanges] at h
    split_ifs at h
    · exact ih s h
    · split at h
      · obtain ⟨u, h1, h2⟩ := (andThen_eq_next _ _ _).mp h
        have h3 := ih u h2
        rw [pinChange_next s u _ _ h1] at h3
        exact h3
      · exact ih s h

/-- The fields no operation writes: the parameters, the words waiting, the principal and the LCD instance in use. -/
structure Keeps (s t : State) : Prop where
  cfg_eq : t.cfg = s.cfg
  cmds_eq : t.cmds = s.cmds
  src_eq : t.src = s.src
  lcdSel_eq : t.lcdSel = s.lcdSel

theorem Keeps.of_tick (n : TimerId) (s : State) (c : BitVec 32) : Keeps s (tickResult n s c) :=
  let h := tickFrame_tick n s c.toNat
  ⟨h.cfg_eq, h.cmds_eq, h.src_eq, h.lcdSel_eq⟩

/-- No operation writes the parameters, the words waiting, the principal or the LCD instance in use. -/
theorem exec_keeps (i : Instr) (s t : State) (h : exec i s = .next t) : Keeps s t := by
  have hst : ∀ r : Result, (∀ t, r = .next t → Keeps s t) → stepOnly s r = .next t → Keeps s t := fun r hr h => by
    unfold stepOnly at h
    split_ifs at h
    · exact hr t h
    · cases h; exact ⟨rfl, rfl, rfl, rfl⟩
  have hho : ∀ r : Result, (∀ t, r = .next t → Keeps s t) → hostOnly s r = .next t → Keeps s t := fun r hr h => by
    unfold hostOnly at h
    split_ifs at h
    · exact hr t h
    · cases h; exact ⟨rfl, rfl, rfl, rfl⟩
  have hl : ∀ f, onSelectedLcd s f = .next t → Keeps s t := fun f h => by
    rw [onSelectedLcd_next s t f h]; exact ⟨rfl, rfl, rfl, rfl⟩
  cases i
  case t0Tick c => exact hst _ (fun t h => by cases h; exact .of_tick .t0 s c) h
  case t1Tick c => exact hst _ (fun t h => by cases h; exact .of_tick .t1 s c) h
  case regWr r v => exact hst _ (fun t h => by cases h; exact ⟨by simp, by simp, by simp, by simp⟩) h
  case intReq v en => exact hst _ (fun t h => by cases h; exact ⟨by simp, by simp, by simp, by simp⟩) h
  case clkTick c => exact hst _ (fun t h => by split_ifs at h; cases h; exact ⟨rfl, rfl, rfl, rfl⟩) h
  case intPoll =>
    refine hst _ (fun t h => ?_) h
    split at h <;> (try split_ifs at h) <;> cases h <;> exact ⟨rfl, rfl, rfl, rfl⟩
  case intReti =>
    refine hst _ (fun t h => ?_) h
    unfold returnFromInterrupt at h
    cases hr : s.cpu.rstack <;> simp only [hr] at h <;> cases h
    exact ⟨rfl, rfl, rfl, rfl⟩
  case pinChg pin level =>
    exact hst _ (fun t h => by rw [pinChange_next s t _ _ h]; exact ⟨rfl, rfl, rfl, rfl⟩) h
  case gpioWr port v =>
    refine hst _ (fun t h => ?_) h
    split_ifs at h
    · rw [portChanges_next _ _ _ _ _ _ h]; exact ⟨rfl, rfl, rfl, rfl⟩
    · cases h; exact ⟨rfl, rfl, rfl, rfl⟩
  case srvAnim dt =>
    refine hho _ (fun t h => ?_) h
    split at h <;> (try split_ifs at h) <;> cases h <;> exact ⟨rfl, rfl, rfl, rfl⟩
  case regRd => exact hst _ (fun t h => by cases h; exact ⟨rfl, rfl, rfl, rfl⟩) h
  case pwmRoute => exact hst _ (fun t h => by cases h; exact ⟨rfl, rfl, rfl, rfl⟩) h
  case pwmRise => exact hst _ (fun t h => by cases h; exact ⟨rfl, rfl, rfl, rfl⟩) h
  case pwmFall => exact hst _ (fun t h => by cases h; exact ⟨rfl, rfl, rfl, rfl⟩) h
  case srvStall => exact hho _ (fun t h => by split at h <;> cases h <;> exact ⟨rfl, rfl, rfl, rfl⟩) h
  case lcdPinmap => exact hho _ (fun t h => by split at h <;> cases h <;> exact ⟨rfl, rfl, rfl, rfl⟩) h
  case actAttach => exact hho _ (fun t h => by split at h <;> cases h <;> exact ⟨rfl, rfl, rfl, rfl⟩) h
  case lcdGetbuf => exact hho _ (fun t h => by split at h <;> cases h <;> exact ⟨rfl, rfl, rfl, rfl⟩) h
  case actDetach => exact hho _ (fun t h => by cases h; exact ⟨rfl, rfl, rfl, rfl⟩) h
  case sysReset => exact hho _ (fun t h => by cases h; exact ⟨rfl, rfl, rfl, rfl⟩) h
  case clkReset => cases h; exact ⟨rfl, rfl, rfl, rfl⟩
  case clkMicros => cases h; exact ⟨rfl, rfl, rfl, rfl⟩
  case clkMillis => cases h; exact ⟨rfl, rfl, rfl, rfl⟩
  case clkSeconds => cases h; exact ⟨rfl, rfl, rfl, rfl⟩
  case pwmReg => cases h; exact ⟨rfl, rfl, rfl, rfl⟩
  case pwmUnreg => cases h; exact ⟨rfl, rfl, rfl, rfl⟩
  all_goals
    simp only [exec_lcdNop, exec_lcdClear, exec_lcdHome, exec_lcdEntry, exec_lcdDispctl, exec_lcdShift,
      exec_lcdFuncset, exec_lcdSetcgram, exec_lcdSetddram, exec_lcdData] at h
    exact hl _ h

end Sys2Proof.Machine
end

