-- ==== Sys2Proof/Laws/Lcd.lean ====
section
/-! SUPPORT. The LCD engine (45_lcd.md): what each byte, each latch and each pin change can do, and that they keep `LcdOk`. -/

namespace Sys2Proof.Machine

open Sys2Proof

/-! ### Addresses -/

@[simp] theorem validAddr_zero (lines : Lines) : validAddr lines 0 = true := by cases lines <;> rfl

theorem validAddr_iff (lines : Lines) (a : BitVec 8) :
    validAddr lines a = true ↔ ∃ k, cellIndex lines a = some k := by
  simp [validAddr, Option.isSome_iff_exists]

/-- The cursor advance stays in the geometry. -/
theorem validAddr_nextAddr (lines : Lines) (dir : Direction) (a : BitVec 8) (h : validAddr lines a = true) :
    validAddr lines (nextAddr a dir lines) = true := by
  revert h
  cases lines <;> cases dir <;> revert a <;> decide +kernel

/-! ### The byte operations -/

theorem clearDisplay_ok (st : LcdState) (h : LcdOk st) : LcdOk (clearDisplay st) :=
  ⟨validAddr_zero _, rfl, h.nibble_high⟩

theorem returnHome_ok (st : LcdState) (h : LcdOk st) : LcdOk (returnHome st) :=
  ⟨validAddr_zero _, h.ddram_wf, h.nibble_high⟩

theorem setEntryMode_ok (st : LcdState) (d s : Bool) (h : LcdOk st) : LcdOk (setEntryMode st d s) :=
  ⟨h.cursor_valid, h.ddram_wf, h.nibble_high⟩

theorem setDisplayControl_ok (st : LcdState) (d c b : Bool) (h : LcdOk st) : LcdOk (setDisplayControl st d c b) :=
  ⟨h.cursor_valid, h.ddram_wf, h.nibble_high⟩

theorem shiftCommand_ok (st : LcdState) (h : LcdOk st) : LcdOk (shiftCommand st) :=
  ⟨h.cursor_valid, h.ddram_wf, h.nibble_high⟩

theorem setFunction_ok (st : LcdState) (l n f : Bool) (h : LcdOk st) : LcdOk (setFunction st l n f) := by
  refine ⟨?_, h.ddram_wf, h.nibble_high⟩
  simp only [setFunction]
  split_ifs with hv
  · exact hv
  · exact validAddr_zero _

theorem setCgramAddr_ok (st : LcdState) (h : LcdOk st) : LcdOk (setCgramAddr st) :=
  ⟨h.cursor_valid, h.ddram_wf, h.nibble_high⟩

theorem setDdramAddr_ok (st : LcdState) (a : BitVec 7) (h : LcdOk st) : LcdOk (setDdramAddr st a) := by
  refine ⟨?_, h.ddram_wf, h.nibble_high⟩
  simp only [setDdramAddr]
  split_ifs with hv
  · exact hv
  · exact h.cursor_valid

/-- What a data byte does at a cursor inside the geometry. -/
theorem writeData_eq (st : LcdState) (b : Byte) (k : Nat)
    (h : cellIndex st.functionSet.lines st.cursorAddr = some k) :
    writeData st b = some { st with
      ddram := cellWrite blankCell st.ddram k b
      cursorAddr := nextAddr st.cursorAddr st.entryMode.direction st.functionSet.lines
      outsideSpec := st.outsideSpec || st.cgramLast } := by
  simp [writeData, memWrite, h]

/-- A data byte has nowhere to go exactly at a cursor outside the geometry. -/
theorem writeData_eq_none (st : LcdState) (b : Byte) :
    writeData st b = none ↔ validAddr st.functionSet.lines st.cursorAddr = false := by
  simp [writeData, memWrite, validAddr]

theorem writeData_ok (st st' : LcdState) (b : Byte) (h : LcdOk st) (hw : writeData st b = some st') : LcdOk st' := by
  obtain ⟨k, hk⟩ := (validAddr_iff _ _).mp h.cursor_valid
  rw [writeData_eq st b k hk, Option.some.injEq] at hw
  subst hw
  exact ⟨validAddr_nextAddr _ _ _ h.cursor_valid, cellWrite_wf _ _ _ _ _ h.ddram_wf (cellIndex_lt _ _ _ hk), h.nibble_high⟩

/-- The two cases of a byte: data, or a command, which always has an effect. -/
theorem applyByte_data (st : LcdState) (byte : Byte) : applyByte st true byte = writeData st byte := rfl

theorem applyByte_command (st : LcdState) (byte : Byte) : ∃ st', applyByte st false byte = some st' := by
  simp only [applyByte, Bool.false_eq_true, if_false]
  split_ifs <;> exact ⟨_, rfl⟩

theorem applyByte_ok (st st' : LcdState) (rs : Bool) (byte : Byte) (h : LcdOk st)
    (hb : applyByte st rs byte = some st') : LcdOk st' := by
  unfold applyByte at hb
  split_ifs at hb
  · exact writeData_ok st st' byte h hb
  all_goals
    simp only [Option.some.injEq] at hb
    subst hb
    first
    | exact setDdramAddr_ok _ _ h
    | exact setCgramAddr_ok _ h
    | exact setFunction_ok _ _ _ _ h
    | exact shiftCommand_ok _ h
    | exact setDisplayControl_ok _ _ _ _ h
    | exact setEntryMode_ok _ _ _ h
    | exact returnHome_ok _ h
    | exact clearDisplay_ok _ h

/-- Under the invariant every byte completes. -/
theorem applyByte_completes (st : LcdState) (rs : Bool) (byte : Byte) (h : LcdOk st) :
    ∃ st', applyByte st rs byte = some st' := by
  cases rs
  · exact applyByte_command st byte
  · obtain ⟨k, hk⟩ := (validAddr_iff _ _).mp h.cursor_valid
    exact ⟨_, writeData_eq st byte k hk⟩

/-! ### The latch -/

theorem highNibble_low (nib : BitVec 4) : highNibble nib &&& 0x0F = 0 := by revert nib; decide

/-- Under the invariant every latch completes and keeps it. -/
theorem latch_completes (lvl : Vector Bool 256) (st : LcdState) (p : LcdPins) (h : LcdOk st) :
    ∃ st', latch lvl st p = some st' ∧ LcdOk st' := by
  unfold latch
  split
  · obtain ⟨st', hs⟩ := applyByte_completes st (lineLevel lvl p.rs) (latchedByte lvl p) h
    exact ⟨st', hs, applyByte_ok _ _ _ _ h hs⟩
  · split_ifs
    · have h' : LcdOk { st with awaitingLowNibble := false } := ⟨h.cursor_valid, h.ddram_wf, h.nibble_high⟩
      obtain ⟨st', hs⟩ := applyByte_completes _ (lineLevel lvl p.rs)
        (joinNibbles st.nibbleBuffer (latchedNibble lvl p)) h'
      exact ⟨st', hs, applyByte_ok _ _ _ _ h' hs⟩
    · exact ⟨_, rfl, h.cursor_valid, h.ddram_wf, highNibble_low _⟩

/-- What one pass of latches leaves under an id: every LCD on the enable line latched, everything else as it was. -/
def Latched (lvl : Vector Bool 256) (pin : Pin) (x y : Option ActInstance) : Prop :=
  match x with
  | some (.lcd st p) =>
    if p.en = some pin then ∃ st', latch lvl st p = some st' ∧ y = some (.lcd st' p) else y = some (.lcd st p)
  | x => y = x

/-- Under the invariant a pass of latches completes: the ids stay, each entry is latched where the enable line says so, and
the invariant stays. -/
theorem latchAll_completes (lvl : Vector Bool 256) (pin : Pin) (cfg : Config) (t : List (InstanceId × ActInstance))
    (h : ∀ e ∈ t, EntryOk cfg e) :
    ∃ t', latchAll lvl pin t = some t' ∧ t'.map Prod.fst = t.map Prod.fst
      ∧ (∀ id, Latched lvl pin (actFind id t) (actFind id t')) ∧ ∀ e ∈ t', EntryOk cfg e := by
  induction t with
  | nil => exact ⟨[], rfl, rfl, fun _ => rfl, fun e he => by simp at he⟩
  | cons e t ih =>
    obtain ⟨t', h1, h2, h3, h4⟩ := ih fun e he => h e (List.mem_cons_of_mem _ he)
    obtain ⟨id, sv | ⟨st, p⟩⟩ := e
    · refine ⟨(id, .servo sv) :: t', by simp [latchAll, h1], by simp [h2], fun j => ?_, fun e he => ?_⟩
      · rw [actFind_cons, actFind_cons]
        split_ifs
        · rfl
        · exact h3 j
      · rcases List.mem_cons.mp he with rfl | he
        · exact h _ (List.mem_cons_self ..)
        · exact h4 e he
    · have hst : LcdOk st := h (id, .lcd st p) (List.mem_cons_self ..)
      by_cases hp : p.en = some pin
      · obtain ⟨st', hl, hok⟩ := latch_completes lvl st p hst
        refine ⟨(id, .lcd st' p) :: t', by simp [latchAll, hp, hl, h1], by simp [h2], fun j => ?_, fun e he => ?_⟩
        · rw [actFind_cons, actFind_cons]
          split_ifs
          · simp only [Latched, if_pos hp]
            exact ⟨st', hl, rfl⟩
          · exact h3 j
        · rcases List.mem_cons.mp he with rfl | he
          · exact hok
          · exact h4 e he
      · refine ⟨(id, .lcd st p) :: t', by simp [latchAll, hp, h1], by simp [h2], fun j => ?_, fun e he => ?_⟩
        · rw [actFind_cons, actFind_cons]
          split_ifs
          · simp only [Latched, if_neg hp]
          · exact h3 j
        · rcases List.mem_cons.mp he with rfl | he
          · exact hst
          · exact h4 e he

/-! ### Pin changes -/

/-- A level already held is no transition. -/
theorem pinChange_same (s : State) (pin : Pin) (level : Bool) (h : levelOf s.pinlvl pin = level) :
    pinChange s pin level = .next s := if_pos h

/-- A rising edge records the level. -/
theorem pinChange_rise (s : State) (pin : Pin) (h : levelOf s.pinlvl pin = false) :
    pinChange s pin true = .next { s with pinlvl := setLevel s.pinlvl pin true } := by
  simp [pinChange, h]

@[simp] theorem levelOf_setLevel (lvl : Vector Bool 256) (pin q : Pin) (level : Bool) :
    levelOf (setLevel lvl pin level) q = if q = pin then level else levelOf lvl q := by
  unfold levelOf setLevel
  rw [Vector.getElem_set]
  by_cases h : q = pin
  · subst h; simp
  · have h' : ¬ pin.toNat = q.toNat := fun hn => h (BitVec.eq_of_toNat_eq hn).symm
    simp [h, h']

/-- What a pin change can do, from a state whose instances meet the invariant: it completes, sets the level, changes nothing
but levels and instances, keeps the ids, the invariant and every servo. -/
theorem pinChange_completes (s : State) (pin : Pin) (level : Bool) (h : ∀ e ∈ s.act, EntryOk s.cfg e) :
    ∃ t, pinChange s pin level = .next t ∧ t = { s with pinlvl := t.pinlvl, act := t.act }
      ∧ (∀ q, levelOf t.pinlvl q = if q = pin then level else levelOf s.pinlvl q)
      ∧ t.act.map Prod.fst = s.act.map Prod.fst ∧ (∀ e ∈ t.act, EntryOk t.cfg e)
      ∧ (∀ id, if levelOf s.pinlvl pin = true ∧ level = false
          then Latched t.pinlvl pin (actFind id s.act) (actFind id t.act) else actFind id t.act = actFind id s.act) := by
  by_cases hl : levelOf s.pinlvl pin = level
  · refine ⟨s, pinChange_same s pin level hl, rfl, fun q => ?_, rfl, h, fun id => ?_⟩
    · split_ifs with hq
      · rw [hq, hl]
      · rfl
    · rw [if_neg]; rintro ⟨h1, h2⟩; simp_all
  · cases level with
    | true =>
      have hf : levelOf s.pinlvl pin = false := by simpa using hl
      exact ⟨_, pinChange_rise s pin hf, rfl, fun q => levelOf_setLevel .., rfl, h, fun id => by simp⟩
    | false =>
      have ht : levelOf s.pinlvl pin = true := by simpa using hl
      obtain ⟨act, h1, h2, h3, h4⟩ := latchAll_completes (setLevel s.pinlvl pin false) pin s.cfg s.act h
      refine ⟨{ s with pinlvl := setLevel s.pinlvl pin false, act := act }, ?_, rfl, fun q => levelOf_setLevel ..,
        h2, h4, fun id => ?_⟩
      · simp [pinChange, ht, h1]
      · simpa [ht] using h3 id

/-- A latched pass leaves every servo. -/
theorem Latched.servo {lvl : Vector Bool 256} {pin : Pin} {sv : ServoState} {y : Option ActInstance}
    (h : Latched lvl pin (some (.servo sv)) y) : y = some (.servo sv) := h

/-- A latched pass keeps an LCD an LCD on the same pins. -/
theorem Latched.lcd {lvl : Vector Bool 256} {pin : Pin} {st : LcdState} {p : LcdPins} {y : Option ActInstance}
    (h : Latched lvl pin (some (.lcd st p)) y) : ∃ st', y = some (.lcd st' p) := by
  unfold Latched at h
  dsimp only at h
  split_ifs at h
  · obtain ⟨st', -, h⟩ := h; exact ⟨st', h⟩
  · exact ⟨st, h⟩

/-- A latched pass finds nothing where nothing was. -/
theorem Latched.none {lvl : Vector Bool 256} {pin : Pin} {y : Option ActInstance}
    (h : Latched lvl pin none y) : y = none := h

end Sys2Proof.Machine
end

