-- ==== Sys2Proof/Laws/PerInstr.lean ====
section
/-! SUPPORT. Statements for every instruction, one lemma per constructor. -/

namespace Sys2Proof.Laws

open Sys2Proof

/-- A row of opcode_table.json: its mask and its match, at the width of its format. -/
inductive Row where
  | cmd80 (mask bits : BitVec 80)
  | lcd9 (mask bits : BitVec 9)
  deriving DecidableEq, Repr

/-- An encoded word is one of the row's. -/
def Row.fits : Row → Encoded → Bool
  | .cmd80 mask bits, .cmd80 w => w &&& mask == bits
  | .lcd9 mask bits, .lcd9 w => w &&& mask == bits
  | .cmd80 _ _, .lcd9 _ => false
  | .lcd9 _ _, .cmd80 _ => false

/-- The row of an instruction, from opcode_table.json. -/
def rowOf : Instr → Row
  | .clkTick _ => .cmd80 0xFF000000000000000000 0x10000000000000000000
  | .clkReset => .cmd80 0xFF000000000000000000 0x11000000000000000000
  | .clkMicros => .cmd80 0xFF000000000000000000 0x12000000000000000000
  | .clkMillis => .cmd80 0xFF000000000000000000 0x13000000000000000000
  | .clkSeconds => .cmd80 0xFF000000000000000000 0x14000000000000000000
  | .t0Tick _ => .cmd80 0xFF000000000000000000 0x20000000000000000000
  | .t1Tick _ => .cmd80 0xFF000000000000000000 0x21000000000000000000
  | .regWr _ _ => .cmd80 0xFF000000000000000000 0x22000000000000000000
  | .regRd _ => .cmd80 0xFF000000000000000000 0x23000000000000000000
  | .intReq _ _ => .cmd80 0xFF000000000000000000 0x30000000000000000000
  | .intPoll => .cmd80 0xFF000000000000000000 0x31000000000000000000
  | .intReti => .cmd80 0xFF000000000000000000 0x32000000000000000000
  | .pwmReg _ _ => .cmd80 0xFF000000000000000000 0x40000000000000000000
  | .pwmUnreg _ _ => .cmd80 0xFF000000000000000000 0x41000000000000000000
  | .pwmRoute _ _ _ => .cmd80 0xFF000000000000000000 0x42000000000000000000
  | .pwmRise _ _ => .cmd80 0xFF000000000000000000 0x43000000000000000000
  | .pwmFall _ _ => .cmd80 0xFF000000000000000000 0x44000000000000000000
  | .srvAnim _ => .cmd80 0xFF000000000000000000 0x50000000000000000000
  | .srvStall _ _ => .cmd80 0xFF000000000000000000 0x51000000000000000000
  | .pinChg _ _ => .cmd80 0xFF000000000000000000 0x60000000000000000000
  | .gpioWr _ _ => .cmd80 0xFF000000000000000000 0x61000000000000000000
  | .lcdPinmap _ _ _ => .cmd80 0xFF000000000000000000 0x62000000000000000000
  | .actAttach _ _ _ => .cmd80 0xFF000000000000000000 0x70000000000000000000
  | .actDetach _ => .cmd80 0xFF000000000000000000 0x71000000000000000000
  | .lcdGetbuf _ => .cmd80 0xFF000000000000000000 0x72000000000000000000
  | .sysReset => .cmd80 0xFF000000000000000000 0x73000000000000000000
  | .lcdNop => .lcd9 0x1FF 0x000
  | .lcdClear => .lcd9 0x1FF 0x001
  | .lcdHome => .lcd9 0x1FE 0x002
  | .lcdEntry _ _ => .lcd9 0x1FC 0x004
  | .lcdDispctl _ _ _ => .lcd9 0x1F8 0x008
  | .lcdShift _ _ => .lcd9 0x1F0 0x010
  | .lcdFuncset _ _ _ => .lcd9 0x1E0 0x020
  | .lcdSetcgram _ => .lcd9 0x1C0 0x040
  | .lcdSetddram _ => .lcd9 0x180 0x080
  | .lcdData _ => .lcd9 0x100 0x100

/-- The family `TableRow`: the encoder writes a word of the instruction's own row. -/
def TableRow.Statement (i : Instr) : Prop := (rowOf i).fits (encode i) = true

/-- A command word under the opcode mask is its opcode. -/
theorem cmdWord_and_mask (op a : BitVec 8) (d : BitVec 64) :
    cmdWord op a d &&& 0xFF000000000000000000 = op ++ 0#72 := by
  have hm : (0xFF000000000000000000 : BitVec 80) = 0xFF#8 ++ 0#72 := by decide
  rw [hm, cmdWord]
  refine BitVec.and_append.trans ?_
  congr 1
  · exact BitVec.and_allOnes
  · exact BitVec.and_zero

theorem TableRow.clkTick (c : BitVec 32) : TableRow.Statement (.clkTick c) :=
  beq_iff_eq.mpr (cmdWord_and_mask _ _ _)
theorem TableRow.clkReset : TableRow.Statement .clkReset :=
  beq_iff_eq.mpr (cmdWord_and_mask _ _ _)
theorem TableRow.clkMicros : TableRow.Statement .clkMicros :=
  beq_iff_eq.mpr (cmdWord_and_mask _ _ _)
theorem TableRow.clkMillis : TableRow.Statement .clkMillis :=
  beq_iff_eq.mpr (cmdWord_and_mask _ _ _)
theorem TableRow.clkSeconds : TableRow.Statement .clkSeconds :=
  beq_iff_eq.mpr (cmdWord_and_mask _ _ _)
theorem TableRow.t0Tick (c : BitVec 32) : TableRow.Statement (.t0Tick c) :=
  beq_iff_eq.mpr (cmdWord_and_mask _ _ _)
theorem TableRow.t1Tick (c : BitVec 32) : TableRow.Statement (.t1Tick c) :=
  beq_iff_eq.mpr (cmdWord_and_mask _ _ _)
theorem TableRow.regWr (r : Reg) (v : BitVec 16) : TableRow.Statement (.regWr r v) :=
  beq_iff_eq.mpr (cmdWord_and_mask _ _ _)
theorem TableRow.regRd (r : Reg) : TableRow.Statement (.regRd r) :=
  beq_iff_eq.mpr (cmdWord_and_mask _ _ _)
theorem TableRow.intReq (v : BitVec 16) (en : Bool) : TableRow.Statement (.intReq v en) :=
  beq_iff_eq.mpr (cmdWord_and_mask _ _ _)
theorem TableRow.intPoll : TableRow.Statement .intPoll :=
  beq_iff_eq.mpr (cmdWord_and_mask _ _ _)
theorem TableRow.intReti : TableRow.Statement .intReti :=
  beq_iff_eq.mpr (cmdWord_and_mask _ _ _)
theorem TableRow.pwmReg (pin : Pin) (id : InstanceId) : TableRow.Statement (.pwmReg pin id) :=
  beq_iff_eq.mpr (cmdWord_and_mask _ _ _)
theorem TableRow.pwmUnreg (pin : Pin) (id : InstanceId) : TableRow.Statement (.pwmUnreg pin id) :=
  beq_iff_eq.mpr (cmdWord_and_mask _ _ _)
theorem TableRow.pwmRoute (pin : Pin) (pw : BitVec 32) (period : BitVec 32) : TableRow.Statement (.pwmRoute pin pw period) :=
  beq_iff_eq.mpr (cmdWord_and_mask _ _ _)
theorem TableRow.pwmRise (pin : Pin) (ts : Micros) : TableRow.Statement (.pwmRise pin ts) :=
  beq_iff_eq.mpr (cmdWord_and_mask _ _ _)
theorem TableRow.pwmFall (pin : Pin) (ts : Micros) : TableRow.Statement (.pwmFall pin ts) :=
  beq_iff_eq.mpr (cmdWord_and_mask _ _ _)
theorem TableRow.srvAnim (dt : BitVec 64) : TableRow.Statement (.srvAnim dt) :=
  beq_iff_eq.mpr (cmdWord_and_mask _ _ _)
theorem TableRow.srvStall (id : InstanceId) (flag : Bool) : TableRow.Statement (.srvStall id flag) :=
  beq_iff_eq.mpr (cmdWord_and_mask _ _ _)
theorem TableRow.pinChg (pin : Pin) (level : Bool) : TableRow.Statement (.pinChg pin level) :=
  beq_iff_eq.mpr (cmdWord_and_mask _ _ _)
theorem TableRow.gpioWr (port : BitVec 8) (v : Byte) : TableRow.Statement (.gpioWr port v) :=
  beq_iff_eq.mpr (cmdWord_and_mask _ _ _)
theorem TableRow.lcdPinmap (role : LcdRole) (id : InstanceId) (pin : Pin) : TableRow.Statement (.lcdPinmap role id pin) :=
  beq_iff_eq.mpr (cmdWord_and_mask _ _ _)
theorem TableRow.actAttach (pin : Pin) (kind : ActKind) (id : InstanceId) : TableRow.Statement (.actAttach pin kind id) :=
  beq_iff_eq.mpr (cmdWord_and_mask _ _ _)
theorem TableRow.actDetach (id : InstanceId) : TableRow.Statement (.actDetach id) :=
  beq_iff_eq.mpr (cmdWord_and_mask _ _ _)
theorem TableRow.lcdGetbuf (id : InstanceId) : TableRow.Statement (.lcdGetbuf id) :=
  beq_iff_eq.mpr (cmdWord_and_mask _ _ _)
theorem TableRow.sysReset : TableRow.Statement .sysReset :=
  beq_iff_eq.mpr (cmdWord_and_mask _ _ _)
theorem TableRow.lcdNop : TableRow.Statement .lcdNop := by
  unfold TableRow.Statement; decide
theorem TableRow.lcdClear : TableRow.Statement .lcdClear := by
  unfold TableRow.Statement; decide
theorem TableRow.lcdHome : TableRow.Statement .lcdHome := by
  unfold TableRow.Statement; decide
theorem TableRow.lcdEntry (d : Bool) (s : Bool) : TableRow.Statement (.lcdEntry d s) := by
  unfold TableRow.Statement; revert d s; decide
theorem TableRow.lcdDispctl (d : Bool) (c : Bool) (b : Bool) : TableRow.Statement (.lcdDispctl d c b) := by
  unfold TableRow.Statement; revert d c b; decide
theorem TableRow.lcdShift (s : Bool) (r : Bool) : TableRow.Statement (.lcdShift s r) := by
  unfold TableRow.Statement; revert s r; decide
theorem TableRow.lcdFuncset (l : Bool) (n : Bool) (f : Bool) : TableRow.Statement (.lcdFuncset l n f) := by
  unfold TableRow.Statement; revert l n f; decide
theorem TableRow.lcdSetcgram (a : BitVec 6) : TableRow.Statement (.lcdSetcgram a) := by
  unfold TableRow.Statement; revert a; decide
theorem TableRow.lcdSetddram (a : BitVec 7) : TableRow.Statement (.lcdSetddram a) := by
  unfold TableRow.Statement; revert a; decide
theorem TableRow.lcdData (b : Byte) : TableRow.Statement (.lcdData b) := by
  unfold TableRow.Statement; revert b; decide

end Sys2Proof.Laws
end

