-- ==== Sys2Proof/Laws/Run.lean ====
section
/-! SUPPORT. Runs of several steps, and what waits on the port between them. -/

namespace Sys2Proof.Machine

/-- One step of a run, for any machine. -/
theorem host_run_succ (M : Host.Core) (k : Nat) (s t : M.State) (h : M.step s = .next t) :
    M.run (k + 1) s = M.run k t := by
  simp [Host.Core.run, h]

theorem core_run_zero (s : State) : Host.Core.run Sys2Proof.core 0 s = .next s := rfl

/-- One step of a run of the block. -/
theorem core_run_succ (k : Nat) (s t : State) (h : step s = .next t) :
    Host.Core.run Sys2Proof.core (k + 1) s = Host.Core.run Sys2Proof.core k t :=
  host_run_succ Sys2Proof.core k s t h

theorem execTurns_cons (t : Turn) (ts : List Turn) (s : State) :
    execTurns (t :: ts) s = andThen (execAll (turnOps t) { s with src := turnSrc t }) (execTurns ts) := rfl

/-- A step takes nothing from the port but its first word, and puts nothing on it. -/
theorem step_cmds_suffix (s t : State) (h : step s = .next t) : t.cmds <:+ s.cmds := by
  cases hc : s.cmds with
  | nil => rw [step_nil s hc] at h; cases h; exact hc ▸ List.suffix_rfl
  | cons w rest =>
    cases hd : decode (payload w) with
    | error e => rw [step_error s w rest e hc hd] at h; cases h; rw [accept_cmds]; exact List.suffix_cons w rest
    | ok i =>
      rw [step_ok s w rest i hc hd] at h
      rw [(exec_keeps _ _ _ h).cmds_eq, accept_cmds]
      exact List.suffix_cons w rest

/-- What waits on the port stays what is left of an interleaving R172 allows. -/
theorem Scheduled_step (s t : State) (h : Scheduled s.cmds) (hs : step s = .next t) : Scheduled t.cmds :=
  let ⟨turns, hok, hm⟩ := h
  ⟨turns, hok, (step_cmds_suffix s t hs).trans hm⟩

end Sys2Proof.Machine
end

