-- ==== Sys2Proof/Laws/Servo.lean ====
section
/-! SUPPORT. The servo animator (44_servo.md R134, R135): what one step of one servo can do. -/

namespace Sys2Proof.Machine

open Sys2Proof

@[simp] theorem animEntry_fst (cfg : Config) (dt : Rat) (e : InstanceId × ActInstance) :
    (animEntry cfg dt e).1 = e.1 := by
  obtain ⟨id, sv | ⟨st, p⟩⟩ := e <;> rfl

/-- How far a servo moves in one step, before it is rounded. -/
def moveOf (dt : Rat) (sv : ServoState) : Rat :=
  min |sv.targetAngleDeg - sv.currentAngleDeg| (sv.angularSpeedDegPerS * dt)

/-- A servo stays where it is: stalled, inside its deadband, or with nothing to move. -/
def Rests (dt : Rat) (sv : ServoState) : Prop :=
  sv.isStalled = true ∨ |sv.targetAngleDeg - sv.currentAngleDeg| < sv.deadbandDeg ∨ moveOf dt sv = 0

/-- A resting servo only notes the time. -/
theorem animStep_of_rests (cfg : Config) (dt : Rat) (sv : ServoState) (h : Rests dt sv) :
    animStep cfg dt sv =
      ({ sv with lastAnimationTickWallclock := round64 cfg.rnd64 (sv.lastAnimationTickWallclock + dt) }, none) := by
  unfold animStep
  simp only [absQ_eq, minQ_eq]
  unfold Rests moveOf at h
  split_ifs with h1 h2 h3
  · rfl
  · rfl
  · rfl
  · rcases h with h | h | h <;> contradiction

/-- Any other servo moves towards its target and notifies its new angle. -/
theorem animStep_of_not_rests (cfg : Config) (dt : Rat) (sv : ServoState) (h : ¬ Rests dt sv) :
    animStep cfg dt sv =
      ({ sv with
          currentAngleDeg := round32 cfg.rnd32
            (sv.currentAngleDeg + signQ (sv.targetAngleDeg - sv.currentAngleDeg) * moveOf dt sv)
          lastAnimationTickWallclock := round64 cfg.rnd64 (sv.lastAnimationTickWallclock + dt) },
        some (round32 cfg.rnd32
          (sv.currentAngleDeg + signQ (sv.targetAngleDeg - sv.currentAngleDeg) * moveOf dt sv))) := by
  unfold animStep
  simp only [absQ_eq, minQ_eq]
  unfold Rests moveOf at h
  unfold moveOf
  split_ifs with h1 h2 h3
  · exact absurd (.inl h1) h
  · exact absurd (.inr (.inl h2)) h
  · exact absurd (.inr (.inr h3)) h
  · rfl

/-- What is found after one animator step of every servo. -/
theorem actFind_animate (s : State) (dt : Rat) (id : InstanceId) :
    actFind id (animate s dt).act =
      match actFind id s.act with
      | some (.servo sv) => some (.servo (animStep s.cfg dt sv).1)
      | x => x := by
  unfold animate
  rw [actFind_map _ _ (animEntry_fst _ _)]
  cases h : actFind id s.act with
  | none => rfl
  | some x => cases x <;> rfl

end Sys2Proof.Machine
end

