-- ==== Sys2Proof/Tests/Slice0.lean ====
section
/-! SUPPORT. Our own tests: ill-formed operands, one decoded word per instruction (written from 30_encoding.md R60 to R67),
steps with the results of 95_test_vectors.md, and for every statement with hypotheses a case that meets them. -/

namespace Sys2Proof.Tests

open Sys2Proof Sys2Proof.Machine

/-! ### Helpers -/

/-- One field or view of the next state; none for a stop. -/
def seen {α : Type} (r : Result) (f : State → α) : Option α :=
  match r with
  | .next s => some (f s)
  | _ => none

/-- What a result stops with; none for a next state. -/
def stopOf (r : Result) : Option (Fault ⊕ Refusal) :=
  match r with
  | .next _ => none
  | .fault e => some (.inl e)
  | .refused e => some (.inr e)

/-- One step on a command word of the step loop. -/
def cmd (w : Nat) (s : State) : Result := step { s with cmds := [.cmd .stepLoop (BitVec.ofNat 80 w)] }

/-- One step on a command word of the host. -/
def hostCmd (w : Nat) (s : State) : Result := step { s with cmds := [.cmd .host (BitVec.ofNat 80 w)] }

/-- One step on an LCD byte for instance 2. -/
def lcdCmd (w : Nat) (s : State) : Result := step { s with cmds := [.lcd 2 (BitVec.ofNat 9 w)] }

/-- POR with the fixture. -/
abbrev por : State := State.reset

/-- POR with the host as principal. -/
abbrev porHost : State := { State.reset with src := .host }

/-- Servo 1 as attached on pin 9 (95_test_vectors.md H1). -/
abbrev servo1 : ServoState := freshServo fixtureConfig 9 1

/-- POR with a servo under id 1 on pin 9. -/
abbrev withServo (sv : ServoState) : State := { State.reset with act := [(1, .servo sv)], registry := [(9, 1)] }

/-- The wiring of 95_test_vectors.md section 0. -/
abbrev wired : LcdPins where
  rs := some 12
  en := some 11
  db := #v[none, none, none, none, some 5, some 4, some 3, some 2]

/-- A fresh LCD (10_state.md R29). -/
abbrev lcd2 : LcdState := freshLcd fixtureConfig

/-- A two-line LCD. -/
abbrev lcd2two : LcdState := { lcd2 with functionSet := ⟨.four, .two, .f5x8⟩ }

/-- POR with an LCD under id 2, wired and selected. -/
abbrev withLcd (st : LcdState) : State := { State.reset with act := [(2, .lcd st wired)], lcdSel := 2 }

/-- The LCD under id 2. -/
abbrev theLcd (s : State) : Option LcdState := (lcdAt s 2).map Prod.fst

/-- A running Timer1: prescaler 1, TOP 4, compare A 2 (95_test_vectors.md T3). -/
abbrev t1Running : State :=
  { State.reset with t1 := { timerReset 1 with top := 4, compareA := 2, initialized := true } }

/-- Timer1 with TOP lowered to 10 under its counter (95_test_vectors.md T6). -/
abbrev lowered (counter : BitVec 16) : State :=
  { State.reset with t1 := { timerReset 1 with counter := counter, top := 10, initialized := true } }

/-- Timer0 with TOP lowered to 10 under its counter, prescaler 8. -/
abbrev lowered0 (counter : BitVec 16) : State :=
  { State.reset with t0 := { timerReset 8 with counter := counter, top := 10, initialized := true } }

/-- POR with two requests pending and `I` set (95_test_vectors.md I3). -/
abbrev twoPending : State := { State.reset with int := ⟨.idle, [⟨4, 0⟩, ⟨0, 1⟩], 2⟩, cpu := ⟨0x123, true, []⟩ }

/-- A running Timer0: prescaler 64, one cycle before its wrap (95_test_vectors.md T2). -/
abbrev t0Running : State :=
  { State.reset with t0 := { timerReset 64 with counter := 254 }, prescCnt0 := 63 }

/-! ### Well-formedness: each check refuses an ill-formed operand -/

theorem test_wf_refuses_named_register :
    (Instr.regWr (.reserved 0x00) 0).wf = false ∧ (Instr.regRd (.reserved 0x05)).wf = false
      ∧ (Instr.regRd (.reserved 0x08)).wf = false ∧ (Instr.regRd (.reserved 0x0D)).wf = false
      ∧ (Instr.regRd (.reserved 0x10)).wf = false := by decide

theorem test_wf_accepts_reserved_register :
    (Instr.regWr (.reserved 0x06) 0).wf = true ∧ (Instr.regRd (.reserved 0x07)).wf = true
      ∧ (Instr.regRd (.reserved 0x0E)).wf = true ∧ (Instr.regRd (.reserved 0x11)).wf = true := by decide

theorem test_wf_refuses_named_role :
    (Instr.lcdPinmap (.reserved 9) 0 0).wf = false ∧ (Instr.lcdPinmap (.reserved 10) 0 0).wf = true := by decide

theorem test_wf_refuses_named_kind :
    (Instr.actAttach 0 (.reserved 1) 0).wf = false ∧ (Instr.actAttach 0 (.reserved 2) 0).wf = true := by decide

/-! ### Decoding: one word per instruction, `op`, `a`, `d` written from R61 and R62, `LCD9` bits from R67 -/

theorem test_decode_clkTick : decodeTableWord 80 0x10_00_00000000_FFFFFFFE = some (.clkTick 0xFFFFFFFE) := by decide
theorem test_decode_clkTick_ignores_reserved_bits :
    decodeTableWord 80 0x10_FF_FFFFFFFF_00000005 = some (.clkTick 5) := by decide
theorem test_decode_clkReset : decodeTableWord 80 0x11_00_0000000000000000 = some .clkReset := by decide
theorem test_decode_clkMicros : decodeTableWord 80 0x12_00_0000000000000000 = some .clkMicros := by decide
theorem test_decode_clkMillis : decodeTableWord 80 0x13_00_0000000000000000 = some .clkMillis := by decide
theorem test_decode_clkSeconds : decodeTableWord 80 0x14_00_0000000000000000 = some .clkSeconds := by decide
theorem test_decode_t0Tick : decodeTableWord 80 0x20_00_0000000000003FBF = some (.t0Tick 16319) := by decide
theorem test_decode_t1Tick : decodeTableWord 80 0x21_00_0000000000013880 = some (.t1Tick 80000) := by decide
theorem test_decode_regWr : decodeTableWord 80 0x22_0D_0000000000001234 = some (.regWr .t1Flag 0x1234) := by decide
theorem test_decode_regWr_reserved :
    decodeTableWord 80 0x22_07_0000000000001234 = some (.regWr (.reserved 7) 0x1234) := by decide
theorem test_decode_regRd : decodeTableWord 80 0x23_10_0000000000000000 = some (.regRd .inten) := by decide
theorem test_decode_intReq : decodeTableWord 80 0x30_01_0000000000000004 = some (.intReq 4 true) := by decide
theorem test_decode_intPoll : decodeTableWord 80 0x31_00_0000000000000000 = some .intPoll := by decide
theorem test_decode_intReti : decodeTableWord 80 0x32_00_0000000000000000 = some .intReti := by decide
theorem test_decode_pwmReg : decodeTableWord 80 0x40_09_0000000000000001 = some (.pwmReg 9 1) := by decide
theorem test_decode_pwmUnreg : decodeTableWord 80 0x41_09_0000000000000007 = some (.pwmUnreg 9 7) := by decide
theorem test_decode_pwmRoute :
    decodeTableWord 80 0x42_09_00004E20_000005DC = some (.pwmRoute 9 1500 20000) := by decide
theorem test_decode_pwmRise : decodeTableWord 80 0x43_09_8000000000000064 = some (.pwmRise 9 0x8000000000000064) := by decide
theorem test_decode_pwmFall : decodeTableWord 80 0x44_09_0000000000000640 = some (.pwmFall 9 1600) := by decide
theorem test_decode_srvAnim : decodeTableWord 80 0x50_00_3FE0000000000000 = some (.srvAnim 0x3FE0000000000000) := by decide
theorem test_decode_srvStall : decodeTableWord 80 0x51_01_0000000000000001 = some (.srvStall 1 true) := by decide
theorem test_decode_pinChg : decodeTableWord 80 0x60_0B_0000000000000001 = some (.pinChg 11 true) := by decide
theorem test_decode_gpioWr : decodeTableWord 80 0x61_03_00000000000000FF = some (.gpioWr 3 0xFF) := by decide
theorem test_decode_lcdPinmap :
    decodeTableWord 80 0x62_09_0000000000_02_0002 = some (.lcdPinmap (.db 7) 2 2)
      ∧ decodeTableWord 80 0x62_0A_0000000000_02_0002 = some (.lcdPinmap (.reserved 10) 2 2) := by decide
theorem test_decode_actAttach :
    decodeTableWord 80 0x70_0A_0000000000_01_0001 = some (.actAttach 10 .lcd 1)
      ∧ decodeTableWord 80 0x70_0A_0000000000_02_0001 = some (.actAttach 10 (.reserved 2) 1) := by decide
theorem test_decode_actDetach : decodeTableWord 80 0x71_00_0000000000000001 = some (.actDetach 1) := by decide
theorem test_decode_lcdGetbuf : decodeTableWord 80 0x72_00_0000000000000006 = some (.lcdGetbuf 6) := by decide
theorem test_decode_sysReset : decodeTableWord 80 0x73_00_0000000000000000 = some .sysReset := by decide
theorem test_decode_reserved_op :
    decodeTableWord 80 0x7F_00_0000000000000000 = none ∧ decodeTableWord 80 0x15_00_0000000000000000 = none := by decide
theorem test_decode_lcdNop : decodeTableWord 16 0b0_00000000 = some .lcdNop := by decide
theorem test_decode_lcdClear : decodeTableWord 16 0b0_00000001 = some .lcdClear := by decide
theorem test_decode_lcdHome :
    decodeTableWord 16 0b0_00000010 = some .lcdHome ∧ decodeTableWord 16 0b0_00000011 = some .lcdHome := by decide
theorem test_decode_lcdEntry :
    decodeTableWord 16 0b0_00000110 = some (.lcdEntry true false)
      ∧ decodeTableWord 16 0b0_00000101 = some (.lcdEntry false true) := by decide
theorem test_decode_lcdDispctl : decodeTableWord 16 0b0_00001110 = some (.lcdDispctl true true false) := by decide
theorem test_decode_lcdShift : decodeTableWord 16 0b0_00011011 = some (.lcdShift true false) := by decide
theorem test_decode_lcdFuncset :
    decodeTableWord 16 0b0_00111000 = some (.lcdFuncset true true false)
      ∧ decodeTableWord 16 0b0_00100100 = some (.lcdFuncset false false true)
      ∧ decodeTableWord 16 0b0_00101011 = some (.lcdFuncset false true false) := by decide
theorem test_decode_lcdSetcgram : decodeTableWord 16 0b0_01100001 = some (.lcdSetcgram 0x21) := by decide
theorem test_decode_lcdSetddram : decodeTableWord 16 0b0_11000101 = some (.lcdSetddram 0x45) := by decide
theorem test_decode_lcdData : decodeTableWord 16 0b1_01001000 = some (.lcdData 0x48) := by decide

/-! ### Clock (95_test_vectors.md 2.1) -/

theorem test_clkTick : seen (cmd 0x10000000000000000006 { por with cpuCycles := 10 }) State.cpuCycles = some 16 := by decide
theorem test_clkTick_overflow_is_refused :
    stopOf (cmd 0x10000000000000000001 { por with cpuCycles := BitVec.allOnes 64 }) = some (.inr .clockOverflow) := by
  decide
theorem test_clkReset :
    seen (hostCmd 0x11000000000000000000 { por with cpuCycles := 123456, t1 := { por.t1 with counter := 77 } })
      (fun s => (s.cpuCycles, s.t1.counter)) = some (0, 77) := by decide
theorem test_clkMicros_rounds_down :
    seen (cmd 0x12000000000000000000 { por with cpuCycles := 31 }) State.resp = some (.u64 1) := by decide
theorem test_clkMicros : seen (cmd 0x12000000000000000000 { por with cpuCycles := 320000 }) State.resp = some (.u64 20000) := by
  decide
theorem test_clkMillis_rounds_down :
    seen (cmd 0x13000000000000000000 { por with cpuCycles := 15999999 }) State.resp = some (.u64 999) := by decide
theorem test_clkSeconds :
    seen (cmd 0x14000000000000000000 { por with cpuCycles := 8000000 }) State.resp
      = some (.f64 (1 / 2) 0x3FE0000000000000) := by decide +kernel

/-! ### Timers and registers (2.2) -/

theorem test_t0Tick_wraps :
    seen (cmd 0x20000000000000000001 t0Running)
      (fun s => (s.resp, s.t0.counter, s.prescCnt0, s.t0.overflowFlag, s.out))
      = some (.u32 1, 0, 0, true, [.ovf .t0 0]) := by decide
theorem test_t0Tick_stopped :
    seen (cmd 0x200000000000000003E8 por) (fun s => (s.resp, s.t0, s.prescCnt0)) = some (.u32 0, timerReset 0, 0) := by
  decide
theorem test_t1Tick :
    seen (cmd 0x2100000000000000000A t1Running) (fun s => (s.resp, s.t1.counter, s.out))
      = some (.u32 2, 2,
        [.cmp .t1 .a 0, .ovf .t1 0, .pulse 9 .high 0, .pulse 9 .low 0, .cmp .t1 .a 0, .ovf .t1 0, .pulse 9 .high 0,
          .pulse 9 .low 0, .cmp .t1 .a 0]) := by decide
theorem test_t1Tick_requests_one_interrupt_per_wrap :
    seen (cmd 0x21000000000000000004
        { por with t1 := { timerReset 1 with top := 2, initialized := true }, inten := 2 })
      (fun s => (s.resp, s.int.pending, s.int.seqNext)) = some (.u32 2, [⟨0x1A, 0⟩, ⟨0x1A, 1⟩], 2) := by decide
theorem test_regWr_masks_timer0_top :
    seen (cmd 0x220100000000000001FF por) (fun s => (s.t0.top, s.t0.initialized)) = some (0xFF, true)
      ∧ seen (cmd 0x22010000000000000100 por) (fun s => (s.t0.top, s.t0.initialized)) = some (0, false) := by decide
theorem test_regWr_flag_clears_by_one :
    seen (cmd 0x220D0000000000000002 { por with t1 := { por.t1 with overflowFlag := true } })
        (fun s => s.t1.overflowFlag) = some true
      ∧ seen (cmd 0x220D0000000000000001 { por with t1 := { por.t1 with overflowFlag := true } })
        (fun s => s.t1.overflowFlag) = some false := by decide
theorem test_regRd_flag :
    seen (cmd 0x230D0000000000000000
        { por with t1 := { por.t1 with top := 40000, overflowFlag := true, initialized := true } }) State.resp
      = some (.u16 3) := by decide
theorem test_regRd_reserved : seen (cmd 0x23070000000000000000 por) State.resp = some (.u16 0) := by decide

/-! ### Pulse arithmetic (2.2, the table of R95) -/

theorem test_pulse_arithmetic :
    periodUs 40000 8 = 20000 ∧ pulseUs 3000 40000 20000 = 1500 ∧ pulseUs 3999 40000 20000 = 1999
      ∧ pulseUs 50000 40000 20000 = 25000 ∧ periodUs 1000 1 = 62 ∧ pulseUs 500 1000 62 = 31
      ∧ periodUs 65535 1 = 4095 ∧ pulseUs 30000 65535 4095 = 1874 := by decide

/-! ### Interrupt controller (2.3) -/

theorem test_intReq :
    seen (cmd 0x30010000000000000004 { por with int := ⟨.idle, [], 5⟩ }) State.int = some ⟨.idle, [⟨4, 5⟩], 6⟩
      ∧ seen (cmd 0x30000000000000000004 { por with int := ⟨.idle, [], 5⟩ }) State.int = some ⟨.idle, [], 5⟩ := by
  decide
theorem test_intPoll_takes_vector_0_before_4 :
    seen (cmd 0x31000000000000000000 { por with int := ⟨.idle, [⟨4, 0⟩, ⟨0, 1⟩], 2⟩, cpu := ⟨0x123, true, []⟩ })
      (fun s => (s.int, s.cpu)) = some (⟨.idle, [⟨4, 0⟩], 2⟩, ⟨0, false, [0x123]⟩) := by decide
theorem test_intPoll_earliest_of_equals :
    seen (cmd 0x31000000000000000000 { por with int := ⟨.idle, [⟨4, 7⟩, ⟨4, 3⟩], 8⟩, cpu := ⟨0x30, true, [0x123]⟩ })
      (fun s => (s.int.pending, s.cpu)) = some ([⟨4, 7⟩], ⟨4, false, [0x30, 0x123]⟩) := by decide
theorem test_intReti :
    seen (cmd 0x32000000000000000000 { por with cpu := ⟨0x22, false, [0x123, 0x30]⟩ }) State.cpu
      = some ⟨0x123, true, [0x30]⟩ := by decide
theorem test_intReti_empty_is_refused : stopOf (cmd 0x32000000000000000000 por) = some (.inr .retiEmptyStack) := by decide

/-! ### Router (2.4) -/

theorem test_pwmReg_twice_is_one_pair :
    seen (cmd 0x40090000000000000001 { por with registry := [(9, 1)] }) State.registry = some [(9, 1)]
      ∧ seen (hostCmd 0x40090000000000000001 por) State.registry = some [(9, 1)] := by decide
theorem test_pwmUnreg :
    seen (cmd 0x41090000000000000001 { por with registry := [(9, 1), (9, 2)] }) State.registry = some [(9, 2)]
      ∧ seen (cmd 0x41090000000000000007 { por with registry := [(9, 2)] }) State.registry = some [(9, 2)] := by decide
theorem test_pwmRoute :
    seen (cmd 0x420900004E20000005DC { withServo servo1 with cpuCycles := 320000 })
      (fun s => (s.out, (servoAt s 1).map ServoState.targetAngleDeg))
      = some ([.pulse 9 .high 20000, .pulse 9 .low 21500], some 90) := by decide +kernel
theorem test_pwmRise :
    seen (cmd 0x43090000000000000064 (withServo servo1))
      (fun s => (s.out, (servoAt s 1).map ServoState.pulseStartTimeUs))
      = some ([.pulse 9 .high 100], some (some 100)) := by decide +kernel
theorem test_pwmFall :
    seen (cmd 0x44090000000000000640 (withServo { servo1 with pulseStartTimeUs := some 100, targetAngleDeg := 0 }))
      (fun s => (servoAt s 1).map fun sv => (sv.targetAngleDeg, sv.pulseStartTimeUs)) = some (some (90, none)) := by
  decide +kernel
theorem test_pwmFall_before_the_start :
    seen (cmd 0x440900000000000003E8 (withServo { servo1 with pulseStartTimeUs := some 5000 }))
      (fun s => (servoAt s 1).map fun sv => (sv.targetAngleDeg, sv.pulseStartTimeUs)) = some (some (90, none)) := by
  decide +kernel

/-! ### Servo (2.5) -/

theorem test_pulse_width_to_angle :
    pulseWidthToAngle 999 = 0 ∧ pulseWidthToAngle 1001 = 18 / 100 ∧ pulseWidthToAngle 1250 = 45
      ∧ pulseWidthToAngle 1999 = 17982 / 100 ∧ pulseWidthToAngle 25000 = 180 := by decide +kernel
theorem test_srvAnim :
    seen (hostCmd 0x50003FE0000000000000 (withServo { servo1 with targetAngleDeg := 0 }))
      (fun s => ((servoAt s 1).map fun sv => (sv.currentAngleDeg, sv.lastAnimationTickWallclock), s.out))
      = some (some (60, 1 / 2), [.angle 1 60]) := by decide +kernel
theorem test_srvAnim_at_the_deadband :
    seen (hostCmd 0x50003F90000000000000 (withServo { servo1 with currentAngleDeg := 8995 / 100 }))
      (fun s => (servoAt s 1).map ServoState.currentAngleDeg) = some (some 90) := by decide +kernel
theorem test_srvStall :
    seen (hostCmd 0x51010000000000000001 (withServo servo1)) (fun s => (servoAt s 1).map ServoState.isStalled)
      = some (some true) := by decide +kernel

/-! ### LCD (2.6) -/

theorem test_pinChg_first_latch :
    seen (cmd 0x600B0000000000000000
        { withLcd lcd2 with pinlvl := ((por.pinlvl.set 11 true).set 12 true).set 3 true })
      theLcd = some (some { lcd2 with nibbleBuffer := 0x40, awaitingLowNibble := true }) := by decide
theorem test_pinChg_second_latch_writes :
    seen (cmd 0x600B0000000000000000
        { withLcd { lcd2 with nibbleBuffer := 0x40, awaitingLowNibble := true } with
          pinlvl := ((por.pinlvl.set 11 true).set 12 true).set 2 true })
      theLcd = some (some { lcd2 with nibbleBuffer := 0x40, ddram := [(0, 0x48)], cursorAddr := 1 }) := by decide
theorem test_gpioWr_lower_bit_first :
    seen (cmd 0x61000000000000000010
        { withLcd lcd2 with port := [(0, 0x08)], pinlvl := (por.pinlvl.set 11 true).set 3 true })
      (fun s => (theLcd s, levelOf s.pinlvl 12, s.port))
      = some (some { lcd2 with nibbleBuffer := 0x40, awaitingLowNibble := true }, true, [(0, 0x10)]) := by decide
theorem test_gpioWr_port_out_of_range :
    seen (cmd 0x610300000000000000FF por) (fun s => (s.port, levelOf s.pinlvl 7)) = some ([], false) := by
  decide
theorem test_lcdPinmap :
    seen (hostCmd 0x620100000000000D0002 (withLcd lcd2)) (fun s => (lcdAt s 2).map fun e => e.2.en)
      = some (some (some 13)) := by decide
theorem test_lcdNop : seen (lcdCmd 0x000 (withLcd lcd2)) theLcd = some (some lcd2) := by decide
theorem test_lcdClear :
    seen (lcdCmd 0x001 (withLcd { lcd2 with ddram := [(3, 0x41)], cursorAddr := 4 })) theLcd = some (some lcd2) := by
  decide
theorem test_lcdHome :
    seen (lcdCmd 0x002 (withLcd { lcd2 with ddram := [(3, 0x41)], cursorAddr := 4 })) theLcd
      = some (some { lcd2 with ddram := [(3, 0x41)] }) := by decide
theorem test_lcdEntry :
    seen (lcdCmd 0x005 (withLcd lcd2)) theLcd = some (some { lcd2 with entryMode := ⟨.decrement, true⟩ }) := by decide
theorem test_lcdDispctl :
    seen (lcdCmd 0x00C (withLcd lcd2)) theLcd = some (some { lcd2 with displayOn := true }) := by decide
theorem test_lcdShift :
    seen (lcdCmd 0x018 (withLcd lcd2)) theLcd = some (some { lcd2 with outsideSpec := true }) := by decide
theorem test_lcdFuncset_rehomes_the_cursor :
    seen (lcdCmd 0x020 (withLcd { lcd2two with cursorAddr := 0x60 })) theLcd = some (some lcd2)
      ∧ seen (lcdCmd 0x020 (withLcd { lcd2two with cursorAddr := 0x45 })) theLcd
        = some (some { lcd2 with cursorAddr := 0x45 }) := by decide
theorem test_lcdSetcgram :
    seen (lcdCmd 0x040 (withLcd lcd2)) theLcd = some (some { lcd2 with cgramLast := true }) := by decide
theorem test_lcdSetddram_ignores_the_holes :
    seen (lcdCmd 0x0A8 (withLcd { lcd2two with cursorAddr := 0x27 })) theLcd
        = some (some { lcd2two with cursorAddr := 0x27 })
      ∧ seen (lcdCmd 0x0E7 (withLcd { lcd2two with cursorAddr := 0x27 })) theLcd
        = some (some { lcd2two with cursorAddr := 0x67 }) := by decide
theorem test_lcdData_crosses_the_lines :
    seen (lcdCmd 0x141 (withLcd { lcd2two with cursorAddr := 0x27 })) theLcd
      = some (some { lcd2two with ddram := [(39, 0x41)], cursorAddr := 0x40 }) := by decide
theorem test_lcdData_decrements :
    seen (lcdCmd 0x144 (withLcd { lcd2two with cursorAddr := 0x40, entryMode := ⟨.decrement, false⟩ })) theLcd
      = some (some { lcd2two with ddram := [(40, 0x44)], cursorAddr := 0x27, entryMode := ⟨.decrement, false⟩ }) := by
  decide

/-! ### Host operations and reset (2.7) -/

theorem test_actAttach_servo :
    seen (hostCmd 0x70090000000000000001 por) (fun s => (s.act, s.registry))
      = some ([(1, .servo servo1)], [(9, 1)]) := by decide +kernel
theorem test_actAttach_lcd :
    seen (hostCmd 0x70000000000000010002 por) (fun s => (s.act, s.registry))
      = some ([(2, .lcd lcd2 noPins)], []) := by decide
theorem test_actDetach :
    seen (hostCmd 0x71000000000000000001 (withServo servo1)) (fun s => (s.act.length, s.registry)) = some (0, []) := by
  decide
theorem test_lcdGetbuf :
    seen (hostCmd 0x72000000000000000002 (withLcd { lcd2 with ddram := [(0, 0x48), (40, 0x49)] })) State.resp
      = some (.bytes (0x48 :: List.replicate 15 0x20 ++ 0x49 :: List.replicate 15 0x20)) := by decide
theorem test_lcdGetbuf_no_lcd :
    seen (hostCmd 0x72000000000000000006 por) State.resp = some (.bytes (List.replicate 32 0x20)) := by decide
theorem test_sysReset_keeps_the_lcd :
    seen (hostCmd 0x73000000000000000000
        { withLcd { lcd2 with nibbleBuffer := 0x40, awaitingLowNibble := true } with
          pinlvl := por.pinlvl.set 12 true, cpuCycles := 24, inten := 3 })
      (fun s => (theLcd s, levelOf s.pinlvl 12, s.cpuCycles, s.inten))
      = some (some { lcd2 with nibbleBuffer := 0x40, awaitingLowNibble := true }, false, 0, 0) := by decide
theorem test_sysReset_wrong_principal :
    seen (cmd 0x73000000000000000000 { por with cpuCycles := 24 }) State.cpuCycles = some 24 := by decide

/-- `PUSH_LAYOUT` as 93_implementation_defined.md K12 describes a CPU's: two bytes, low byte first, the stack pointer after each
store one lower. -/
theorem test_pushedCells :
    pushedCells { fixtureConfig with pushLayout := .inMemory ⟨[(0, .low), (-1, .high)], -2⟩ } 0x8FF 0x0123
        = ([(0x8FF, 0x23), (0x8FE, 0x01)], 0x8FD)
      ∧ pushedCells fixtureConfig 0x8FF 0x0123 = ([], 0x8FF) := by decide

/-- A claim about the window of an LCD that shifts its display is refused (45_lcd.md R149, U6). -/
theorem test_windowTrusted :
    displaysTrusted (withLcd lcd2) = true ∧ displaysTrusted (withLcd (setEntryMode lcd2 true true)) = false := by decide

/-- What the host places runs as the first instruction after reset. -/
theorem test_withFetchWord :
    seen (step (State.reset.withFetchWord 80 0x10000000000000000006)) State.cpuCycles = some 6
      ∧ seen (step (State.reset.withFetchWord 80 0x70090000000000000001)) (fun s => s.act.length) = some 1
      ∧ seen (step (State.reset.withFetchWord 16 0x148)) (fun s => (lcdAt s 0).map fun e => e.1.ddram)
        = some (some [(0, 0x48)]) := by decide

/-! ### Witnesses: the hypotheses of every statement that has some are met, clause by clause -/

/-- A circuit with a servo (1, on pin 9) and a wired LCD (2) in the given state, the LCD selected. -/
abbrev circuitWith (st : LcdState) : State :=
  { State.reset with act := [(1, .servo servo1), (2, .lcd st wired)], registry := [(9, 1)], lcdSel := 2 }

/-- The circuit with a fresh LCD. -/
abbrev circuit : State := circuitWith lcd2

/-- The same circuit with the host as principal. -/
abbrev circuitHost : State := { circuit with src := .host }

theorem witness_inv_reset : MachineInv por where
  t0_ok := ⟨by decide, by decide, by decide⟩
  t0_narrow := ⟨by decide, by decide, by decide⟩
  t1_ok := ⟨by decide, by decide, by decide⟩
  int_ok := ⟨by decide, by decide, by decide⟩
  registry_rising := by decide
  act_rising := by decide
  act_ok := by intro e he; cases he
  port_wf := by decide

theorem witness_inv_circuitWith (st : LcdState) (h : LcdOk st) : MachineInv (circuitWith st) where
  t0_ok := witness_inv_reset.t0_ok
  t0_narrow := witness_inv_reset.t0_narrow
  t1_ok := witness_inv_reset.t1_ok
  int_ok := witness_inv_reset.int_ok
  registry_rising := List.pairwise_singleton _ _
  act_rising := List.pairwise_pair.mpr (show (1 : InstanceId).toNat < (2 : InstanceId).toNat by decide)
  act_ok := by
    intro e he
    rcases List.mem_pair.mp he with rfl | rfl
    · exact ⟨rfl, rfl, rfl, rfl, fun _ => .inl rfl⟩
    · exact h
  port_wf := witness_inv_reset.port_wf

theorem witness_inv_circuit : MachineInv circuit := witness_inv_circuitWith lcd2 ⟨by decide, by decide, by decide⟩

/-- `DecodeInvertsEncode`: a named operand and the boundary values of each kind of reserved operand. -/
theorem witness_DecodeInvertsEncode :
    (Instr.regWr .t1Top 40000).wf = true ∧ (Instr.regRd (.reserved 0x06)).wf = true
      ∧ (Instr.regRd (.reserved 0xFF)).wf = true ∧ (Instr.lcdPinmap (.reserved 10) 0 0).wf = true
      ∧ (Instr.actAttach 0 (.reserved 2) 0).wf = true := by decide

/-- `OpcodeAloneSelectsTheOperation`, `ReservedOpcodeDoesNothing`: an opcode in use at each end, and the neighbours that are not. -/
theorem witness_OpcodeAloneSelectsTheOperation :
    opField 0x10000000000000000000 ∈ opcodesInUse ∧ opField 0x73000000000000000000 ∈ opcodesInUse
      ∧ opField 0x15000000000000000000 ∉ opcodesInUse ∧ opField 0x74000000000000000000 ∉ opcodesInUse := by decide

/-- `StepRunsTheDecodedInstruction`: both kinds of word. -/
theorem witness_StepRunsTheDecodedInstruction :
    ({ por with cmds := [.cmd .host 0x73000000000000000000] }).cmds = .cmd .host 0x73000000000000000000 :: []
      ∧ decode (.cmd80 0x73000000000000000000) = .ok .sysReset
      ∧ ({ circuit with cmds := [.lcd 2 0x148] }).cmds = .lcd 2 0x148 :: []
      ∧ decode (.lcd9 0x148) = .ok (.lcdData 0x48) := by
  refine ⟨rfl, ?_, rfl, ?_⟩ <;> rfl

/-- `ReservedOpcodeDoesNothing`: a reserved word on the port, and an empty port. -/
theorem witness_ReservedOpcodeDoesNothing :
    ({ por with cmds := [.cmd .host 0x7F000000000000000000] }).cmds = .cmd .host 0x7F000000000000000000 :: []
      ∧ opField 0x7F000000000000000000 ∉ opcodesInUse ∧ por.cmds = [] := by decide

/-- `WrongPrincipalDoesNothing`: a host operation from the step loop and the reverse; an opcode of each class of the table. -/
theorem witness_WrongPrincipalDoesNothing :
    allows .sysReset por.src = false ∧ allows (.clkTick 1) porHost.src = false
      ∧ decodeCmd80 0x11000000000000000000 = .ok .clkReset ∧ decodeCmd80 0x73000000000000000000 = .ok .sysReset
      ∧ decodeCmd80 0x31000000000000000000 = .ok .intPoll := by
  refine ⟨by decide, by decide, ?_, ?_, ?_⟩ <;> rfl

/-- `ClockTickAddsExactly`: the greatest sum with a result and the least without one. -/
theorem witness_ClockTickAddsExactly :
    ({ por with cpuCycles := BitVec.allOnes 64 - 1 }).src = .stepLoop
      ∧ (BitVec.allOnes 64 - 1).toNat + (1 : BitVec 32).toNat < 2 ^ 64
      ∧ 2 ^ 64 ≤ (BitVec.allOnes 64 - 1).toNat + (2 : BitVec 32).toNat := by decide

/-- `ClockSecondsIsTheQuotient`: a default rounding and a quotient some pattern denotes; two clocks, equal and one cycle apart, and
two values that patterns denote. -/
theorem witness_ClockSecondsIsTheQuotient :
    ({ por with cpuCycles := 8000000 }).cfg.rnd64 = .identity
      ∧ (∃ p, binary64Value p
          = some (round64 .identity ((({ por with cpuCycles := 8000000 } : State).cpuCycles.toNat : Rat) / 16000000)))
      ∧ por.cpuCycles.toNat ≤ por.cpuCycles.toNat
      ∧ por.cpuCycles.toNat ≤ ({ por with cpuCycles := 1 } : State).cpuCycles.toNat
      ∧ binary64Value 0 = some 0 ∧ binary64Value 0x3FE0000000000000 = some (1 / 2) :=
  ⟨rfl, ⟨0x3FE0000000000000, by decide +kernel⟩, by decide, by decide, by decide +kernel, by decide +kernel⟩

/-- `Timer0TickResult`: a running timer one below its TOP. -/
theorem witness_Timer0TickResult :
    t0Running.src = .stepLoop ∧ t0Running.t0.prescaler ≠ 0
      ∧ t0Running.prescCnt0.toNat < t0Running.t0.prescaler.toNat
      ∧ t0Running.t0.counter.toNat < effTop .t0 t0Running.t0 := by decide

/-- `Timer1TickResult`, with a servo on pin 9 and one registered on neither output pin. -/
theorem witness_Timer1TickResult :
    t1Running.src = .stepLoop ∧ t1Running.t1.prescaler ≠ 0
      ∧ t1Running.prescCnt1.toNat < t1Running.t1.prescaler.toNat
      ∧ t1Running.t1.counter.toNat < effTop .t1 t1Running.t1
      ∧ ((circuit.cfg.pinOc1a, (7 : InstanceId)) ∉ circuit.registry)
      ∧ ((circuit.cfg.pinOc1b, (7 : InstanceId)) ∉ circuit.registry) := by decide

/-- `LoweredTopWrapsAtTheNextCount`: each timer's counter at TOP and above it (T6, T7 of 95_test_vectors.md); a servo on pin 9 and
one registered on neither output pin. -/
theorem witness_LoweredTopWrapsAtTheNextCount :
    (lowered 10).src = .stepLoop
      ∧ (lowered 10).t1.prescaler ≠ 0 ∧ (lowered 10).prescCnt1.toNat < (lowered 10).t1.prescaler.toNat
      ∧ effTop .t1 (lowered 10).t1 ≤ (lowered 10).t1.counter.toNat
      ∧ effTop .t1 (lowered 50).t1 ≤ (lowered 50).t1.counter.toNat
      ∧ (lowered0 10).src = .stepLoop
      ∧ (lowered0 10).t0.prescaler ≠ 0 ∧ (lowered0 10).prescCnt0.toNat < (lowered0 10).t0.prescaler.toNat
      ∧ effTop .t0 (lowered0 10).t0 ≤ (lowered0 10).t0.counter.toNat
      ∧ effTop .t0 (lowered0 50).t0 ≤ (lowered0 50).t0.counter.toNat
      ∧ ((circuit.cfg.pinOc1a, (7 : InstanceId)) ∉ circuit.registry)
      ∧ ((circuit.cfg.pinOc1b, (7 : InstanceId)) ∉ circuit.registry) := by decide

/-- `StoppedTimerTicksToZero`: both timers after reset. -/
theorem witness_StoppedTimerTicksToZero : por.src = .stepLoop ∧ por.t0.prescaler = 0 ∧ por.t1.prescaler = 0 := by decide

/-- `BatchesLoseNoWraps`: two batches and their sum at the top of the operand; a clock at 0. -/
theorem witness_BatchesLoseNoWraps :
    t1Running.src = .stepLoop ∧ (0xFFFFFFFF : BitVec 32).toNat = (0xFFFFFFFE : BitVec 32).toNat + (1 : BitVec 32).toNat
      ∧ t1Running.cpuCycles.toNat + (0xFFFFFFFF : BitVec 32).toNat < 2 ^ 64 ∧ t1Running.cpuCycles = 0 := by decide

/-- `UnconfiguredTimerEmitsNoPulse`: each of its three cases. -/
theorem witness_UnconfiguredTimerEmitsNoPulse :
    (TimerId.t0 = .t0) ∧ ({ por with t1 := { timerReset 1 with compareA := 2000 } }).t1.top = 0
      ∧ ({ por with t1 := { timerReset 1 with top := 2 } }).t1.compareA = 0
      ∧ ({ por with t1 := { timerReset 1 with top := 2 } }).t1.compareB = 0 := by decide

/-- `OneCountEmitsInOrder`: a count below TOP (the last such), and counts that wrap: of Timer0, of Timer1 with `top` unset and set
(the first that does), the last with a servo registered on its output pin; a tick of one cycle with and without a count. -/
theorem witness_OneCountEmitsInOrder :
    (timer { t1Running with t1 := { t1Running.t1 with counter := 2 } } .t1).counter.toNat + 1
        < effTop .t1 (timer { t1Running with t1 := { t1Running.t1 with counter := 2 } } .t1)
      ∧ effTop .t0 t0Running.t0 ≤ t0Running.t0.counter.toNat + 1
      ∧ por.t1.top = 0 ∧ effTop .t1 { por.t1 with counter := 65534 } ≤ ({ por.t1 with counter := 65534 }).counter.toNat + 1
      ∧ t1Running.t1.top ≠ 0
      ∧ effTop .t1 { t1Running.t1 with counter := 3 } ≤ ({ t1Running.t1 with counter := 3 }).counter.toNat + 1
      ∧ (circuit.cfg.pinOc1a, (1 : InstanceId)) ∈ circuit.registry
      ∧ t0Running.src = .stepLoop ∧ t0Running.t0.prescaler ≠ 0
      ∧ t0Running.t0.prescaler.toNat ≤ t0Running.prescCnt0.toNat + 1
      ∧ (62 : BitVec 16).toNat + 1 < t0Running.t0.prescaler.toNat := by decide

/-- `PulseTimestampsFitSixtyFourBits`. -/
theorem witness_PulseTimestampsFitSixtyFourBits : (1 : BitVec 16) ≠ 0 ∧ (0xFFFF : BitVec 16) ≠ 0 := by decide

/-- The statements whose hypothesis is the principal: `RegisterWriteThenRead`, `RegisterReadReturnsTheField`,
`RequestIsQueuedOrDropped`, `RiseReachesEveryRegisteredServo`, `FallDecodesInEveryRegisteredServo`, `RouteIsARiseAndAFall`
(step loop), and those of the host operations. -/
theorem witness_principals : circuit.src = .stepLoop ∧ porHost.src = .host := by decide

/-- `RegisterWriteThenRead`: a flag write that clears and one that does not, the two TOP registers, the two prescalers. -/
theorem witness_RegisterWriteThenRead :
    (1 : BitVec 16).toNat % 2 = 1 ∧ ¬ (2 : BitVec 16).toNat % 2 = 1 ∧ Reg.t0Top ≠ .t1Top ∧ Reg.t0Presc ≠ .t1Presc
      ∧ (Reg.t0Top = .t0Top → Reg.t0Cmpa ≠ .t0Flag) ∧ (Reg.t1Top = .t1Top → Reg.t1Cmpa ≠ .t1Flag) := by decide

/-- `PollTakesTheHighestPriority`: something pending with `I` set; nothing pending; `I` clear. -/
theorem witness_PollTakesTheHighestPriority :
    twoPending.src = .stepLoop ∧ twoPending.int.pending ≠ [] ∧ twoPending.cpu.i = true
      ∧ por.int.pending = []
      ∧ ({ por with int := ⟨.idle, [⟨4, 0⟩], 1⟩ } : State).cpu.i = false := by decide

/-- `RetiPopsOrIsRefused`: one address saved; none. -/
theorem witness_RetiPopsOrIsRefused :
    ({ por with cpu := ⟨0x22, false, [0x123]⟩ } : State).cpu.rstack = 0x123 :: [] ∧ por.cpu.rstack = [] := by decide

/-- `OnlyDispatchAndReturnWriteTheCpu`: an operation that completes and is none of the three. -/
theorem witness_OnlyDispatchAndReturnWriteTheCpu :
    (∃ t, exec .clkReset circuit = .next t) ∧ Instr.clkReset ≠ .intPoll ∧ Instr.clkReset ≠ .intReti
      ∧ Instr.clkReset ≠ .sysReset := ⟨⟨_, rfl⟩, by decide, by decide, by decide⟩

/-- `PulseWidthDecodesToAngle`: the ranges at their ends. -/
theorem witness_PulseWidthDecodesToAngle :
    (1000 ≤ 1000 ∧ 1000 ≤ 2000) ∧ (1000 ≤ 2000 ∧ 2000 ≤ 2000) := by decide

/-- `AnimationStepResult`: `dt` zero, positive, minus zero; a NaN, an infinity, a negative number. -/
theorem witness_AnimationStepResult :
    porHost.src = .host ∧ binary64Value 0 = some 0 ∧ binary64Value 0x8000000000000000 = some 0
      ∧ binary64Value 0x3FE0000000000000 = some (1 / 2) ∧ binary64Value 0x7FF8000000000000 = none
      ∧ binary64Value 0x7FF0000000000000 = none
      ∧ binary64Value 0xBFF0000000000000 = some (-1) := by decide +kernel

/-- `ServoRateIsBounded`: an animator step of the circuit, its servo at rest and moving. -/
theorem witness_ServoRateIsBounded :
    binary64Value 0x3FE0000000000000 = some (1 / 2) ∧ (0 : Rat) ≤ 1 / 2 ∧ circuit.cfg.rnd32 = .identity
      ∧ circuitHost.src = .host
      ∧ (seen (exec (.srvAnim 0x3FE0000000000000) circuitHost) State.cpuCycles).isSome = true
      ∧ servoAt circuitHost 1 = some servo1 ∧ 0 ≤ servo1.angularSpeedDegPerS := by decide +kernel

/-- `OneNotificationPerMovedServo`: the circuit, with the host as principal. -/
theorem witness_OneNotificationPerMovedServo :
    MachineInv circuitHost ∧ circuitHost.src = .host
      ∧ binary64Value 0x3FE0000000000000 = some (1 / 2) ∧ (0 : Rat) ≤ 1 / 2
      ∧ circuit.cfg.rnd32 = .identity ∧ 0 ≤ circuit.cfg.servoSpeed :=
  ⟨⟨witness_inv_circuit.t0_ok, witness_inv_circuit.t0_narrow, witness_inv_circuit.t1_ok, witness_inv_circuit.int_ok,
      witness_inv_circuit.registry_rising, witness_inv_circuit.act_rising, witness_inv_circuit.act_ok,
      witness_inv_circuit.port_wf⟩, rfl, by decide +kernel, by decide +kernel, rfl, by decide +kernel⟩

/-- `WallClockNeverReachesTheSimulation`: two states that differ, and only in what the wall clock moves. -/
theorem witness_WallClockNeverReachesTheSimulation :
    (∀ p, Instr.pwmRise 9 0 ≠ .srvAnim p)
      ∧ withoutWall (withServo servo1)
          = withoutWall (withServo { servo1 with currentAngleDeg := 60, lastAnimationTickWallclock := 1 })
      ∧ withServo servo1 ≠ withServo { servo1 with currentAngleDeg := 60, lastAnimationTickWallclock := 1 } := by
  exact ⟨fun _ h => (nomatch h), rfl, by decide +kernel⟩

/-- `StallSetsTheFlag`: an id that names the servo, one that names an LCD, one that names nothing. -/
theorem witness_StallSetsTheFlag :
    circuitHost.src = .host ∧ servoAt circuitHost 1 = some servo1 ∧ servoAt circuitHost 2 = none
      ∧ servoAt circuitHost 3 = none := by decide +kernel

/-- `PinChangeLatchesOnFallingEnable`: the invariant with the pin low and with the pin high. -/
theorem witness_PinChangeLatchesOnFallingEnable :
    circuit.src = .stepLoop ∧ MachineInv circuit ∧ levelOf circuit.pinlvl 11 = false
      ∧ MachineInv { circuit with pinlvl := circuit.pinlvl.set 11 true }
      ∧ levelOf (circuit.pinlvl.set 11 true) 11 = true ∧ wired.en = some 11 :=
  ⟨rfl, witness_inv_circuit, by decide,
    ⟨witness_inv_circuit.t0_ok, witness_inv_circuit.t0_narrow, witness_inv_circuit.t1_ok, witness_inv_circuit.int_ok,
      witness_inv_circuit.registry_rising, witness_inv_circuit.act_rising, witness_inv_circuit.act_ok,
      witness_inv_circuit.port_wf⟩, by decide, by decide⟩

/-- `SingleLatchOnlyKeepsTheNibble`, `LatchesAssembleBytes`: both bus widths. -/
theorem witness_LatchesAssembleBytes :
    lcd2.functionSet.bits = .four ∧ lcd2.awaitingLowNibble = false
      ∧ ({ lcd2 with functionSet := ⟨.eight, .one, .f5x8⟩ } : LcdState).functionSet.bits = .eight := by decide

/-- `AssembledByteRunsTheDecodedInstruction`: an LCD selected with a byte it takes; with a cursor no run reaches; none selected. -/
theorem witness_AssembledByteRunsTheDecodedInstruction :
    lcdAt circuit circuit.lcdSel = some (lcd2, wired) ∧ (applyByte lcd2 true 0x48).isSome = true
      ∧ applyByte { lcd2 with cursorAddr := 0x50 } true 0x48 = none ∧ lcdAt por por.lcdSel = none := by decide +kernel

/-- `PortWriteIsItsPinChanges`, `PortWriteCompletes`: the last port and the first beyond it. -/
theorem witness_PortWriteIsItsPinChanges :
    circuit.src = .stepLoop ∧ (2 : BitVec 8).toNat < circuit.cfg.nports ∧ circuit.cfg.nports ≤ (3 : BitVec 8).toNat
      ∧ MachineInv circuit := ⟨rfl, by decide, by decide, witness_inv_circuit⟩

/-- `PinmapBindsOneLine`, `GetbufReturnsTheVisibleCells`: an id that names the LCD, one that names a servo, one that names nothing. -/
theorem witness_PinmapBindsOneLine :
    circuitHost.src = .host ∧ lcdAt circuitHost 2 = some (lcd2, wired) ∧ lcdAt circuitHost 1 = none
      ∧ lcdAt circuitHost 3 = none := by decide +kernel

/-- The byte operations' statements: an LCD selected. -/
theorem witness_selected : lcdAt circuit circuit.lcdSel = some (lcd2, wired) := by decide +kernel

/-- `FunctionSetResult`, `SetDdramMovesTheCursor`: the ends of the ranges of addresses of each geometry. -/
theorem witness_FunctionSetResult :
    validAddr .two 0x27 = true ∧ validAddr .two 0x28 = false ∧ validAddr .two 0x3F = false ∧ validAddr .two 0x40 = true
      ∧ validAddr .two 0x67 = true ∧ validAddr .two 0x68 = false ∧ validAddr .one 0x4F = true
      ∧ validAddr .one 0x50 = false := by decide

/-- `DataWritesOneCellAndAdvances`, `CursorAdvanceWalksTheCells`: the first and the last cell of each geometry, an LCD that no
`LCD.SETCGRAM` has reached. -/
theorem witness_DataWritesOneCellAndAdvances :
    lcdAt circuit circuit.lcdSel = some (lcd2, wired) ∧ LcdOk lcd2 ∧ lcd2.cgramLast = false
      ∧ cellIndex lcd2.functionSet.lines lcd2.cursorAddr = some 0 ∧ cellIndex .one 0x4F = some 79
      ∧ cellIndex .two 0x00 = some 0 ∧ cellIndex .two 0x67 = some 79 :=
  ⟨witness_selected, ⟨by decide, by decide, by decide⟩, by decide, by decide, by decide, by decide, by decide⟩

/-- `BeginSequenceSynchronisesTheLcd`: a wired LCD at AwaitHighNibble, one that waits for a low nibble with a function set to 8-bit
half received, and one in 8-bit mode (L9 of 95_test_vectors.md). -/
theorem witness_BeginSequenceSynchronisesTheLcd :
    let waiting : LcdState := { lcd2 with nibbleBuffer := 0x30, awaitingLowNibble := true }
    let wide : LcdState := { lcd2 with functionSet := ⟨.eight, .one, .f5x8⟩ }
    MachineInv circuit ∧ circuit.src = .stepLoop ∧ lcdAt circuit 2 = some (lcd2, wired)
      ∧ MachineInv (circuitWith waiting) ∧ lcdAt (circuitWith waiting) 2 = some (waiting, wired)
      ∧ MachineInv (circuitWith wide) ∧ lcdAt (circuitWith wide) 2 = some (wide, wired)
      ∧ FourBitWired wired 12 11 2 3 4 5 :=
  ⟨witness_inv_circuit, by decide, by decide +kernel,
    witness_inv_circuitWith _ ⟨by decide, by decide, by decide⟩, by decide +kernel,
    witness_inv_circuitWith _ ⟨by decide, by decide, by decide⟩, by decide +kernel,
    ⟨by decide, by decide, by decide, by decide, by decide, by decide, by decide, by decide⟩⟩

/-- `DetachRemovesTheInstance`, `SysResetKeepsTheCircuit`: a host with something to detach, and to keep. -/
theorem witness_DetachRemovesTheInstance : circuitHost.src = .host ∧ actFind 1 circuitHost.act ≠ none := by decide +kernel

/-- `AttachCreatesTheInstance`: a free id, and one in use. -/
theorem witness_AttachCreatesTheInstance :
    circuitHost.src = .host ∧ actFind 3 circuitHost.act = none ∧ actFind 2 circuitHost.act ≠ none := by decide +kernel

/-- `EveryStepKeepsTheInvariant`, `ParametersStayAndTraceGrows`: a step that goes on from a state with the invariant. -/
theorem witness_EveryStepKeepsTheInvariant :
    MachineInv por ∧ (∃ t, step por = .next t) := ⟨witness_inv_reset, ⟨_, rfl⟩⟩

/-- `StepRunsInTheFixedOrder`, of turns: host operations before and after a `STEP`, a register read between. -/
theorem witness_turns :
    let turns := [Turn.host (.actAttach 9 .servo 1), .step [.intReq 4 true] 2 [(2, 0x10)], .loop (.regRd .t1Cnt),
      .host (.srvAnim 0)]
    por.cmds = [] ∧ (turns.all turnOk) = true
      ∧ (seen (execTurns turns por) fun s => (s.cpuCycles, s.src)) = some (2, .host) := by decide +kernel

/-- `StepRunsInTheFixedOrder`: a register write, a batch and a port write from reset. -/
theorem witness_StepRunsInTheFixedOrder :
    por.cmds = [] ∧ (∀ i v, WItem.regWr i v ∈ [WItem.regWr .t1Top 40000] → i.wf = true)
      ∧ (seen (execAll ([WItem.regWr .t1Top 40000].map itemOp ++ [.clkTick 2, .t0Tick 2, .t1Tick 2, .intPoll]
            ++ [((2 : BitVec 8), (0x10 : Byte))].map fun e => .gpioWr e.1 e.2)
          { por with src := .stepLoop }) State.cpuCycles) = some 2 := by
  refine ⟨rfl, ?_, by decide +kernel⟩
  intro i v h
  cases List.mem_singleton.mp h
  rfl

/-- `StepDispatchesAtItsEnd`: interrupts enabled, the clock with room; a request that is taken at once, and one that waits behind an
entry of a lower vector. -/
theorem witness_StepDispatchesAtItsEnd :
    twoPending.src = .stepLoop ∧ twoPending.cpu.i = true
      ∧ twoPending.cpuCycles.toNat + (0xFFFFFFFF : BitVec 32).toNat < 2 ^ 64
      ∧ seen (execAll (stepOps [.intReq 2 true] 1 []) twoPending) (fun s => (s.cpu.pc, s.int.pending))
          = some (0, [⟨4, 0⟩, ⟨2, 2⟩])
      ∧ seen (execAll (stepOps [.intReq 2 true] 1 []) { twoPending with int := ⟨.idle, [⟨4, 0⟩], 1⟩ })
          (fun s => (s.cpu.pc, s.int.pending)) = some (2, [⟨4, 0⟩]) := by decide

end Sys2Proof.Tests
end

section
/-! What an operation that completes can do, said once; the claims about every operation are read off it. -/

namespace Sys2Proof.Machine

open Sys2Proof

/-! ### Principals -/

/-- From the wrong principal nothing happens; from the right one the operation itself completes. -/
theorem stepOnly_eq_next {s t : State} {r : Result} (h : stepOnly s r = .next t) : t = s ∨ r = .next t := by
  unfold stepOnly at h
  split_ifs at h
  · exact .inr h
  · cases h; exact .inl rfl

/-- The same for the host's operations. -/
theorem hostOnly_eq_next {s t : State} {r : Result} (h : hostOnly s r = .next t) : t = s ∨ r = .next t := by
  unfold hostOnly at h
  split_ifs at h
  · exact .inr h
  · cases h; exact .inl rfl

/-- The effect of an instruction that completes, from `s`. An operation with an update of its own is named by it; the
updates several operations share carry any instruction. -/
inductive Effect (s : State) : Instr → State → Prop
  /-- the wrong principal, or nothing to do -/
  | same (i : Instr) : Effect s i s
  | clock (i : Instr) (c : BitVec 64) : Effect s i { s with cpuCycles := c }
  | respond (i : Instr) (r : Resp) : Effect s i { s with resp := r }
  | tickT0 (c : BitVec 32) : Effect s (.t0Tick c) (tickResult .t0 s c)
  | tickT1 (c : BitVec 32) : Effect s (.t1Tick c) (tickResult .t1 s c)
  | writeReg (r : Reg) (v : BitVec 16) : Effect s (.regWr r v) (writeReg s r v)
  | request (v : BitVec 16) (en : Bool) : Effect s (.intReq v en) (requestInterrupt s v en)
  | dispatch (e : Pending) (he : selectPending s.int.pending = some e) (hi : s.cpu.i = true) :
      Effect s .intPoll (takeInterrupt s e)
  | reti (a : BitVec 16) (rest : List (BitVec 16)) (hr : s.cpu.rstack = a :: rest) :
      Effect s .intReti { s with cpu := { pc := a, i := true, rstack := rest } }
  | register (pin : Pin) (id : InstanceId) :
      Effect s (.pwmReg pin id) { s with registry := regAdd (pin, id) s.registry }
  | unregister (pin : Pin) (id : InstanceId) :
      Effect s (.pwmUnreg pin id) { s with registry := regRemove (pin, id) s.registry }
  | route (pin : Pin) (pw period : BitVec 32) :
      Effect s (.pwmRoute pin pw period) (routePulseAt s pin pw.toNat (microsOf s.cpuCycles.toNat))
  | rise (pin : Pin) (ts : Micros) : Effect s (.pwmRise pin ts) (pulseEvent s pin .high ts)
  | fall (pin : Pin) (ts : Micros) : Effect s (.pwmFall pin ts) (pulseEvent s pin .low ts)
  | anim (dt : BitVec 64) (q : Rat) (hq : binary64Value dt = some q) (h0 : ¬ q < 0) :
      Effect s (.srvAnim dt) (animate s q)
  /-- an actuator in use is replaced by one that is as well formed as it was -/
  | setInstance (i : Instr) (id : InstanceId) (x y : ActInstance) (hx : actFind id s.act = some x)
      (hok : EntryOk s.cfg (id, x) → EntryOk s.cfg (id, y)) : Effect s i { s with act := actSet id y s.act }
  | pin (pin : Pin) (level : Bool) (t : State) (ht : pinChange s pin level = .next t) : Effect s (.pinChg pin level) t
  | port (port : BitVec 8) (v : Byte) (t : State) (hp : port.toNat < s.cfg.nports)
      (ht : portChanges port.toNat (portRead s port.toNat) v (List.range 8) (portWrite s port.toNat v) = .next t) :
      Effect s (.gpioWr port v) t
  | attachServo (pin : Pin) (id : InstanceId) (hid : actFind id s.act = none) :
      Effect s (.actAttach pin .servo id) (attachServo s pin id)
  | attachLcd (pin : Pin) (id : InstanceId) (hid : actFind id s.act = none) :
      Effect s (.actAttach pin .lcd id) (attachLcd s id)
  | detach (id : InstanceId) :
      Effect s (.actDetach id) { s with registry := regDropId id s.registry, act := actDrop id s.act }
  /-- `SYS.RESET` is POR with the input, the response, the circuit and the trace kept (70_reset_and_hazards.md R207,
  R208) -/
  | reset : Effect s .sysReset { powerOn s.cfg with
      cmds := s.cmds, src := s.src, lcdSel := s.lcdSel, resp := s.resp
      registry := s.registry, act := s.act, out := s.out }

theorem Effect.of_stepOnly {s t : State} {i : Instr} {r : Result} (hr : ∀ u, r = .next u → Effect s i u)
    (h : stepOnly s r = .next t) : Effect s i t := by
  obtain rfl | h := stepOnly_eq_next h
  · exact .same i
  · exact hr t h

theorem Effect.of_hostOnly {s t : State} {i : Instr} {r : Result} (hr : ∀ u, r = .next u → Effect s i u)
    (h : hostOnly s r = .next t) : Effect s i t := by
  obtain rfl | h := hostOnly_eq_next h
  · exact .same i
  · exact hr t h

/-- An LCD byte replaces the selected LCD, which stays well formed if the byte keeps `LcdOk`. -/
theorem Effect.of_onSelectedLcd {s t : State} (i : Instr) {f : LcdState → Option LcdState}
    (hf : ∀ st st', LcdOk st → f st = some st' → LcdOk st') (h : onSelectedLcd s f = .next t) : Effect s i t := by
  cases hl : lcdAt s s.lcdSel with
  | none => rw [onSelectedLcd_none s f hl] at h; cases h; exact .same i
  | some x =>
    obtain ⟨st, p⟩ := x
    cases hst : f st with
    | none => simp [onSelectedLcd, hl, hst] at h
    | some st' =>
      rw [onSelectedLcd_of s st st' p f hl hst] at h
      cases h
      exact .setInstance i _ _ _ ((lcdAt_eq_some ..).mp hl) fun hok => hf st st' hok hst

/-- An LCD byte with an effect on every LCD. -/
theorem Effect.of_lcdCommand {s t : State} (i : Instr) {f : LcdState → LcdState}
    (hf : ∀ st, LcdOk st → LcdOk (f st)) (h : onSelectedLcd s (fun st => some (f st)) = .next t) : Effect s i t :=
  .of_onSelectedLcd i (fun st st' hok hst => by cases hst; exact hf st hok) h

/-- Every instruction that completes has one of the effects. -/
theorem exec_effect (i : Instr) (s t : State) (h : exec i s = .next t) : Effect s i t := by
  cases i with
  | clkTick k => exact .of_stepOnly (fun u h => by split_ifs at h; cases h; exact .clock ..) h
  | clkReset => cases h; exact .clock ..
  | clkMicros => cases h; exact .respond ..
  | clkMillis => cases h; exact .respond ..
  | clkSeconds => cases h; exact .respond ..
  | t0Tick c => exact .of_stepOnly (fun u h => by cases h; exact .tickT0 c) h
  | t1Tick c => exact .of_stepOnly (fun u h => by cases h; exact .tickT1 c) h
  | regWr r v => exact .of_stepOnly (fun u h => by cases h; exact .writeReg r v) h
  | regRd r => exact .of_stepOnly (fun u h => by cases h; exact .respond ..) h
  | intReq v en => exact .of_stepOnly (fun u h => by cases h; exact .request v en) h
  | intPoll =>
    refine .of_stepOnly (fun u h => ?_) h
    split at h
    · next e he =>
      split_ifs at h with hi <;> cases h
      · exact .dispatch e he hi
      · exact .same _
    · cases h; exact .same _
  | intReti =>
    refine .of_stepOnly (fun u h => ?_) h
    cases hr : s.cpu.rstack with
    | nil => simp [returnFromInterrupt, hr] at h
    | cons a rest => simp only [returnFromInterrupt, hr] at h; cases h; exact .reti a rest hr
  | pwmReg pin id => cases h; exact .register pin id
  | pwmUnreg pin id => cases h; exact .unregister pin id
  | pwmRoute pin pw period => exact .of_stepOnly (fun u h => by cases h; exact .route pin pw period) h
  | pwmRise pin ts => exact .of_stepOnly (fun u h => by cases h; exact .rise pin ts) h
  | pwmFall pin ts => exact .of_stepOnly (fun u h => by cases h; exact .fall pin ts) h
  | srvAnim dt =>
    refine .of_hostOnly (fun u h => ?_) h
    split at h
    · next q hq =>
      split_ifs at h with h0 <;> cases h
      · exact .same _
      · exact .anim dt q hq h0
    · cases h; exact .same _
  | srvStall id flag =>
    refine .of_hostOnly (fun u h => ?_) h
    split at h
    · next sv hsv =>
      cases h
      exact .setInstance _ _ _ _ ((servoAt_eq_some ..).mp hsv) fun hok =>
        ⟨hok.own_id, hok.speed_eq, hok.deadband_eq, hok.torque_eq, hok.target_range⟩
    · cases h; exact .same _
  | pinChg pin level => exact .of_stepOnly (fun u h => .pin pin level u h) h
  | gpioWr port v =>
    refine .of_stepOnly (fun u h => ?_) h
    split_ifs at h with hp
    · exact .port port v u hp h
    · cases h; exact .same _
  | lcdPinmap role id pin =>
    refine .of_hostOnly (fun u h => ?_) h
    split at h
    · next st p hl =>
      cases h
      exact .setInstance _ _ _ _ ((lcdAt_eq_some ..).mp hl) fun hok => hok
    · cases h; exact .same _
  | actAttach pin kind id =>
    refine .of_hostOnly (fun u h => ?_) h
    split at h <;> cases h
    · next hid => exact .attachServo pin id hid
    · next hid => exact .attachLcd pin id hid
    · exact .same _
    · exact .same _
  | actDetach id => exact .of_hostOnly (fun u h => by cases h; exact .detach id) h
  | lcdGetbuf id => exact .of_hostOnly (fun u h => by split at h <;> cases h <;> exact .respond ..) h
  | sysReset => exact .of_hostOnly (fun u h => by cases h; exact .reset) h
  | lcdNop => exact .of_lcdCommand _ (fun _ hok => hok) h
  | lcdClear => exact .of_lcdCommand _ clearDisplay_ok h
  | lcdHome => exact .of_lcdCommand _ returnHome_ok h
  | lcdEntry d sh => exact .of_lcdCommand _ (setEntryMode_ok · d sh) h
  | lcdDispctl d c b => exact .of_lcdCommand _ (setDisplayControl_ok · d c b) h
  | lcdShift sc rl => exact .of_lcdCommand _ shiftCommand_ok h
  | lcdFuncset l n f => exact .of_lcdCommand _ (setFunction_ok · l n f) h
  | lcdSetcgram a => exact .of_lcdCommand _ setCgramAddr_ok h
  | lcdSetddram a => exact .of_lcdCommand _ (setDdramAddr_ok · a) h
  | lcdData b => exact .of_onSelectedLcd _ (writeData_ok · · b) h

/-- What a step that goes on has done: nothing on an empty port; otherwise it has accepted the next word, and run the
instruction the word is, if it is one. -/
theorem step_eq_next {s t : State} (h : step s = .next t) :
    (s.cmds = [] ∧ t = s) ∨ ∃ w rest, s.cmds = w :: rest
      ∧ (t = accept s w rest ∨ ∃ i, decode (payload w) = .ok i ∧ exec i (accept s w rest) = .next t) := by
  cases hc : s.cmds with
  | nil => rw [step_nil s hc] at h; cases h; exact .inl ⟨rfl, rfl⟩
  | cons w rest =>
    refine .inr ⟨w, rest, rfl, ?_⟩
    cases hd : decode (payload w) with
    | error e => rw [step_error s w rest e hc hd] at h; cases h; exact .inl rfl
    | ok i => rw [step_ok s w rest i hc hd] at h; exact .inr ⟨i, rfl, h⟩

end Sys2Proof.Machine
end

section
/-! A property kept by the elementary updates of a tick is kept by the tick: the induction over a batch, done once. -/

namespace Sys2Proof.Machine

open Sys2Proof

/-- `P` is kept by the updates a tick of timer `n` is made of. -/
structure TickClosed (n : TimerId) (P : State → Prop) : Prop where
  residue : ∀ s v, P s → P (setResidue s n v)
  timer : ∀ s t, P s → P (setTimer s n t)
  emit : ∀ s e, P s → P (emit s e)
  request : ∀ s v en, P s → P (requestInterrupt s v en)
  pulse : ∀ s pin l ts, P s → P (pulseEvent s pin l ts)

section
variable {n : TimerId} {P : State → Prop} (hP : TickClosed n P) {s : State}
include hP

theorem TickClosed.channelPulse (pin : Pin) (cmp : BitVec 16) (ts : Nat) (h : P s) : P (channelPulse s pin cmp ts) := by
  unfold Machine.channelPulse
  split_ifs
  · exact h
  · exact hP.pulse _ _ _ _ (hP.pulse _ _ _ _ h)

theorem TickClosed.pwm1 (ts : Nat) (h : P s) : P (pwm1 s ts) := by
  rw [pwm1_eq]
  split_ifs
  · exact h
  · exact hP.channelPulse _ _ _ (hP.channelPulse _ _ _ h)

theorem TickClosed.wrap (ts : Nat) (h : P s) : P (wrap n s ts) := by
  cases n with
  | t0 => exact hP.request _ _ _ (hP.emit _ _ (hP.timer _ _ h))
  | t1 => exact hP.pwm1 ts (hP.request _ _ _ (hP.emit _ _ (hP.timer _ _ h)))

theorem TickClosed.compareCheck (ts : Nat) (h : P s) : P (compareCheck n s ts) := by
  have channel : ∀ (u : State) ch c, P u → P (compareChannel n u ch c ts) := fun u ch c hu => by
    unfold compareChannel
    split_ifs
    · exact hP.emit _ _ hu
    · exact hu
  exact channel _ .b _ (channel _ .a _ h)

theorem TickClosed.count (ts : Nat) (h : P s) : P (count n s ts).1 := by
  rcases le_or_gt (effTop n (Machine.timer s n)) ((Machine.timer s n).counter.toNat + 1) with hc | hc
  · rw [count_of_le n s ts hc]
    exact hP.compareCheck ts (hP.wrap ts (hP.timer _ _ h))
  · rw [count_of_lt n s ts hc]
    exact hP.compareCheck ts (hP.timer _ _ h)

theorem TickClosed.tickCycle (rest : Nat) (h : P s) : P (tickCycle n s rest).1 := by
  obtain ⟨-, hc⟩ | ⟨-, hc⟩ := tickCycle_cases n s rest
  · rw [hc]; exact hP.count _ (hP.residue _ _ h)
  · rw [hc]; exact hP.residue _ _ h

end

/-- What every cycle of a batch keeps, the batch keeps. -/
theorem tick_induct {n : TimerId} {P : State → Prop} (hP : ∀ s rest, P s → P (tickCycle n s rest).1) {s : State}
    (c : Nat) (h : P s) : P (tick n s c).1 := by
  have cycles : ∀ c (u : State) ovf, P u → P (tickCycles n c u ovf).1 := fun c => by
    induction c with
    | zero => exact fun u ovf hu => hu
    | succ c ih => exact fun u ovf hu => ih _ _ (hP u c hu)
  unfold tick
  split_ifs
  · exact h
  · exact cycles c s 0 h

theorem TickClosed.tick {n : TimerId} {P : State → Prop} (hP : TickClosed n P) {s : State} (c : Nat) (h : P s) :
    P (tick n s c).1 :=
  tick_induct (fun _ rest hu => hP.tickCycle rest hu) c h

/-! ### The trace and the CPU surface -/

/-- A tick only appends to the trace. -/
theorem tick_out_prefix (n : TimerId) (s : State) (c : Nat) : s.out <+: (tick n s c).1.out := by
  refine TickClosed.tick (P := fun t => s.out <+: t.out) ⟨?_, ?_, ?_, ?_, ?_⟩ c List.prefix_rfl
  · intro u v hu; simpa using hu
  · intro u t hu; simpa using hu
  · intro u e hu; exact hu.trans (List.prefix_append ..)
  · intro u v en hu; simpa using hu
  · intro u pin l ts hu; exact hu.trans (List.prefix_append ..)

/-- An effect only appends to the trace. -/
theorem Effect.out_prefix {s t : State} {i : Instr} (h : Effect s i t) : s.out <+: t.out := by
  cases h with
  | tickT0 c => exact tick_out_prefix .t0 s c.toNat
  | tickT1 c => exact tick_out_prefix .t1 s c.toNat
  | writeReg r v => rw [writeReg_out]
  | request v en => rw [requestInterrupt_out]
  | route pin pw period => rw [routePulseAt_out]; exact List.prefix_append ..
  | rise pin ts => exact List.prefix_append ..
  | fall pin ts => exact List.prefix_append ..
  | anim dt q hq h0 => exact List.prefix_append ..
  | pin pin level t ht => rw [pinChange_next s t pin level ht]
  | port port v t hp ht => rw [portChanges_next _ _ _ _ _ t ht]; exact List.prefix_rfl
  | _ => exact List.prefix_rfl

/-- `INT.POLL`, `INT.RETI` and `SYS.RESET` aside, an effect leaves the CPU surface. -/
theorem Effect.cpu_eq {s t : State} {i : Instr} (h : Effect s i t) (hpoll : i ≠ .intPoll) (hreti : i ≠ .intReti)
    (hreset : i ≠ .sysReset) : t.cpu = s.cpu := by
  cases h with
  | dispatch e he hi => exact absurd rfl hpoll
  | reti a rest hr => exact absurd rfl hreti
  | reset => exact absurd rfl hreset
  | tickT0 c => exact (tickFrame_tick .t0 s c.toNat).cpu_eq
  | tickT1 c => exact (tickFrame_tick .t1 s c.toNat).cpu_eq
  | writeReg r v => exact writeReg_cpu s r v
  | request v en => exact requestInterrupt_cpu s v en
  | pin pin level t ht => rw [pinChange_next s t pin level ht]
  | port port v t hp ht => rw [portChanges_next _ _ _ _ _ t ht]; rfl
  | _ => rfl

/-- Settles O25: the updates of the CPU surface are those of the three operations left out. -/
theorem onlyDispatchAndReturnWriteTheCpu : Obligations.OnlyDispatchAndReturnWriteTheCpu := by
  intro i s t h hpoll hreti hreset
  exact (exec_effect i s t h).cpu_eq hpoll hreti hreset

/-- Settles O58: accepting a word touches neither, and no effect writes the parameters or shortens the trace. -/
theorem parametersStayAndTraceGrows : Obligations.ParametersStayAndTraceGrows := by
  intro s t h
  obtain ⟨-, rfl⟩ | ⟨w, rest, -, rfl | ⟨i, -, hi⟩⟩ := step_eq_next h
  · exact ⟨rfl, List.prefix_rfl⟩
  · rw [accept_cfg, accept_out]
    exact ⟨rfl, List.prefix_rfl⟩
  · rw [← accept_cfg s w rest, ← accept_out s w rest]
    exact ⟨(exec_keeps i _ t hi).cfg_eq, (exec_effect i _ t hi).out_prefix⟩

end Sys2Proof.Machine
end

section
/-! The invariant of the machine: it holds at POR, and every part of it is kept by every effect. -/

namespace Sys2Proof.Machine

open Sys2Proof

/-! ### Timers (10_state.md R13 to R17) -/

theorem TimerOk.reset (n : TimerId) (presc : BitVec 16) : TimerOk n (timerReset presc) 0 where
  init_eq := rfl
  counter_lt := by
    rw [show (timerReset presc).counter = 0 from rfl]
    cases n <;> decide
  residue_lt := by simp

theorem narrow_timerReset (presc : BitVec 16) : Narrow (timerReset presc) :=
  ⟨Nat.zero_le _, Nat.zero_le _, Nat.zero_le _⟩

theorem maskByte_le (v : BitVec 16) : (maskByte v).toNat ≤ 0xFF := by
  rw [maskByte, BitVec.toNat_and]
  exact Nat.and_le_right

section
variable {n : TimerId} {t : TimerState} {r : BitVec 16} (h : TimerOk n t r)
include h

theorem TimerOk.setTop (v : BitVec 16) : TimerOk n (setTop t v) r := ⟨rfl, h.counter_lt, h.residue_lt⟩

theorem TimerOk.compareA (v : BitVec 16) : TimerOk n { t with compareA := v } r :=
  ⟨h.init_eq, h.counter_lt, h.residue_lt⟩

theorem TimerOk.compareB (v : BitVec 16) : TimerOk n { t with compareB := v } r :=
  ⟨h.init_eq, h.counter_lt, h.residue_lt⟩

theorem TimerOk.prescaler (v : BitVec 16) : TimerOk n { t with prescaler := v } 0 :=
  ⟨h.init_eq, h.counter_lt, by simp⟩

theorem TimerOk.writeFlag (v : BitVec 16) : TimerOk n (writeFlag t v) r := by
  unfold Machine.writeFlag
  split_ifs
  · exact ⟨h.init_eq, h.counter_lt, h.residue_lt⟩
  · exact h

end

theorem Narrow.writeFlag {t : TimerState} (h : Narrow t) (v : BitVec 16) : Narrow (writeFlag t v) := by
  unfold Machine.writeFlag
  split_ifs
  · exact ⟨h.top_le, h.compareA_le, h.compareB_le⟩
  · exact h

/-- A timer whose `top` fits its natural period never counts past it. -/
theorem effTop_le_naturalTop {n : TimerId} {t : TimerState} (h : t.top.toNat ≤ naturalTop n) :
    effTop n t ≤ naturalTop n := by
  unfold effTop
  split_ifs
  · exact le_rfl
  · exact h

/-- The ticked timer meets its part of the invariant, and its `top` fits its natural period. -/
structure TickOk (n : TimerId) (s : State) : Prop where
  ok : TimerOk n (timer s n) (residue s n)
  top_le : (timer s n).top.toNat ≤ naturalTop n

/-- A count wraps to 0 or stays below the TOP. -/
theorem TickOk.count {n : TimerId} {s : State} (h : TickOk n s) (ts : Nat) : TickOk n (count n s ts).1 := by
  obtain ⟨⟨hinit, hcnt, hres⟩, htop⟩ := h
  rw [← residue_count n s ts] at hres
  have hle := effTop_le_naturalTop htop
  have hlt := (timer s n).counter.isLt
  rcases le_or_gt (effTop n (timer s n)) ((timer s n).counter.toNat + 1) with hc | hc
  · have ht := timer_count n s ts
    rw [if_pos hc] at ht
    refine ⟨?_, by rw [ht]; exact htop⟩
    rw [ht]
    exact ⟨hinit, Nat.zero_lt_of_lt hcnt, hres⟩
  · have ht := timer_count n s ts
    rw [if_neg (by omega)] at ht
    have hadd : ((timer s n).counter + 1).toNat = (timer s n).counter.toNat + 1 :=
      BitVec.toNat_add_of_lt (by have := effTop_le n (timer s n); change _ + 1 < 65536; omega)
    refine ⟨?_, by rw [ht]; exact htop⟩
    rw [ht]
    exact ⟨hinit, by dsimp only; omega, hres⟩

/-- A cycle counts with a residue of 0, or leaves the residue below the prescaler. -/
theorem TickOk.tickCycle {n : TimerId} {s : State} (h : TickOk n s) (rest : Nat) :
    TickOk n (tickCycle n s rest).1 := by
  obtain ⟨⟨hinit, hcnt, hres⟩, htop⟩ := h
  have withResidue : ∀ v : BitVec 16, v.toNat < max (timer s n).prescaler.toNat 1 → TickOk n (setResidue s n v) :=
    fun v hv => ⟨by rw [timer_setResidue, residue_setResidue]; exact ⟨hinit, hcnt, hv⟩,
      by rw [timer_setResidue]; exact htop⟩
  obtain ⟨-, hc⟩ | ⟨hlt, hc⟩ := tickCycle_cases n s rest
  · rw [hc]; exact (withResidue 0 (by simp)).count _
  · rw [hc]
    refine withResidue _ ?_
    rw [BitVec.toNat_add_of_lt (by have := (timer s n).prescaler.isLt; change _ + 1 < 65536; omega)]
    exact lt_max_of_lt_left hlt

theorem TickOk.tick {n : TimerId} {s : State} (h : TickOk n s) (c : Nat) : TickOk n (tick n s c).1 :=
  tick_induct (fun _ rest hu => hu.tickCycle rest) c h

/-! ### The interrupt controller (10_state.md R22 to R24) -/

theorem intReset_ok : IntOk intReset := ⟨rfl, .nil, by simp [intReset]⟩

/-- A request takes the next sequence number. -/
theorem IntOk.request {s : State} (h : IntOk s.int) (v : BitVec 16) (en : Bool) :
    IntOk (requestInterrupt s v en).int := by
  cases en with
  | false => exact h
  | true =>
    refine ⟨h.idle, ?_, ?_⟩
    · rw [requestInterrupt_pending, List.pairwise_append]
      refine ⟨h.rising, List.pairwise_singleton .., fun x hx y hy => ?_⟩
      rw [List.mem_singleton.mp hy]
      exact h.handed_out x hx
    · rw [requestInterrupt_pending, requestInterrupt_seqNext]
      intro e he
      rcases List.mem_append.mp he with he | he
      · exact Nat.lt_succ_of_lt (h.handed_out e he)
      · rw [List.mem_singleton.mp he]; exact Nat.lt_succ_self _

/-- Taking an entry leaves the others in order. -/
theorem IntOk.take {s : State} (h : IntOk s.int) (e : Pending) : IntOk (takeInterrupt s e).int :=
  ⟨rfl, h.rising.sublist List.erase_sublist, fun x hx => h.handed_out x (List.mem_of_mem_erase hx)⟩

theorem intOk_tickClosed (n : TimerId) : TickClosed n fun s => IntOk s.int where
  residue s v h := by simpa using h
  timer s t h := by simpa using h
  emit s e h := h
  request s v en h := h.request v en
  pulse s pin l ts h := h

/-! ### The actuator table (10_state.md R26 to R29, R32) -/

theorem freshServo_ok (cfg : Config) (pin : Pin) (id : InstanceId) : ServoOk cfg id (freshServo cfg pin id) where
  own_id := rfl
  speed_eq := rfl
  deadband_eq := rfl
  torque_eq := rfl
  target_range hr := .inl (by simp [freshServo, hr])

theorem freshLcd_ok (cfg : Config) : LcdOk (freshLcd cfg) := ⟨validAddr_zero _, Memory.wf_nil .., BitVec.zero_and⟩

/-- A pulse sets a target the decoder gives, or none. -/
theorem ServoOk.pulse {cfg : Config} {id : InstanceId} {sv : ServoState} (h : ServoOk cfg id sv) (l : Level)
    (ts : Micros) : ServoOk cfg id (servoPulse cfg.rnd32 l ts sv) := by
  obtain ⟨hid, hspeed, hdead, htorque, htarget⟩ := h
  unfold servoPulse
  split
  · exact ⟨hid, hspeed, hdead, htorque, htarget⟩
  · split_ifs
    · refine ⟨hid, hspeed, hdead, htorque, fun hr => .inr ?_⟩
      rw [hr, round32_identity]
      exact pulseWidthToAngle_range _
    · exact ⟨hid, hspeed, hdead, htorque, htarget⟩
  · exact ⟨hid, hspeed, hdead, htorque, htarget⟩

/-- The animator moves the current angle and the time only. -/
theorem ServoOk.anim {cfg : Config} {id : InstanceId} {sv : ServoState} (h : ServoOk cfg id sv) (dt : Rat) :
    ServoOk cfg id (animStep cfg dt sv).1 := by
  obtain ⟨hid, hspeed, hdead, htorque, htarget⟩ := h
  by_cases hr : Rests dt sv
  · rw [animStep_of_rests cfg dt sv hr]; exact ⟨hid, hspeed, hdead, htorque, htarget⟩
  · rw [animStep_of_not_rests cfg dt sv hr]; exact ⟨hid, hspeed, hdead, htorque, htarget⟩

theorem entryOk_deliverTo (cfg : Config) (g : List (Pin × InstanceId)) (pin : Pin) (l : Level) (ts : Micros)
    (e : InstanceId × ActInstance) (h : EntryOk cfg e) : EntryOk cfg (deliverTo cfg.rnd32 g pin l ts e) := by
  obtain ⟨id, sv | ⟨st, p⟩⟩ := e
  · rw [deliverTo_servo]
    split_ifs
    · exact ServoOk.pulse h l ts
    · exact h
  · exact h

theorem entryOk_animEntry (cfg : Config) (dt : Rat) (e : InstanceId × ActInstance) (h : EntryOk cfg e) :
    EntryOk cfg (animEntry cfg dt e) := by
  obtain ⟨id, sv | ⟨st, p⟩⟩ := e
  · exact ServoOk.anim h dt
  · exact h

/-- The invariant's part about the actuator table. -/
structure ActOk (cfg : Config) (t : List (InstanceId × ActInstance)) : Prop where
  rising : t.Pairwise fun x y => x.1.toNat < y.1.toNat
  entries : ∀ e ∈ t, EntryOk cfg e

section
variable {cfg : Config} {t : List (InstanceId × ActInstance)} (h : ActOk cfg t)
include h

theorem ActOk.map (f : InstanceId × ActInstance → InstanceId × ActInstance) (hid : ∀ e, (f e).1 = e.1)
    (hf : ∀ e, EntryOk cfg e → EntryOk cfg (f e)) : ActOk cfg (t.map f) where
  rising := rising_map f hid t h.rising
  entries e he := by
    obtain ⟨x, hx, rfl⟩ := List.mem_map.mp he
    exact hf x (h.entries x hx)

theorem ActOk.set (id : InstanceId) (x : ActInstance) (hx : EntryOk cfg (id, x)) : ActOk cfg (actSet id x t) where
  rising := rising_of_map_fst t _ (actSet_map_fst id x t) h.rising
  entries e he := by
    rcases mem_actSet id x t e he with rfl | he
    · exact hx
    · exact h.entries e he

theorem ActOk.put (id : InstanceId) (x : ActInstance) (hid : actFind id t = none) (hx : EntryOk cfg (id, x)) :
    ActOk cfg (actPut id x t) where
  rising := actPut_rising id x t h.rising hid
  entries e he := by
    rcases (mem_actPut id x t e).mp he with rfl | he
    · exact hx
    · exact h.entries e he

theorem ActOk.drop (id : InstanceId) : ActOk cfg (actDrop id t) where
  rising := h.rising.filter _
  entries e he := h.entries e ((mem_actDrop id t e).mp he).1

end

theorem ActOk.pulse {s : State} (h : ActOk s.cfg s.act) (pin : Pin) (l : Level) (ts : Micros) :
    ActOk s.cfg (pulseEvent s pin l ts).act :=
  h.map _ (deliverTo_fst _ _ _ _ _) (entryOk_deliverTo _ _ _ _ _)

theorem actOk_tickClosed (n : TimerId) : TickClosed n fun s => ActOk s.cfg s.act where
  residue s v h := by simpa using h
  timer s t h := by simpa using h
  emit s e h := h
  request s v en h := by simpa using h
  pulse s pin l ts h := h.pulse pin l ts

/-- A pin change that completes keeps the actuator table well formed. -/
theorem ActOk.pinChange {s t : State} (h : ActOk s.cfg s.act) (pin : Pin) (level : Bool)
    (ht : pinChange s pin level = .next t) : ActOk t.cfg t.act := by
  obtain ⟨u, hu, -, -, hids, hok, -⟩ := pinChange_completes s pin level h.entries
  obtain rfl : u = t := by rw [hu] at ht; cases ht; rfl
  exact ⟨rising_of_map_fst _ _ hids h.rising, hok⟩

/-- So do the pin changes of a port write. -/
theorem ActOk.portChanges (port : Nat) (old v : Byte) (bits : List Nat) {s t : State} (h : ActOk s.cfg s.act)
    (ht : portChanges port old v bits s = .next t) : ActOk t.cfg t.act := by
  induction bits generalizing s with
  | nil => cases ht; exact h
  | cons b bits ih =>
    simp only [Machine.portChanges] at ht
    split_ifs at ht
    · exact ih h ht
    · split at ht
      · obtain ⟨u, hu, hut⟩ := (andThen_eq_next _ _ _).mp ht
        exact ih (h.pinChange _ _ hu) hut
      · exact ih h ht

/-! ### The whole invariant -/

/-- Settles O55: a machine at POR has reset timers, an idle controller and empty tables. -/
theorem invariantHoldsAtPowerOn : Obligations.InvariantHoldsAtPowerOn := fun cfg =>
  { t0_ok := .reset .t0 cfg.presc0Reset
    t0_narrow := narrow_timerReset cfg.presc0Reset
    t1_ok := .reset .t1 cfg.presc1Reset
    int_ok := intReset_ok
    registry_rising := .nil
    act_rising := .nil
    act_ok := fun _ he => absurd he List.not_mem_nil
    port_wf := Memory.wf_nil .. }

section
variable {s : State} (h : MachineInv s)
include h

theorem MachineInv.actOk : ActOk s.cfg s.act := ⟨h.act_rising, h.act_ok⟩

/-- Either timer is one a tick keeps in order: Timer0 because it is narrow, Timer1 by its width. -/
theorem MachineInv.tickOk (n : TimerId) : TickOk n s := by
  cases n with
  | t0 => exact ⟨h.t0_ok, h.t0_narrow.top_le⟩
  | t1 => exact ⟨h.t1_ok, Nat.le_of_lt_succ s.t1.top.isLt⟩

theorem MachineInv.accept (w : BusWord) (rest : List BusWord) : MachineInv (accept s w rest) := by
  cases w <;> exact { h with }

theorem MachineInv.pulse (pin : Pin) (l : Level) (ts : Micros) : MachineInv (pulseEvent s pin l ts) :=
  let ha := h.actOk.pulse pin l ts
  { h with act_rising := ha.rising, act_ok := ha.entries }

theorem MachineInv.writeReg (r : Reg) (v : BitVec 16) : MachineInv (writeReg s r v) := by
  obtain ⟨htop, ha, hb⟩ := h.t0_narrow
  cases r with
  | t0Top => exact { h with t0_ok := h.t0_ok.setTop _, t0_narrow := ⟨maskByte_le v, ha, hb⟩ }
  | t0Cmpa => exact { h with t0_ok := h.t0_ok.compareA _, t0_narrow := ⟨htop, maskByte_le v, hb⟩ }
  | t0Cmpb => exact { h with t0_ok := h.t0_ok.compareB _, t0_narrow := ⟨htop, ha, maskByte_le v⟩ }
  | t0Presc => exact { h with t0_ok := h.t0_ok.prescaler v, t0_narrow := ⟨htop, ha, hb⟩ }
  | t0Flag => exact { h with t0_ok := h.t0_ok.writeFlag v, t0_narrow := h.t0_narrow.writeFlag v }
  | t1Top => exact { h with t1_ok := h.t1_ok.setTop v }
  | t1Cmpa => exact { h with t1_ok := h.t1_ok.compareA v }
  | t1Cmpb => exact { h with t1_ok := h.t1_ok.compareB v }
  | t1Presc => exact { h with t1_ok := h.t1_ok.prescaler v }
  | t1Flag => exact { h with t1_ok := h.t1_ok.writeFlag v }
  | inten => exact { h with }
  | t0Cnt => exact h
  | t1Cnt => exact h
  | reserved index => exact h

theorem MachineInv.request (v : BitVec 16) (en : Bool) : MachineInv (requestInterrupt s v en) := by
  have hi := h.int_ok.request v en
  cases en with
  | false => exact h
  | true => exact { h with int_ok := hi }

/-- A tick keeps the invariant: of the ticked timer by counting, of the controller and the table by their closure, of the
rest by the frame of a tick. -/
theorem MachineInv.tick (n : TimerId) (c : Nat) : MachineInv (tick n s c).1 := by
  have hn := (h.tickOk n).tick c
  have hi := (intOk_tickClosed n).tick c h.int_ok
  have ha := (actOk_tickClosed n).tick c h.actOk
  have hf := tickFrame_tick n s c
  cases n with
  | t0 =>
    rw [hf.eq_t0] at hn hi ha ⊢
    exact { h with
      t0_ok := hn.ok
      t0_narrow := ⟨h.t0_narrow.top_le, h.t0_narrow.compareA_le, h.t0_narrow.compareB_le⟩
      int_ok := hi, act_rising := ha.rising, act_ok := ha.entries }
  | t1 =>
    rw [hf.eq_t1] at hn hi ha ⊢
    exact { h with t1_ok := hn.ok, int_ok := hi, act_rising := ha.rising, act_ok := ha.entries }

/-- Every effect keeps the invariant. -/
theorem MachineInv.effect {i : Instr} {t : State} (he : Effect s i t) : MachineInv t := by
  cases he with
  | same => exact h
  | clock i c => exact { h with }
  | respond i r => exact { h with }
  | tickT0 c => exact { h.tick .t0 c.toNat with }
  | tickT1 c => exact { h.tick .t1 c.toNat with }
  | writeReg r v => exact h.writeReg r v
  | request v en => exact h.request v en
  | dispatch e he hi => exact { h with int_ok := h.int_ok.take e }
  | reti a rest hr => exact { h with }
  | register pin id => exact { h with registry_rising := regAdd_rising _ _ h.registry_rising }
  | unregister pin id => exact { h with registry_rising := h.registry_rising.filter _ }
  | route pin pw period => exact (h.pulse ..).pulse ..
  | rise pin ts => exact h.pulse ..
  | fall pin ts => exact h.pulse ..
  | anim dt q hq h0 =>
    have ha := h.actOk.map (animEntry s.cfg q) (animEntry_fst _ _) (entryOk_animEntry _ _)
    exact { h with act_rising := ha.rising, act_ok := ha.entries }
  | setInstance i id x y hx hok =>
    have ha := h.actOk.set id y (hok (h.act_ok _ (actFind_mem id x s.act hx)))
    exact { h with act_rising := ha.rising, act_ok := ha.entries }
  | pin pin level t ht =>
    have ha := h.actOk.pinChange pin level ht
    rw [pinChange_next s t pin level ht] at ha ⊢
    exact { h with act_rising := ha.rising, act_ok := ha.entries }
  | port port v t hp ht =>
    have ha := ActOk.portChanges _ _ _ _ (s := portWrite s port.toNat v) h.actOk ht
    rw [portChanges_next _ _ _ _ _ t ht] at ha ⊢
    exact { h with
      act_rising := ha.rising, act_ok := ha.entries
      port_wf := cellWrite_wf _ _ _ _ _ h.port_wf hp }
  | attachServo pin id hid =>
    have ha := h.actOk.put id (.servo (freshServo s.cfg pin id)) hid (freshServo_ok s.cfg pin id)
    exact { h with
      act_rising := ha.rising, act_ok := ha.entries
      registry_rising := regAdd_rising _ _ h.registry_rising }
  | attachLcd pin id hid =>
    have ha := h.actOk.put id (.lcd (freshLcd s.cfg) noPins) hid (freshLcd_ok s.cfg)
    exact { h with act_rising := ha.rising, act_ok := ha.entries }
  | detach id =>
    have ha := h.actOk.drop id
    exact { h with
      act_rising := ha.rising, act_ok := ha.entries
      registry_rising := h.registry_rising.filter _ }
  | reset =>
    exact { invariantHoldsAtPowerOn s.cfg with
      registry_rising := h.registry_rising, act_rising := h.act_rising, act_ok := h.act_ok }

end

/-- Settles O56: accepting a word touches no part of the invariant, and every effect keeps it. -/
theorem everyStepKeepsTheInvariant : Obligations.EveryStepKeepsTheInvariant := by
  intro s t h hs
  obtain ⟨-, rfl⟩ | ⟨w, rest, -, rfl | ⟨i, -, hi⟩⟩ := step_eq_next hs
  · exact h
  · exact h.accept w rest
  · exact (h.accept w rest).effect (exec_effect i _ t hi)

end Sys2Proof.Machine
end

section
/-! The encoding (30_encoding.md): which opcode each instruction has, and that the decoder and the encoder agree on it. -/

namespace Sys2Proof

open Sys2Proof.Machine

/-! ### Opcodes (R61) -/

/-- The `op` value of an operation of the command port (30_encoding.md R61); an LCD byte has none. -/
def opcodeOf : Instr → Option (BitVec 8)
  | .clkTick _ => some 0x10
  | .clkReset => some 0x11
  | .clkMicros => some 0x12
  | .clkMillis => some 0x13
  | .clkSeconds => some 0x14
  | .t0Tick _ => some 0x20
  | .t1Tick _ => some 0x21
  | .regWr _ _ => some 0x22
  | .regRd _ => some 0x23
  | .intReq _ _ => some 0x30
  | .intPoll => some 0x31
  | .intReti => some 0x32
  | .pwmReg _ _ => some 0x40
  | .pwmUnreg _ _ => some 0x41
  | .pwmRoute _ _ _ => some 0x42
  | .pwmRise _ _ => some 0x43
  | .pwmFall _ _ => some 0x44
  | .srvAnim _ => some 0x50
  | .srvStall _ _ => some 0x51
  | .pinChg _ _ => some 0x60
  | .gpioWr _ _ => some 0x61
  | .lcdPinmap _ _ _ => some 0x62
  | .actAttach _ _ _ => some 0x70
  | .actDetach _ => some 0x71
  | .lcdGetbuf _ => some 0x72
  | .sysReset => some 0x73
  | .lcdNop | .lcdClear | .lcdHome | .lcdEntry _ _ | .lcdDispctl _ _ _ | .lcdShift _ _ | .lcdFuncset _ _ _
  | .lcdSetcgram _ | .lcdSetddram _ | .lcdData _ => none

/-- The encoder writes the opcode into the `op` field. -/
theorem encode_of_opcodeOf {i : Instr} {op : BitVec 8} (h : opcodeOf i = some op) :
    ∃ w, encode i = .cmd80 w ∧ opField w = op := by
  cases i <;> cases h <;> exact ⟨_, rfl, opField_cmdWord ..⟩

/-- An opcode in use decodes, whatever the other fields hold, to a well-formed instruction that has it. -/
theorem decodeFields_of_mem {op : BitVec 8} (h : op ∈ opcodesInUse) (a : BitVec 8) (d : BitVec 64) :
    ∃ i, decodeFields op a d = .ok i ∧ opcodeOf i = some op ∧ i.wf = true := by
  revert op
  simp only [opcodesInUse, List.forall_mem_cons]
  exact ⟨⟨.clkTick _, rfl, rfl, rfl⟩, ⟨.clkReset, rfl, rfl, rfl⟩, ⟨.clkMicros, rfl, rfl, rfl⟩,
    ⟨.clkMillis, rfl, rfl, rfl⟩, ⟨.clkSeconds, rfl, rfl, rfl⟩, ⟨.t0Tick _, rfl, rfl, rfl⟩, ⟨.t1Tick _, rfl, rfl, rfl⟩,
    ⟨.regWr _ _, rfl, rfl, regOfIndex_wf a⟩, ⟨.regRd _, rfl, rfl, regOfIndex_wf a⟩, ⟨.intReq _ _, rfl, rfl, rfl⟩,
    ⟨.intPoll, rfl, rfl, rfl⟩, ⟨.intReti, rfl, rfl, rfl⟩, ⟨.pwmReg _ _, rfl, rfl, rfl⟩, ⟨.pwmUnreg _ _, rfl, rfl, rfl⟩,
    ⟨.pwmRoute _ _ _, rfl, rfl, rfl⟩, ⟨.pwmRise _ _, rfl, rfl, rfl⟩, ⟨.pwmFall _ _, rfl, rfl, rfl⟩,
    ⟨.srvAnim _, rfl, rfl, rfl⟩, ⟨.srvStall _ _, rfl, rfl, rfl⟩, ⟨.pinChg _ _, rfl, rfl, rfl⟩,
    ⟨.gpioWr _ _, rfl, rfl, rfl⟩, ⟨.lcdPinmap _ _ _, rfl, rfl, roleOfNumber_wf a⟩,
    ⟨.actAttach _ _ _, rfl, rfl, kindOfNumber_wf _⟩, ⟨.actDetach _, rfl, rfl, rfl⟩, ⟨.lcdGetbuf _, rfl, rfl, rfl⟩,
    ⟨.sysReset, rfl, rfl, rfl⟩, List.forall_mem_nil _⟩

/-- Any other opcode is rejected (R65 (a)). -/
theorem decodeFields_of_not_mem {op : BitVec 8} (h : op ∉ opcodesInUse) (a : BitVec 8) (d : BitVec 64) :
    decodeFields op a d = .error (.reservedOp op) := by
  simp only [opcodesInUse, List.mem_cons, not_or] at h
  simp only [decodeFields, h, if_false]

/-- What a command word decodes to has the word's own opcode. -/
theorem opcodeOf_of_decodeCmd80 {w : BitVec 80} {i : Instr} (h : decodeCmd80 w = .ok i) :
    opcodeOf i = some (opField w) := by
  by_cases hop : opField w ∈ opcodesInUse
  · obtain ⟨j, hj, hopcode, -⟩ := decodeFields_of_mem hop (aField w) (dField w)
    obtain rfl : j = i := Except.ok.inj (hj.symm.trans h)
    exact hopcode
  · exact absurd ((decodeFields_of_not_mem hop _ _).symm.trans h) nofun

/-! ### Operand fields (R62) -/

/-- A field widened with zeros reads back. -/
theorem extractLsb'_setWidth {n m : Nat} (v : BitVec n) (h : n ≤ m) : (v.setWidth m).extractLsb' 0 n = v := by
  rw [← BitVec.setWidth_eq_extractLsb' h, BitVec.setWidth_setWidth_of_le _ h, BitVec.setWidth_eq]

/-! ### LCD bytes (R67) -/

theorem getLsbD_append_high {n m : Nat} (x : BitVec n) (y : BitVec m) (k : Nat) :
    (x ++ y).getLsbD (m + k) = x.getLsbD k := by
  simp [BitVec.getLsbD_append]

theorem extractLsb'_append_right {n m : Nat} (x : BitVec n) (y : BitVec m) : (x ++ y).extractLsb' 0 m = y :=
  (extractLsb'_append_low 0 m x y (Nat.zero_add m).le).trans BitVec.extractLsb'_eq_self

/-- The row `1 b[7:0]`. -/
theorem decodeLcd9_data (b : Byte) : decodeLcd9 (0b1#1 ++ b) = .lcdData b := by
  have h8 : BitVec.getLsbD (w := 9) (0b1#1 ++ b) 8 = true := getLsbD_append_high 0b1#1 b 0
  rw [decodeLcd9, if_pos h8]
  exact congrArg _ (extractLsb'_append_right 0b1#1 b)

/-- The row `0 1 a[6:0]`. -/
theorem decodeLcd9_setddram (a : BitVec 7) : decodeLcd9 (0b01#2 ++ a) = .lcdSetddram a := by
  have h8 : BitVec.getLsbD (w := 9) (0b01#2 ++ a) 8 = false := getLsbD_append_high 0b01#2 a 1
  have h7 : BitVec.getLsbD (w := 9) (0b01#2 ++ a) 7 = true := getLsbD_append_high 0b01#2 a 0
  rw [decodeLcd9, if_neg (Bool.eq_false_iff.mp h8), if_pos h7]
  exact congrArg _ (extractLsb'_append_right 0b01#2 a)

/-- The row `0 0 1 a[5:0]`. -/
theorem decodeLcd9_setcgram (a : BitVec 6) : decodeLcd9 (0b001#3 ++ a) = .lcdSetcgram a := by
  have h8 : BitVec.getLsbD (w := 9) (0b001#3 ++ a) 8 = false := getLsbD_append_high 0b001#3 a 2
  have h7 : BitVec.getLsbD (w := 9) (0b001#3 ++ a) 7 = false := getLsbD_append_high 0b001#3 a 1
  have h6 : BitVec.getLsbD (w := 9) (0b001#3 ++ a) 6 = true := getLsbD_append_high 0b001#3 a 0
  rw [decodeLcd9, if_neg (Bool.eq_false_iff.mp h8), if_neg (Bool.eq_false_iff.mp h7), if_pos h6]
  exact congrArg _ (extractLsb'_append_right 0b001#3 a)

/-- In a byte whose bits above `k` are clear, bit `k` is set exactly when the byte is at least 2^k: a test of the decoder
is a range of R67. -/
theorem ite_getLsbD_of_lt {α : Type} {n : Nat} {w : BitVec n} {x x' y y' : α} (k : Nat) (hw : w.toNat < 2 ^ (k + 1))
    (hset : 2 ^ k ≤ w.toNat → x = x') (hclear : w.toNat < 2 ^ k → y = y') :
    (if w.getLsbD k then x else y) = if 2 ^ k ≤ w.toNat then x' else y' := by
  by_cases hk : 2 ^ k ≤ w.toNat
  · have hbit : w.getLsbD k = true := Nat.testBit_of_two_pow_le_and_two_pow_add_one_gt hk hw
    rw [if_pos hbit, if_pos hk, hset hk]
  · have hbit : w.getLsbD k = false := Nat.testBit_lt_two_pow (Nat.not_le.mp hk)
    rw [if_neg (Bool.eq_false_iff.mp hbit), if_neg hk, hclear (Nat.not_le.mp hk)]

/-- The bits below bit `k` of a value of at least 2^k do not change when 2^k is taken off. -/
theorem extractLsb'_of_two_pow_le {n k : Nat} {w : BitVec n} (hk : 2 ^ k ≤ w.toNat) :
    w.extractLsb' 0 k = BitVec.ofNat k (w.toNat - 2 ^ k) := by
  apply BitVec.eq_of_toNat_eq
  rw [BitVec.extractLsb'_toNat, BitVec.toNat_ofNat, Nat.shiftRight_zero, Nat.mod_eq_sub_mod hk]

end Sys2Proof

namespace Sys2Proof.Machine

/-! ### The statements -/

/-- Settles O1, by the instruction: each operand field reads back what the encoder wrote into it. -/
theorem decodeInvertsEncode : Obligations.DecodeInvertsEncode := by
  intro i h
  cases i with
  | clkReset | clkMicros | clkMillis | clkSeconds | intPoll | intReti | sysReset | lcdNop | lcdClear | lcdHome => rfl
  | clkTick | t0Tick | t1Tick | intReq | pwmReg | pwmUnreg | pwmRoute | pwmRise | pwmFall | srvAnim | srvStall
  | actDetach | lcdGetbuf => simp [encode, decode, decodeFields]
  | pinChg pin level => cases level <;> simp [encode, decode, decodeFields, bitOf]
  | gpioWr port v => simp [encode, decode, decodeFields, extractLsb'_setWidth]
  | regWr r v => simp [encode, decode, decodeFields, regOfIndex_indexOfReg r h]
  | regRd r => simp [encode, decode, decodeFields, regOfIndex_indexOfReg r h]
  | lcdPinmap role id pin => simp [encode, decode, decodeFields, roleOfNumber_numberOfRole role h]
  | actAttach pin kind id => simp [encode, decode, decodeFields, kindOfNumber_numberOfKind kind h]
  | lcdEntry d s => cases d <;> cases s <;> rfl
  | lcdDispctl d c b => cases d <;> cases c <;> cases b <;> rfl
  | lcdShift s r => cases s <;> cases r <;> rfl
  | lcdFuncset l n f => cases l <;> cases n <;> cases f <;> rfl
  | lcdSetcgram a => exact congrArg Except.ok (decodeLcd9_setcgram a)
  | lcdSetddram a => exact congrArg Except.ok (decodeLcd9_setddram a)
  | lcdData b => exact congrArg Except.ok (decodeLcd9_data b)

/-- Settles O2: a word and the word its instruction encodes to both have the instruction's opcode. -/
theorem opcodeAloneSelectsTheOperation : Obligations.OpcodeAloneSelectsTheOperation := by
  refine fun w => ⟨fun hop => ?_, fun hop => decodeFields_of_not_mem hop _ _⟩
  obtain ⟨i, hdec, hopcode, hwf⟩ := decodeFields_of_mem hop (aField w) (dField w)
  obtain ⟨w', henc, hop'⟩ := encode_of_opcodeOf hopcode
  exact ⟨i, w', hdec, hwf, henc, hop'⟩

/-- From a principal that may not issue it, an operation does nothing (R65 (b)). -/
theorem exec_of_not_allows {i : Instr} {s : State} (h : allows i s.src = false) : exec i s = .next s := by
  cases i with
  | clkReset | clkMicros | clkMillis | clkSeconds | pwmReg | pwmUnreg | lcdNop | lcdClear | lcdHome | lcdEntry
  | lcdDispctl | lcdShift | lcdFuncset | lcdSetcgram | lcdSetddram | lcdData => cases h
  | srvAnim | srvStall | lcdPinmap | actAttach | actDetach | lcdGetbuf | sysReset =>
    exact hostOnly_ne s _ (beq_eq_false_iff_ne.mp h)
  | clkTick | t0Tick | t1Tick | regWr | regRd | intReq | intPoll | intReti | pwmRoute | pwmRise | pwmFall | pinChg
  | gpioWr => exact stepOnly_ne s _ (beq_eq_false_iff_ne.mp h)

/-- The principals of an operation, read off its opcode (the "principal" column of R61). -/
theorem allows_iff_of_opcodeOf {i : Instr} {op : BitVec 8} (h : opcodeOf i = some op) (p : Principal) :
    allows i p = true ↔
      if op ∈ ([0x11, 0x12, 0x13, 0x14, 0x40, 0x41] : List (BitVec 8)) then True
      else if op ∈ ([0x50, 0x51, 0x62, 0x70, 0x71, 0x72, 0x73] : List (BitVec 8)) then p = .host
      else p = .stepLoop := by
  cases i with
  | clkReset | clkMicros | clkMillis | clkSeconds | pwmReg | pwmUnreg => cases h; exact iff_of_true rfl trivial
  | srvAnim | srvStall | lcdPinmap | actAttach | actDetach | lcdGetbuf | sysReset => cases h; exact beq_iff_eq
  | clkTick | t0Tick | t1Tick | regWr | regRd | intReq | intPoll | intReti | pwmRoute | pwmRise | pwmFall | pinChg
  | gpioWr => cases h; exact beq_iff_eq
  | lcdNop | lcdClear | lcdHome | lcdEntry | lcdDispctl | lcdShift | lcdFuncset | lcdSetcgram | lcdSetddram
  | lcdData => cases h

/-- Settles O7: the guard of each operation, and the principal column by the opcode of the decoded instruction. -/
theorem wrongPrincipalDoesNothing : Obligations.WrongPrincipalDoesNothing :=
  ⟨fun _ _ h => exec_of_not_allows h, fun _ _ p h => allows_iff_of_opcodeOf (opcodeOf_of_decodeCmd80 h) p⟩

/-- Settles O3: the decoder tests the bits from the top, so each test is a range of the values that are left. -/
theorem lcdByteRowsCoverEveryValue : Obligations.LcdByteRowsCoverEveryValue := by
  intro w
  refine ite_getLsbD_of_lt 8 w.isLt (fun h => congrArg _ (extractLsb'_of_two_pow_le h)) fun h8 =>
    ite_getLsbD_of_lt 7 h8 (fun h => congrArg _ (extractLsb'_of_two_pow_le h)) fun h7 =>
    ite_getLsbD_of_lt 6 h7 (fun h => congrArg _ (extractLsb'_of_two_pow_le h)) fun h6 =>
    ite_getLsbD_of_lt 5 h6 (fun _ => ?_) fun h5 =>
    ite_getLsbD_of_lt 4 h5 (fun _ => ?_) fun h4 =>
    ite_getLsbD_of_lt 3 h4 (fun _ => ?_) fun h3 =>
    ite_getLsbD_of_lt 2 h3 (fun _ => ?_) fun h2 =>
    ite_getLsbD_of_lt 1 h2 (fun _ => rfl) fun h1 =>
    ite_getLsbD_of_lt 0 h1 (fun _ => rfl) fun _ => rfl
  all_goals simp only [BitVec.getLsbD, Nat.testBit_eq_decide_div_mod_eq, Nat.reducePow, Nat.div_one]

/-- Settles O4, by running the decoder on the ten words. -/
theorem sampleWordsDecode : Obligations.SampleWordsDecode := by
  unfold Obligations.SampleWordsDecode
  decide

/-- Settles O5: both kinds of word are accepted and decoded by the one rule `step_ok`. -/
theorem stepRunsTheDecodedInstruction : Obligations.StepRunsTheDecodedInstruction := fun s rest i =>
  ⟨fun src w hc hd => step_ok s (.cmd src w) rest i hc hd, fun id w hc hd => step_ok s (.lcd id w) rest i hc hd⟩

/-- Settles O6: a reserved opcode is rejected by the decoder, and a rejected word is only accepted. -/
theorem reservedOpcodeDoesNothing : Obligations.ReservedOpcodeDoesNothing := fun s =>
  ⟨fun src w rest hc hop => step_error s (.cmd src w) rest _ hc (decodeFields_of_not_mem hop _ _), step_nil s⟩

end Sys2Proof.Machine
end

section
/-! The binary64 pattern of a rational (40_clock.md R84, R86, log 7): it denotes the rational when any pattern does, and the number
denoted does not decrease with the rational. -/

namespace Sys2Proof.Machine

open Sys2Proof

/-- A number is a pattern's magnitude under the pattern's sign. -/
theorem exists_magnitudeOf_of_binary64Value {p : BitVec 64} {v : Rat} (h : binary64Value p = some v) :
    ∃ x, x < infinityBits ∧ magnitudeOf x = |v| := by
  simp only [binary64Value, Option.ite_none_left_eq_some, Option.some.injEq] at h
  obtain ⟨hx, rfl⟩ := h
  refine ⟨_, Nat.not_le.mp hx, ?_⟩
  split_ifs
  · rw [abs_neg, abs_of_nonneg (magnitudeOf_nonneg _)]
  · rw [abs_of_nonneg (magnitudeOf_nonneg _)]

/-- Where magnitude bits have the magnitude of `q`, they are the ones driven. -/
theorem magnitudeBits_of_magnitudeOf_eq {q : Rat} {x : Nat} (hx : x < infinityBits) (h : magnitudeOf x = |q|) :
    magnitudeBits q = x := by
  obtain ⟨y, -, hy, hgreatest, hcase⟩ := magnitudeBits_cases q
  have hxy : x ≤ y := hgreatest x hx h.le
  have hyx : y ≤ x := magnitudeOf_strictMono.le_iff_le.mp (hy.trans h.ge)
  obtain rfl : x = y := le_antisymm hxy hyx
  obtain ⟨-, hbits⟩ | ⟨hlt, -⟩ := hcase
  · exact hbits
  · exact absurd h hlt.ne

/-- What the pattern driven for `q` denotes, 0 included: the magnitude driven, under the sign of `q`. -/
theorem binary64Value_binary64Of_eq_some {q v : Rat} :
    binary64Value (binary64Of q) = some v ↔
      magnitudeBits q < infinityBits
        ∧ v = if q < 0 then -magnitudeOf (magnitudeBits q) else magnitudeOf (magnitudeBits q) := by
  by_cases hq : q = 0
  · subst hq
    have hbits : magnitudeBits 0 = 0 := magnitudeBits_of_magnitudeOf_eq (by decide) (by simp)
    obtain ⟨hpattern, hvalue⟩ := binary64Value_zero
    rw [hpattern, hvalue]
    simp [hbits, show 0 < infinityBits by decide, eq_comm]
  · simp [binary64Value_binary64Of q hq, eq_comm]

/-- The pattern driven for a rational that some pattern denotes denotes it. -/
theorem binary64Value_binary64Of_of_exists {q : Rat} (h : ∃ p, binary64Value p = some q) :
    binary64Value (binary64Of q) = some q := by
  obtain ⟨p, hp⟩ := h
  obtain ⟨x, hx, hmagnitude⟩ := exists_magnitudeOf_of_binary64Value hp
  rw [binary64Value_binary64Of_eq_some, magnitudeBits_of_magnitudeOf_eq hx hmagnitude, hmagnitude]
  refine ⟨hx, ?_⟩
  split_ifs with hneg
  · rw [abs_of_neg hneg, neg_neg]
  · rw [abs_of_nonneg (not_lt.mp hneg)]

/-- A greater magnitude, whose free value reaches the next bits wherever that of the smaller does, is driven by no smaller bits. -/
theorem magnitudeBits_le {q r : Rat} (habs : |q| ≤ |r|)
    (hnext : ∀ x, drivesNext q x = true → drivesNext r x = true) : magnitudeBits q ≤ magnitudeBits r := by
  obtain ⟨x, hx, hxq, -, hq⟩ := magnitudeBits_cases q
  obtain ⟨y, -, -, hgreatest, hr⟩ := magnitudeBits_cases r
  have hxy : x ≤ y := hgreatest x hx (hxq.trans habs)
  have hyr : y ≤ magnitudeBits r := by
    obtain ⟨-, hbits⟩ | ⟨-, hbits⟩ := hr <;> rw [hbits]
    split_ifs <;> omega
  obtain ⟨-, hbits⟩ | ⟨hlt, hbits⟩ := hq <;> rw [hbits]
  · exact hxy.trans hyr
  split_ifs with hd
  · obtain hxy | rfl := hxy.lt_or_eq
    · exact Nat.succ_le_of_lt (hxy.trans_le hyr)
    · obtain ⟨heq, -⟩ | ⟨-, hbits⟩ := hr
      · exact absurd heq (hlt.trans_le habs).ne
      · rw [hbits, if_pos (hnext x hd)]
  · exact hxy.trans hyr

/-- From 0 up, a greater rational is driven to the next bits wherever a smaller one is: the free value does not decrease (log 7). -/
theorem drivesNext_mono {q r : Rat} (hq : 0 ≤ q) (h : q ≤ r) (x : Nat) (hd : drivesNext q x = true) :
    drivesNext r x = true := by
  simp only [drivesNext, if_neg hq.not_gt, if_neg (hq.trans h).not_gt, decide_eq_true_iff] at hd ⊢
  exact hd.trans (openBinary64.monotone h)

/-- Below 0, the next bits are further down, so a smaller rational is driven to them wherever a greater one is. -/
theorem drivesNext_anti {q r : Rat} (hr : r < 0) (h : q ≤ r) (x : Nat) (hd : drivesNext r x = true) :
    drivesNext q x = true := by
  simp only [drivesNext, if_pos hr, if_pos (h.trans_lt hr), decide_eq_true_iff] at hd ⊢
  exact (openBinary64.monotone h).trans hd

/-- The numbers denoted by the patterns driven do not decrease with the rationals they are driven for. -/
theorem binary64Value_binary64Of_mono {q r v w : Rat} (h : q ≤ r) (hv : binary64Value (binary64Of q) = some v)
    (hw : binary64Value (binary64Of r) = some w) : v ≤ w := by
  obtain ⟨-, rfl⟩ := binary64Value_binary64Of_eq_some.mp hv
  obtain ⟨-, rfl⟩ := binary64Value_binary64Of_eq_some.mp hw
  by_cases hr : r < 0
  · have hq : q < 0 := h.trans_lt hr
    have hbits : magnitudeBits r ≤ magnitudeBits q :=
      magnitudeBits_le (by rw [abs_of_neg hr, abs_of_neg hq]; exact neg_le_neg h) (drivesNext_anti hr h)
    rw [if_pos hq, if_pos hr]
    exact neg_le_neg (magnitudeOf_strictMono.monotone hbits)
  · rw [if_neg hr]
    by_cases hq : q < 0
    · rw [if_pos hq]
      exact (neg_nonpos.mpr (magnitudeOf_nonneg _)).trans (magnitudeOf_nonneg _)
    · have hq : 0 ≤ q := not_lt.mp hq
      have hbits : magnitudeBits q ≤ magnitudeBits r :=
        magnitudeBits_le (abs_le_abs_of_nonneg hq h) (drivesNext_mono hq h)
      rw [if_neg hq.not_gt]
      exact magnitudeOf_strictMono.monotone hbits

end Sys2Proof.Machine
end

section
/-! The SimulationClock operations (40_clock.md R80 to R84). -/

namespace Sys2Proof.Machine

open Sys2Proof

/-! ### Time at 16 MHz -/

/-- A microsecond is 16 cycles (R82). -/
theorem microsOf_eq (c : Nat) : microsOf c = c / 16 :=
  Nat.mul_div_mul_right c 16 (by decide : 0 < 1000000)

/-- A millisecond is 16000 cycles (R83). -/
theorem millisOf_eq (c : Nat) : millisOf c = c / 16000 :=
  Nat.mul_div_mul_right c 16000 (by decide : 0 < 1000)

theorem secondsOf_eq (c : Nat) : secondsOf c = (c : Rat) / 16000000 := by
  rw [secondsOf, clockHz, Nat.cast_ofNat]

theorem secondsOf_mono : Monotone secondsOf := fun c d h => by
  unfold secondsOf
  gcongr

/-- A quotient of a word fits the word. -/
theorem toNat_ofNat_div {n : Nat} (v : BitVec n) (k : Nat) : (BitVec.ofNat n (v.toNat / k)).toNat = v.toNat / k := by
  rw [BitVec.toNat_ofNat, Nat.mod_eq_of_lt ((Nat.div_le_self ..).trans_lt v.isLt)]

/-! ### The statements -/

/-- What `CLK.SECONDS` answers (R84). -/
theorem exec_clkSeconds (s : State) :
    exec .clkSeconds s = .next { s with
      resp := .f64 (round64 s.cfg.rnd64 (secondsOf s.cpuCycles.toNat))
        (binary64Of (round64 s.cfg.rnd64 (secondsOf s.cpuCycles.toNat))) } := rfl

/-- Settles O10: `RND64`, the quotient and the pattern driven are each monotone, and the pattern is exact where one can be. -/
theorem clockSecondsIsTheQuotient : Obligations.ClockSecondsIsTheQuotient := by
  refine ⟨fun s => ?_, fun s t hrnd hcycles => ?_⟩
  · rw [← secondsOf_eq]
    exact ⟨_, exec_clkSeconds s, fun hrnd => by rw [hrnd, round64_identity], binary64Value_binary64Of_of_exists⟩
  · have hq : round64 s.cfg.rnd64 (secondsOf s.cpuCycles.toNat) ≤ round64 t.cfg.rnd64 (secondsOf t.cpuCycles.toNat) :=
      hrnd ▸ round64_mono s.cfg.rnd64 (secondsOf_mono hcycles)
    exact ⟨_, _, _, _, exec_clkSeconds s, exec_clkSeconds t, hq, fun _ _ => binary64Value_binary64Of_mono hq⟩

/-- Settles O8: the guard of the operation is whether the sum fits the counter. -/
theorem clockTickAddsExactly : Obligations.ClockTickAddsExactly := by
  refine fun c s hsrc => ⟨fun hfits => ⟨BitVec.ofNat 64 (s.cpuCycles.toNat + c.toNat), ?_, ?_⟩, fun hover => ?_⟩
  · rw [BitVec.toNat_ofNat, Nat.mod_eq_of_lt hfits]
  · exact (stepOnly_of s _ hsrc).trans (if_pos hfits)
  · exact (stepOnly_of s _ hsrc).trans (if_neg (Nat.not_lt.mpr hover))

/-- Settles O9: a quotient of the counter fits a response because the counter does. -/
theorem clockResetMicrosAndMillis : Obligations.ClockResetMicrosAndMillis := fun s =>
  ⟨rfl, ⟨_, by rw [microsOf_eq, toNat_ofNat_div], rfl⟩, ⟨_, by rw [millisOf_eq, toNat_ofNat_div], rfl⟩⟩

end Sys2Proof.Machine
end

section
/-! The tick operations (41_timers.md R101, R102), and the batch law (R99): the batch cycle with `rest` cycles after it reads the
clock only as the instant `cpu_cycles - rest`, so a batch and its two parts see the same instants. -/

namespace Sys2Proof.Machine

open Sys2Proof

/-! ### The tick operations -/

/-- `Tn.TICK cycles`. -/
def tickOp (n : TimerId) (cycles : BitVec 32) : Instr := if n = .t0 then .t0Tick cycles else .t1Tick cycles

theorem exec_tickOp (n : TimerId) (c : BitVec 32) (s : State) (h : s.src = .stepLoop) :
    exec (tickOp n c) s = .next (tickResult n s c) := by
  cases n with
  | t0 => exact stepOnly_of s _ h
  | t1 => exact stepOnly_of s _ h

/-- A tick of a stopped timer (R106). -/
theorem tick_of_stopped {n : TimerId} {s : State} (h : (timer s n).prescaler = 0) (c : Nat) : tick n s c = (s, 0) :=
  if_pos h

theorem tick_of_running {n : TimerId} {s : State} (h : (timer s n).prescaler ≠ 0) (c : Nat) :
    tick n s c = tickCycles n c s 0 := if_neg h

theorem tickResult_of_stopped {n : TimerId} {s : State} (h : (timer s n).prescaler = 0) (c : BitVec 32) :
    tickResult n s c = { s with resp := .u32 0 } := by
  simp only [tickResult, tick_of_stopped h]
  rfl

/-- Settles O14: the guard of the tick, on either timer. -/
theorem stoppedTimerTicksToZero : Obligations.StoppedTimerTicksToZero := fun c _ hsrc =>
  ⟨fun h => (exec_tickOp .t0 c _ hsrc).trans (congrArg _ (tickResult_of_stopped (n := .t0) h c)),
    fun h => (exec_tickOp .t1 c _ hsrc).trans (congrArg _ (tickResult_of_stopped (n := .t1) h c))⟩

/-! ### At most one overflow a cycle -/

theorem tickCycle_snd_le (n : TimerId) (s : State) (rest : Nat) : (tickCycle n s rest).2 ≤ 1 := by
  obtain ⟨-, hc⟩ | ⟨-, hc⟩ := tickCycle_cases n s rest <;> rw [hc]
  · rw [count_snd]
    split_ifs <;> decide
  · exact Nat.zero_le 1

theorem tickCycles_snd_le (n : TimerId) (c : Nat) (s : State) : (tickCycles n c s 0).2 ≤ c := by
  induction c generalizing s with
  | zero => exact le_rfl
  | succ c ih =>
    have hfirst := tickCycle_snd_le n s c
    have hrest := ih (tickCycle n s c).1
    rw [tickCycles, tickCycles_ovf]
    dsimp only
    omega

/-- The overflow count of a batch is at most its cycles, so it fits the response. -/
theorem tick_snd_le (n : TimerId) (s : State) (c : Nat) : (tick n s c).2 ≤ c := by
  by_cases h : (timer s n).prescaler = 0
  · rw [tick_of_stopped h]; exact Nat.zero_le c
  · rw [tick_of_running h]; exact tickCycles_snd_le n c s

/-! ### A batch in two parts -/

/-- The last cycles of a batch under another clock, when the instant is the same (R96). -/
theorem tickCycle_withClock (c : List BusWord) (r : Resp) {k : BitVec 64} {n : TimerId} {s : State} {rest rest' : Nat}
    (h : k.toNat - rest = s.cpuCycles.toNat - rest') :
    tickCycle n (withClock c r k s) rest =
      (withClock c r k (tickCycle n s rest').1, (tickCycle n s rest').2) := by
  unfold tickCycle
  rw [timer_withClock, residue_withClock]
  split_ifs
  · rw [setResidue_withClock, count_withClock, withClock_cpuCycles, wrapTime, wrapTime, h]
  · rw [setResidue_withClock]

/-- The loop over `a + b` cycles is the loop over `a` cycles, under the clock it would read alone, and then the loop over `b`. -/
theorem tickCycles_add (c : List BusWord) (r : Resp) {k : BitVec 64} {n : TimerId} {a b : Nat} {s : State} (ovf : Nat)
    (h : ∀ i, k.toNat - (i + b) = s.cpuCycles.toNat - i) :
    tickCycles n (a + b) (withClock c r k s) ovf =
      tickCycles n b (withClock c r k (tickCycles n a s ovf).1) (tickCycles n a s ovf).2 := by
  induction a generalizing s ovf with
  | zero => rw [Nat.zero_add]; rfl
  | succ a ih =>
    have hclock : (tickCycle n s a).1.cpuCycles = s.cpuCycles := (tickFrame_tickCycle n s a).cpuCycles_eq
    rw [Nat.succ_add, tickCycles, tickCycle_withClock c r (h a)]
    exact ih _ (by rwa [hclock])

/-- A tick of `a + b` cycles is a tick of `a` cycles, under the clock it would read alone, and then a tick of `b`; the overflow
counts sum. -/
theorem tick_add (c : List BusWord) (r : Resp) {k : BitVec 64} {n : TimerId} {a b : Nat} {s : State}
    (h : ∀ i, k.toNat - (i + b) = s.cpuCycles.toNat - i) :
    tick n (withClock c r k s) (a + b) =
      ((tick n (withClock c r k (tick n s a).1) b).1,
        (tick n s a).2 + (tick n (withClock c r k (tick n s a).1) b).2) := by
  by_cases hp : (timer s n).prescaler = 0
  · have hp' : (timer (withClock c r k s) n).prescaler = 0 := by rwa [timer_withClock]
    rw [tick_of_stopped hp, tick_of_stopped hp', tick_of_stopped hp']; rfl
  · have hfirst : (timer (tick n s a).1 n).prescaler = (timer s n).prescaler := by
      rw [(tickFrame_tick n s a).timer_eq]
    rw [tick_of_running (by rwa [timer_withClock]), tick_of_running (s := withClock c r k _) (by rwa [timer_withClock, hfirst]),
      tick_of_running hp, tickCycles_add c r 0 h, tickCycles_ovf]

/-- With the clock standing at 0 every cycle of a batch is at the instant 0 (R96). -/
theorem tick_add_of_clock_zero {n : TimerId} {s : State} (h : s.cpuCycles = 0) (a b : Nat) :
    tick n s (a + b) = ((tick n (tick n s a).1 b).1, (tick n s a).2 + (tick n (tick n s a).1 b).2) := by
  have hself : ∀ t : State, t.cmds = s.cmds → t.resp = s.resp → t.cpuCycles = s.cpuCycles →
      withClock s.cmds s.resp s.cpuCycles t = t := by
    rintro t hcmds hresp hclock
    rw [← hcmds, ← hresp, ← hclock]; rfl
  have hframe := tickFrame_tick n s a
  have hadd := tick_add s.cmds s.resp (k := s.cpuCycles) (n := n) (a := a) (b := b) (s := s) fun i => by simp [h]
  rwa [hself s rfl rfl rfl, hself _ hframe.cmds_eq hframe.resp_eq hframe.cpuCycles_eq] at hadd

/-! ### `CLK.TICK` and then `Tn.TICK` -/

/-- The state `CLK.TICK c` leaves where the sum fits the clock, without a response. -/
def clocked (s : State) (c : Nat) : State :=
  withClock s.cmds .notMeaningful (BitVec.ofNat 64 (s.cpuCycles.toNat + c)) s

/-- A tick of `c` cycles with the clock ticked first. -/
def clockedTick (n : TimerId) (s : State) (c : Nat) : State × Nat := tick n (clocked s c) c

/-- `CLK.TICK c; Tn.TICK c` is the clocked tick, whatever was answered before. -/
theorem execAll_clkTick_tickOp {n : TimerId} {s : State} {c : BitVec 32} (r : Resp) (hsrc : s.src = .stepLoop)
    (h : s.cpuCycles.toNat + c.toNat < 2 ^ 64) :
    execAll [.clkTick c, tickOp n c] (withIo s.cmds r s) =
      .next (withIo s.cmds (.u32 (BitVec.ofNat 32 (clockedTick n s c.toNat).2)) (clockedTick n s c.toNat).1) := by
  have hclk : exec (.clkTick c) (withIo s.cmds r s) = .next (withIo s.cmds r (clocked s c.toNat)) :=
    (stepOnly_of (withIo s.cmds r s) _ hsrc).trans (if_pos h)
  have htick : exec (tickOp n c) (withIo s.cmds r (clocked s c.toNat)) =
      .next (tickResult n (withIo s.cmds r (clocked s c.toNat)) c) := exec_tickOp n c _ hsrc
  rw [execAll_cons, hclk, andThen_next, execAll_cons, htick, andThen_next, execAll_nil, tickResult, tick_withIo]
  rfl

theorem clockedTick_cmds (n : TimerId) (s : State) (c : Nat) : (clockedTick n s c).1.cmds = s.cmds :=
  (tickFrame_tick n (clocked s c) c).cmds_eq

theorem clockedTick_src (n : TimerId) (s : State) (c : Nat) : (clockedTick n s c).1.src = s.src :=
  (tickFrame_tick n (clocked s c) c).src_eq

theorem clockedTick_cpuCycles (n : TimerId) {s : State} {c : Nat} (h : s.cpuCycles.toNat + c < 2 ^ 64) :
    (clockedTick n s c).1.cpuCycles.toNat = s.cpuCycles.toNat + c := by
  rw [clockedTick, (tickFrame_tick n (clocked s c) c).cpuCycles_eq]
  exact Nat.mod_eq_of_lt h

theorem clockedTick_add {n : TimerId} {s : State} {a b : Nat} (h : s.cpuCycles.toNat + (a + b) < 2 ^ 64) :
    clockedTick n s (a + b) =
      ((clockedTick n (clockedTick n s a).1 b).1, (clockedTick n s a).2 + (clockedTick n (clockedTick n s a).1 b).2) := by
  have hclock := clockedTick_cpuCycles n (s := s) (c := a) (by omega)
  have hsecond : clocked (clockedTick n s a).1 b =
      withClock s.cmds .notMeaningful (BitVec.ofNat 64 (s.cpuCycles.toNat + (a + b))) (clockedTick n s a).1 := by
    rw [clocked, clockedTick_cmds, hclock, Nat.add_assoc]
  have hadd := tick_add s.cmds .notMeaningful (k := BitVec.ofNat 64 (s.cpuCycles.toNat + (a + b))) (n := n) (a := a) (b := b)
    (s := clocked s a) fun i => by
      rw [clocked, withClock_cpuCycles, BitVec.toNat_ofNat, BitVec.toNat_ofNat, Nat.mod_eq_of_lt h,
        Nat.mod_eq_of_lt (by omega)]
      omega
  rw [show clockedTick n (clockedTick n s a).1 b = _ from congrArg (tick n · b) hsecond]
  exact hadd

theorem toNat_clockedTick_snd (n : TimerId) (s : State) (c : BitVec 32) :
    (BitVec.ofNat 32 (clockedTick n s c.toNat).2).toNat = (clockedTick n s c.toNat).2 := by
  rw [BitVec.toNat_ofNat]
  exact Nat.mod_eq_of_lt ((tick_snd_le n _ _).trans_lt c.isLt)

/-- Settles O15: a batch is its two parts one after the other, with the clock ticked first and with the clock at 0. -/
theorem batchesLoseNoWraps : Obligations.BatchesLoseNoWraps := by
  refine ⟨fun n a b ab s hsrc hab hfits => ?_, fun n s a b hzero => ?_⟩
  · have hcmds := clockedTick_cmds n s a.toNat
    have hclock := clockedTick_cpuCycles n (s := s) (c := a.toNat) (by omega)
    have hfirst := execAll_clkTick_tickOp (n := n) (c := a) s.resp hsrc (by omega)
    have hsecond := execAll_clkTick_tickOp (n := n) (s := (clockedTick n s a.toNat).1) (c := b)
      (.u32 (BitVec.ofNat 32 (clockedTick n s a.toNat).2)) ((clockedTick_src ..).trans hsrc) (by omega)
    have hwhole := execAll_clkTick_tickOp (n := n) (c := ab) s.resp hsrc hfits
    have hadd := clockedTick_add (n := n) (s := s) (a := a.toNat) (b := b.toNat) (by omega)
    rw [hcmds] at hsecond
    refine ⟨_, _, _, _, _, _, hfirst, rfl, hsecond, rfl, hwhole, rfl, ?_, ?_⟩
    · rw [toNat_clockedTick_snd, toNat_clockedTick_snd, toNat_clockedTick_snd, hab, hadd]
    · rw [hab, hadd]; rfl
  · rw [tick_add_of_clock_zero hzero]
    exact ⟨rfl, rfl⟩

end Sys2Proof.Machine
end

section
/-! The closed form of a tick (41_timers.md R100). A counter left at or above a lowered TOP counts on from 0 after its next
count, as one at TOP - 1 does, so one pair of formulas covers both cases of R100. -/

namespace Sys2Proof.Machine

open Sys2Proof

/-! ### Counts, on numbers -/

/-- The counter after one count with the effective TOP `T` (R92). -/
def nextCounter (T v : Nat) : Nat := if T ≤ v + 1 then 0 else v + 1

/-- The counter after `m` counts from `v`. -/
def counterAfter (T v m : Nat) : Nat := if m = 0 then v else (min v (T - 1) + m) % T

/-- The wraps of `m` counts from `v`. -/
def wrapsIn (T v m : Nat) : Nat := (min v (T - 1) + m) / T

theorem nextCounter_lt {T : Nat} (hT : 0 < T) (v : Nat) : nextCounter T v < T := by
  unfold nextCounter
  split_ifs <;> omega

theorem counterAfter_of_lt {T v : Nat} (h : v < T) (m : Nat) : counterAfter T v m = (v + m) % T := by
  unfold counterAfter
  rw [Nat.min_eq_left (by omega)]
  split_ifs with hm
  · rw [hm, Nat.add_zero, Nat.mod_eq_of_lt h]
  · rfl

theorem wrapsIn_of_lt {T v : Nat} (h : v < T) (m : Nat) : wrapsIn T v m = (v + m) / T := by
  rw [wrapsIn, Nat.min_eq_left (by omega)]

theorem counterAfter_of_le {T v : Nat} (hT : 0 < T) (h : T ≤ v) (m : Nat) :
    counterAfter T v m = if m = 0 then v else (m - 1) % T := by
  unfold counterAfter
  split_ifs with hm
  · rfl
  · rw [Nat.min_eq_right (by omega), show T - 1 + m = m - 1 + T by omega, Nat.add_mod_right]

theorem wrapsIn_of_le {T v : Nat} (hT : 0 < T) (h : T ≤ v) (m : Nat) :
    wrapsIn T v m = if m = 0 then 0 else 1 + (m - 1) / T := by
  unfold wrapsIn
  rw [Nat.min_eq_right (by omega)]
  split_ifs with hm
  · rw [hm]; exact Nat.div_eq_of_lt (by omega)
  · rw [show T - 1 + m = m - 1 + T by omega, Nat.add_div_right _ hT, Nat.add_comm]

/-- The value counted from, and one more: the next counter, and a whole TOP if the count wraps. -/
theorem min_add_one_eq {T : Nat} (hT : 0 < T) (v : Nat) :
    min v (T - 1) + 1 = nextCounter T v + (if T ≤ v + 1 then T else 0) := by
  unfold nextCounter
  split_ifs <;> omega

theorem counterAfter_succ {T : Nat} (hT : 0 < T) (v m : Nat) :
    counterAfter T v (m + 1) = counterAfter T (nextCounter T v) m := by
  rw [counterAfter_of_lt (nextCounter_lt hT v), counterAfter, if_neg (Nat.succ_ne_zero m), Nat.add_comm m, ← Nat.add_assoc,
    min_add_one_eq hT]
  split_ifs
  · rw [Nat.add_right_comm, Nat.add_mod_right]
  · rfl

theorem wrapsIn_succ {T : Nat} (hT : 0 < T) (v m : Nat) :
    wrapsIn T v (m + 1) = (if T ≤ v + 1 then 1 else 0) + wrapsIn T (nextCounter T v) m := by
  rw [wrapsIn_of_lt (nextCounter_lt hT v), wrapsIn, Nat.add_comm m, ← Nat.add_assoc, min_add_one_eq hT]
  split_ifs
  · rw [Nat.add_right_comm, Nat.add_div_right _ hT, Nat.add_comm 1]
  · rw [Nat.zero_add, Nat.add_zero]

/-! ### One cycle -/

theorem TickFrame.effTop_eq {n : TimerId} {s t : State} (h : TickFrame n s t) :
    effTop n (timer t n) = effTop n (timer s n) := by
  rw [h.timer_eq]; rfl

theorem TickFrame.prescaler_eq {n : TimerId} {s t : State} (h : TickFrame n s t) :
    (timer t n).prescaler = (timer s n).prescaler := by
  rw [h.timer_eq]

/-- The counter after a count, as a number. -/
theorem counter_count (n : TimerId) (s : State) (ts : Nat) :
    (timer (count n s ts).1 n).counter.toNat = nextCounter (effTop n (timer s n)) (timer s n).counter.toNat := by
  rw [timer_count, nextCounter]
  have htop := effTop_le n (timer s n)
  split_ifs with h
  · rfl
  · exact BitVec.toNat_add_of_lt (by change _ + 1 < 65536; omega)

/-- The flag after a count: set by a wrap. -/
theorem overflowFlag_count (n : TimerId) (s : State) (ts : Nat) :
    (timer (count n s ts).1 n).overflowFlag =
      ((timer s n).overflowFlag || decide (effTop n (timer s n) ≤ (timer s n).counter.toNat + 1)) := by
  rw [timer_count]
  split_ifs with h <;> simp [h]

/-- What `c` cycles of a running timer do to the ticked timer, `m` of them counts (R100). -/
structure ClosedForm (n : TimerId) (s : State) (c m : Nat) (r : State × Nat) : Prop where
  residue_eq : (residue r.1 n).toNat = ((residue s n).toNat + c) % (timer s n).prescaler.toNat
  counter_eq : (timer r.1 n).counter.toNat = counterAfter (effTop n (timer s n)) (timer s n).counter.toNat m
  flag_eq : (timer r.1 n).overflowFlag =
    ((timer s n).overflowFlag || decide (0 < wrapsIn (effTop n (timer s n)) (timer s n).counter.toNat m))
  wraps_eq : r.2 = wrapsIn (effTop n (timer s n)) (timer s n).counter.toNat m

/-- No cycle of the batch left. -/
theorem ClosedForm.zero {n : TimerId} {s : State} (h : (residue s n).toNat < (timer s n).prescaler.toNat) :
    ClosedForm n s 0 0 (s, 0) := by
  have hwraps : wrapsIn (effTop n (timer s n)) (timer s n).counter.toNat 0 = 0 := by
    have := effTop_pos n (timer s n)
    exact Nat.div_eq_of_lt (by omega)
  exact ⟨(Nat.mod_eq_of_lt h).symm, rfl, by simp [hwraps], hwraps.symm⟩

/-- A cycle that completes a prescaled cycle, then the rest of the batch. -/
theorem ClosedForm.count {n : TimerId} {s : State} {ts c m : Nat} {r : State × Nat}
    (h : (residue s n).toNat + 1 = (timer s n).prescaler.toNat)
    (hr : ClosedForm n (count n (setResidue s n 0) ts).1 c m r) :
    ClosedForm n s (c + 1) (m + 1) (r.1, (Machine.count n (setResidue s n 0) ts).2 + r.2) := by
  obtain ⟨hres, hcnt, hflag, hwraps⟩ := hr
  have hf := tickFrame_count n (setResidue s n 0) ts
  have hT := effTop_pos n (timer s n)
  rw [residue_count, residue_setResidue, hf.prescaler_eq, timer_setResidue] at hres
  rw [hf.effTop_eq, counter_count, timer_setResidue] at hcnt hflag hwraps
  rw [overflowFlag_count, timer_setResidue] at hflag
  refine ⟨?_, ?_, ?_, ?_⟩
  · rw [hres, Nat.add_comm c, ← Nat.add_assoc, h, Nat.add_mod_left]; simp
  · rw [hcnt, counterAfter_succ hT]
  · rw [hflag, wrapsIn_succ hT, Bool.or_assoc]
    split_ifs with hw <;> simp [hw]
  · rw [hwraps, wrapsIn_succ hT, count_snd, timer_setResidue]

/-- A cycle that only adds to the residue, then the rest of the batch. -/
theorem ClosedForm.residue {n : TimerId} {s : State} {c m : Nat} {r : State × Nat}
    (h : (residue s n).toNat + 1 < (timer s n).prescaler.toNat)
    (hr : ClosedForm n (setResidue s n (residue s n + 1)) c m r) : ClosedForm n s (c + 1) m r := by
  have hlt := (timer s n).prescaler.isLt
  have hadd : (Machine.residue s n + 1).toNat = (Machine.residue s n).toNat + 1 :=
    BitVec.toNat_add_of_lt (by change _ + 1 < 65536; omega)
  obtain ⟨hres, hcnt, hflag, hwraps⟩ := hr
  rw [residue_setResidue, hadd, Nat.add_assoc, Nat.add_comm 1] at hres
  rw [timer_setResidue] at hres hcnt hflag hwraps
  exact ⟨hres, hcnt, hflag, hwraps⟩

/-- The loop over `c` cycles, `(residue + c) / prescaler` of them counts. -/
theorem tickCycles_closedForm {n : TimerId} (c : Nat) {s : State}
    (h : (residue s n).toNat < (timer s n).prescaler.toNat) :
    ClosedForm n s c (((residue s n).toNat + c) / (timer s n).prescaler.toNat) (tickCycles n c s 0) := by
  induction c generalizing s with
  | zero => rw [Nat.add_zero, Nat.div_eq_of_lt h]; exact .zero h
  | succ c ih =>
    have hpos := Nat.zero_lt_of_lt h
    rw [tickCycles, tickCycles_ovf, Nat.zero_add]
    obtain ⟨hp, hc⟩ | ⟨hp, hc⟩ := tickCycle_cases n s c <;> rw [hc]
    · have hp : (residue s n).toNat + 1 = (timer s n).prescaler.toNat := by omega
      have hf := tickFrame_count n (setResidue s n 0) (wrapTime s.cpuCycles.toNat c)
      have hrest := ih (s := (count n (setResidue s n 0) (wrapTime s.cpuCycles.toNat c)).1)
      rw [residue_count, residue_setResidue, hf.prescaler_eq, timer_setResidue] at hrest
      have hm : ((residue s n).toNat + (c + 1)) / (timer s n).prescaler.toNat =
          (0 + c) / (timer s n).prescaler.toNat + 1 := by
        rw [← Nat.add_div_right _ hpos]
        congr 1
        omega
      rw [hm]
      exact .count hp (hrest hpos)
    · have hlt := (timer s n).prescaler.isLt
      have hadd : (residue s n + 1).toNat = (residue s n).toNat + 1 :=
        BitVec.toNat_add_of_lt (by change _ + 1 < 65536; omega)
      have hrest := ih (s := setResidue s n (residue s n + 1))
      rw [residue_setResidue, timer_setResidue, hadd, Nat.add_assoc, Nat.add_comm 1 c] at hrest
      rw [Nat.zero_add]
      exact .residue hp (hrest hp)

/-! ### The tick operations -/

/-- The counts of a batch of `c` cycles (R100). -/
def countsIn (n : TimerId) (s : State) (c : Nat) : Nat :=
  ((residue s n).toNat + c) / (timer s n).prescaler.toNat

/-- What a tick operation of `c` cycles from `s` to `t` answers and does to the ticked timer: counter `v` and `wraps` overflows. -/
structure TickAnswer (n : TimerId) (s : State) (c v wraps : Nat) (t : State) : Prop where
  residue_eq : (residue t n).toNat = ((residue s n).toNat + c) % (timer s n).prescaler.toNat
  counter_eq : (timer t n).counter.toNat = v
  flag_eq : (timer t n).overflowFlag = ((timer s n).overflowFlag || decide (0 < wraps))
  resp_eq : t.resp = .u32 (BitVec.ofNat 32 wraps)

theorem tickResult_eq (n : TimerId) (s : State) (c : BitVec 32) :
    tickResult n s c = withIo s.cmds (.u32 (BitVec.ofNat 32 (tick n s c.toNat).2)) (tick n s c.toNat).1 := by
  rw [tickResult, ← (tickFrame_tick n s c.toNat).cmds_eq]
  rfl

section
variable {n : TimerId} {s : State} (c : BitVec 32) (h : (residue s n).toNat < (timer s n).prescaler.toNat)
include h

theorem tickResult_answer :
    TickAnswer n s c.toNat (counterAfter (effTop n (timer s n)) (timer s n).counter.toNat (countsIn n s c.toNat))
      (wrapsIn (effTop n (timer s n)) (timer s n).counter.toNat (countsIn n s c.toNat)) (tickResult n s c) := by
  have hrun : (timer s n).prescaler ≠ 0 := fun h0 => by simp [h0] at h
  obtain ⟨hres, hcnt, hflag, hwraps⟩ := tickCycles_closedForm c.toNat h
  rw [tickResult_eq, tick_of_running hrun]
  refine ⟨?_, ?_, ?_, ?_⟩
  · rw [residue_withIo]; exact hres
  · rw [timer_withIo]; exact hcnt
  · rw [timer_withIo]; exact hflag
  · rw [withIo_resp, hwraps]; rfl

/-- The counter below its TOP. -/
theorem tickResult_answer_of_lt (hlt : (timer s n).counter.toNat < effTop n (timer s n)) :
    TickAnswer n s c.toNat (((timer s n).counter.toNat + countsIn n s c.toNat) % effTop n (timer s n))
      (((timer s n).counter.toNat + countsIn n s c.toNat) / effTop n (timer s n)) (tickResult n s c) := by
  have hanswer := tickResult_answer c h
  rwa [counterAfter_of_lt hlt, wrapsIn_of_lt hlt] at hanswer

/-- The counter at or above a lowered TOP (R92). -/
theorem tickResult_answer_of_le (hle : effTop n (timer s n) ≤ (timer s n).counter.toNat) :
    TickAnswer n s c.toNat
      (if countsIn n s c.toNat = 0 then (timer s n).counter.toNat
        else (countsIn n s c.toNat - 1) % effTop n (timer s n))
      (if countsIn n s c.toNat = 0 then 0 else 1 + (countsIn n s c.toNat - 1) / effTop n (timer s n))
      (tickResult n s c) := by
  have hanswer := tickResult_answer c h
  rwa [counterAfter_of_le (effTop_pos ..) hle, wrapsIn_of_le (effTop_pos ..) hle] at hanswer

end

/-- Everything `T0.TICK` leaves unchanged (R101). -/
theorem tickResult_t0_frame (s : State) (c : BitVec 32) :
    tickResult .t0 s c = { s with
      t0 := { s.t0 with
        counter := (tickResult .t0 s c).t0.counter
        overflowFlag := (tickResult .t0 s c).t0.overflowFlag }
      prescCnt0 := (tickResult .t0 s c).prescCnt0
      int := { s.int with
        pending := (tickResult .t0 s c).int.pending
        seqNext := (tickResult .t0 s c).int.seqNext }
      out := (tickResult .t0 s c).out
      resp := (tickResult .t0 s c).resp } := by
  have hf := (tickFrame_tick .t0 s c.toNat).eq_t0
  rw [act_tick_t0] at hf
  rw [tickResult_eq]
  exact congrArg (withIo s.cmds _) hf

/-- Everything `T1.TICK` leaves unchanged (R102), the actuator table aside. -/
theorem tickResult_t1_frame (s : State) (c : BitVec 32) :
    tickResult .t1 s c = { s with
      t1 := { s.t1 with
        counter := (tickResult .t1 s c).t1.counter
        overflowFlag := (tickResult .t1 s c).t1.overflowFlag }
      prescCnt1 := (tickResult .t1 s c).prescCnt1
      int := { s.int with
        pending := (tickResult .t1 s c).int.pending
        seqNext := (tickResult .t1 s c).int.seqNext }
      act := (tickResult .t1 s c).act
      out := (tickResult .t1 s c).out
      resp := (tickResult .t1 s c).resp } := by
  rw [tickResult_eq]
  exact congrArg (withIo s.cmds _) (tickFrame_tick .t1 s c.toNat).eq_t1

/-- Of the actuators, from `s` to `t` only the pulse start and the target of servos registered on one of Timer1's two output
pins change (R102). -/
def OnlyPulsed (s t : State) : Prop :=
  ∀ id,
    match actFind id s.act with
    | some (.servo sv) =>
      ∃ sv', actFind id t.act = some (.servo sv')
        ∧ sv' = { sv with pulseStartTimeUs := sv'.pulseStartTimeUs, targetAngleDeg := sv'.targetAngleDeg }
        ∧ ((s.cfg.pinOc1a, id) ∉ s.registry → (s.cfg.pinOc1b, id) ∉ s.registry → sv' = sv)
    | x => actFind id t.act = x

/-- A pass that makes such changes keeps every id. -/
theorem PulsesOnly.fst_eq {s : State} {f : InstanceId × ActInstance → InstanceId × ActInstance} (h : PulsesOnly s f)
    (e : InstanceId × ActInstance) : (f e).1 = e.1 := by
  obtain ⟨hlcd, hservo⟩ := h
  obtain ⟨id, sv | ⟨st, p⟩⟩ := e
  · obtain ⟨sv', hsv', -⟩ := hservo id sv
    rw [hsv']
  · rw [hlcd]

theorem TickFrame.onlyPulsed {n : TimerId} {s t : State} (h : TickFrame n s t) : OnlyPulsed s t := by
  obtain ⟨f, hf, hact⟩ := h.act_eq
  intro id
  have hfind : actFind id t.act = (actFind id s.act).map fun x => (f (id, x)).2 := by
    rw [hact, actFind_map _ _ hf.fst_eq]
  obtain ⟨hlcd, hservo⟩ := hf
  cases hx : actFind id s.act with
  | none => simp only [hfind, hx, Option.map_none]
  | some x =>
    rw [hx, Option.map_some] at hfind
    cases x with
    | servo sv =>
      obtain ⟨sv', hsv', hframe, hreg⟩ := hservo id sv
      exact ⟨sv', by rw [hfind, hsv'], hframe, hreg⟩
    | lcd st p => simp only [hfind, hlcd]

theorem tickResult_onlyPulsed (n : TimerId) (s : State) (c : BitVec 32) : OnlyPulsed s (tickResult n s c) :=
  (tickFrame_tick n s c.toNat).onlyPulsed

/-! ### The statements -/

/-- Settles O11: the closed form of a counter below its TOP, and the frame of a tick of Timer0. -/
theorem timer0TickResult : Obligations.Timer0TickResult := by
  intro c s hsrc _ hres hcnt
  obtain ⟨hresidue, hcounter, hflag, hresp⟩ := tickResult_answer_of_lt (n := .t0) c hres hcnt
  exact ⟨_, exec_tickOp .t0 c s hsrc, hresidue, hcounter, hflag, hresp, tickResult_t0_frame s c⟩

/-- Settles O12: the closed form of a counter below its TOP, and the frame of a tick of Timer1. -/
theorem timer1TickResult : Obligations.Timer1TickResult := by
  intro c s hsrc _ hres hcnt
  obtain ⟨hresidue, hcounter, hflag, hresp⟩ := tickResult_answer_of_lt (n := .t1) c hres hcnt
  exact ⟨_, exec_tickOp .t1 c s hsrc, hresidue, hcounter, hflag, hresp, tickResult_t1_frame s c,
    tickResult_onlyPulsed .t1 s c⟩

/-- Settles O13: the closed form of a counter at or above its TOP, and the frame of a tick of each timer. -/
theorem loweredTopWrapsAtTheNextCount : Obligations.LoweredTopWrapsAtTheNextCount := by
  refine fun c s hsrc => ⟨fun _ hres hcnt => ?_, fun _ hres hcnt => ?_⟩
  · obtain ⟨hresidue, hcounter, hflag, hresp⟩ := tickResult_answer_of_le (n := .t0) c hres hcnt
    exact ⟨_, exec_tickOp .t0 c s hsrc, hresidue, hcounter, hflag, hresp, tickResult_t0_frame s c⟩
  · obtain ⟨hresidue, hcounter, hflag, hresp⟩ := tickResult_answer_of_le (n := .t1) c hres hcnt
    exact ⟨_, exec_tickOp .t1 c s hsrc, hresidue, hcounter, hflag, hresp, tickResult_t1_frame s c,
      tickResult_onlyPulsed .t1 s c⟩

end Sys2Proof.Machine
end

section
/-! What a batch appends to the trace and to the interrupt queue (41_timers.md R93, R94, R105). -/

namespace Sys2Proof.Machine

open Sys2Proof

/-- What every cycle of a batch keeps of the state and the overflows counted so far, the batch keeps. -/
theorem tick_count_induct {n : TimerId} {P : State → Nat → Prop}
    (hP : ∀ s ovf rest, P s ovf → P (tickCycle n s rest).1 (ovf + (tickCycle n s rest).2)) {s : State} (c : Nat)
    (h : P s 0) : P (tick n s c).1 (tick n s c).2 := by
  have cycles : ∀ c (u : State) ovf, P u ovf → P (tickCycles n c u ovf).1 (tickCycles n c u ovf).2 := fun c => by
    induction c with
    | zero => exact fun u ovf hu => hu
    | succ c ih => exact fun u ovf hu => ih _ _ (hP u ovf c hu)
  unfold tick
  split_ifs
  · exact h
  · exact cycles c s 0 h

/-! ### Overflows -/

theorem overflowsIn_append (n : TimerId) (x y : List Event) :
    overflowsIn n (x ++ y) = overflowsIn n x + overflowsIn n y := List.countP_append ..

theorem overflowsIn_eq_zero {n : TimerId} {evs : List Event} (h : ∀ ts, Event.ovf n ts ∉ evs) : overflowsIn n evs = 0 := by
  refine List.countP_eq_zero.mpr fun e he => ?_
  cases e with
  | ovf k ts =>
    have hk : k ≠ n := fun hk => h ts (hk ▸ he)
    simpa using hk
  | cmp | pulse | angle => simp

theorem overflowsIn_hits (n : TimerId) (t : TimerState) (ts : Nat) : overflowsIn n (hits n t ts) = 0 := by
  refine overflowsIn_eq_zero fun ts' => ?_
  unfold hits
  split_ifs <;> simp

theorem overflowsIn_pulses (n : TimerId) (s : State) (ts : Nat) : overflowsIn n (pulses s ts) = 0 := by
  refine overflowsIn_eq_zero fun ts' => ?_
  simp only [pulses]
  split_ifs <;> simp

/-- What one count appends to the trace. -/
def countEvents (n : TimerId) (s : State) (ts : Nat) : List Event :=
  (if effTop n (timer s n) ≤ (timer s n).counter.toNat + 1 then
      .ovf n (BitVec.ofNat 64 ts) :: (if n = .t1 then pulses s ts else [])
    else [])
  ++ hits n (timer (count n s ts).1 n) ts

theorem count_out_eq (n : TimerId) (s : State) (ts : Nat) :
    (count n s ts).1.out = s.out ++ countEvents n s ts := by
  rw [count_out, countEvents, List.append_assoc]

/-- One count appends one overflow if it wraps, none if it does not. -/
theorem overflowsIn_countEvents (n : TimerId) (s : State) (ts : Nat) :
    overflowsIn n (countEvents n s ts) = (count n s ts).2 := by
  have hpulses : overflowsIn n (if n = .t1 then pulses s ts else []) = 0 := by
    split_ifs
    · exact overflowsIn_pulses n s ts
    · rfl
  rw [countEvents, overflowsIn_append, overflowsIn_hits, Nat.add_zero, count_snd]
  by_cases hwrap : effTop n (timer s n) ≤ (timer s n).counter.toNat + 1
  · rw [if_pos hwrap, if_pos hwrap, ← List.singleton_append, overflowsIn_append, hpulses]
    simp [overflowsIn]
  · rw [if_neg hwrap, if_neg hwrap]
    rfl

/-! ### Requests -/

/-- The request one count queues (R93): a wrap's, where the source's enable bit is set. -/
def countRequests (n : TimerId) (s : State) : List Pending :=
  if effTop n (timer s n) ≤ (timer s n).counter.toNat + 1 ∧ intenBit s.inten n = true then
    [⟨vectorOf s.cfg n, s.int.seqNext⟩]
  else []

theorem count_int_eq (n : TimerId) (s : State) (ts : Nat) :
    (count n s ts).1.int =
      { s.int with
        pending := s.int.pending ++ countRequests n s
        seqNext := s.int.seqNext + (countRequests n s).length } := by
  rw [count_int, countRequests]
  by_cases hwrap : effTop n (timer s n) ≤ (timer s n).counter.toNat + 1 <;> cases hen : intenBit s.inten n <;>
    simp [hwrap, requestInterrupt]

theorem countRequests_length (n : TimerId) (s : State) (ts : Nat) :
    (countRequests n s).length = if intenBit s.inten n then (count n s ts).2 else 0 := by
  rw [count_snd, countRequests]
  by_cases hwrap : effTop n (timer s n) ≤ (timer s n).counter.toNat + 1 <;> cases hen : intenBit s.inten n <;>
    simp [hwrap]

/-- From `s` to `t`, `k` overflows are each reported in `evs` and, where enabled, requested in `reqs`. -/
structure Reported (n : TimerId) (s t : State) (k : Nat) (evs : List Event) (reqs : List Pending) : Prop where
  out_eq : t.out = s.out ++ evs
  overflows_eq : overflowsIn n evs = k
  pending_eq : t.int.pending = s.int.pending ++ reqs
  length_eq : reqs.length = if intenBit s.inten n then k else 0
  vector_eq : ∀ e ∈ reqs, e.vectorAddress = vectorOf s.cfg n
  seqNext_eq : t.int.seqNext = s.int.seqNext + reqs.length

theorem Reported.none {n : TimerId} {s t : State} (hout : t.out = s.out) (hint : t.int = s.int) :
    Reported n s t 0 [] [] where
  out_eq := by rw [hout, List.append_nil]
  overflows_eq := rfl
  pending_eq := by rw [hint, List.append_nil]
  length_eq := by simp
  vector_eq := by simp
  seqNext_eq := by rw [hint]; rfl

theorem Reported.trans {n : TimerId} {s t u : State} {k k' : Nat} {evs evs' : List Event} {reqs reqs' : List Pending}
    (hf : TickFrame n s t) (h : Reported n s t k evs reqs) (h' : Reported n t u k' evs' reqs') :
    Reported n s u (k + k') (evs ++ evs') (reqs ++ reqs') where
  out_eq := by rw [h'.out_eq, h.out_eq, List.append_assoc]
  overflows_eq := by rw [overflowsIn_append, h.overflows_eq, h'.overflows_eq]
  pending_eq := by rw [h'.pending_eq, h.pending_eq, List.append_assoc]
  length_eq := by
    rw [List.length_append, h.length_eq, h'.length_eq, hf.inten_eq]
    split_ifs <;> rfl
  vector_eq := by
    have hvector := h'.vector_eq
    rw [hf.cfg_eq] at hvector
    exact List.forall_mem_append.mpr ⟨h.vector_eq, hvector⟩
  seqNext_eq := by rw [h'.seqNext_eq, h.seqNext_eq, List.length_append, Nat.add_assoc]

theorem reported_count (n : TimerId) (s : State) (ts : Nat) :
    Reported n s (count n s ts).1 (count n s ts).2 (countEvents n s ts) (countRequests n s) where
  out_eq := count_out_eq n s ts
  overflows_eq := overflowsIn_countEvents n s ts
  pending_eq := by rw [count_int_eq]
  length_eq := countRequests_length n s ts
  vector_eq := by
    unfold countRequests
    split_ifs <;> simp
  seqNext_eq := by rw [count_int_eq]

theorem reported_tickCycle (n : TimerId) (s : State) (rest : Nat) :
    ∃ evs reqs, Reported n s (tickCycle n s rest).1 (tickCycle n s rest).2 evs reqs := by
  have hresidue : ∀ v, Reported n s (setResidue s n v) 0 [] [] := fun v =>
    .none (setResidue_out s n v) (setResidue_int s n v)
  obtain ⟨-, hc⟩ | ⟨-, hc⟩ := tickCycle_cases n s rest <;> rw [hc]
  · have hcount := (hresidue 0).trans (tickFrame_setResidue n s 0) (reported_count n _ (wrapTime s.cpuCycles.toNat rest))
    rw [Nat.zero_add] at hcount
    exact ⟨_, _, hcount⟩
  · exact ⟨_, _, hresidue _⟩

/-- Settles O16: each cycle reports and requests its own wrap, and reports and requests add up over the batch. -/
theorem everyWrapIsReportedAndRequested : Obligations.EveryWrapIsReportedAndRequested := by
  intro n s c
  obtain ⟨-, evs, reqs, hout, hovf, hpending, hlength, hvector, hseq⟩ :=
    tick_count_induct (P := fun t k => TickFrame n s t ∧ ∃ evs reqs, Reported n s t k evs reqs)
      (fun t k rest ⟨hf, _, _, h⟩ =>
        let ⟨_, _, hcycle⟩ := reported_tickCycle n t rest
        ⟨hf.trans (tickFrame_tickCycle n t rest), _, _, h.trans hf hcycle⟩)
      c ⟨.refl n s, _, _, .none rfl rfl⟩
  exact ⟨evs, reqs, hout, hovf, hpending, hlength, hvector, hseq⟩

/-! ### Pulses -/

/-- Timer `n` emits no pulse: it is Timer0, or Timer1 without `top` or without an active channel (R94, R105). -/
def Unconfigured (n : TimerId) (s : State) : Prop :=
  n = .t0 ∨ s.t1.top = 0 ∨ (s.t1.compareA = 0 ∧ s.t1.compareB = 0)

/-- A tick changes neither `top` nor the compare registers. -/
theorem Unconfigured.of_tickFrame {n : TimerId} {s t : State} (h : Unconfigured n s) (hf : TickFrame n s t) :
    Unconfigured n t := by
  cases n with
  | t0 => exact .inl rfl
  | t1 =>
    have ht : t.t1 = { s.t1 with counter := t.t1.counter, overflowFlag := t.t1.overflowFlag } := hf.timer_eq
    rw [Unconfigured, ht]
    exact h

/-- `Pwm1` without an active channel does nothing. -/
theorem pwm1_of_unconfigured {s : State} (h : s.t1.top = 0 ∨ (s.t1.compareA = 0 ∧ s.t1.compareB = 0)) (ts : Nat) :
    pwm1 s ts = s := by
  rw [pwm1_eq]
  obtain htop | ⟨ha, hb⟩ := h
  · exact if_pos htop
  · have hchannel : ∀ pin, channelPulse s pin 0 ts = s := fun _ => if_pos rfl
    rw [ha, hchannel, hb, hchannel, ite_self]

/-- A wrap that emits no pulse: flag, overflow and request. -/
theorem wrap_of_unconfigured {n : TimerId} {s : State} (h : Unconfigured n s) (ts : Nat) :
    wrap n s ts = requestInterrupt (emit (setTimer s n (setOverflow (timer s n))) (.ovf n (BitVec.ofNat 64 ts)))
      (vectorOf s.cfg n) (intenBit s.inten n) := by
  cases n with
  | t0 => exact wrap_t0 s ts
  | t1 =>
    rw [wrap_t1, pwm1_of_unconfigured (by simpa [setOverflow, Unconfigured] using h)]
    rfl

/-- The timer's parts of a count reach no actuator but by pulses. -/
theorem count_act_of_unconfigured {n : TimerId} {s : State} (h : Unconfigured n s) (ts : Nat) :
    (count n s ts).1.act = s.act := by
  rcases le_or_gt (effTop n (timer s n)) ((timer s n).counter.toNat + 1) with hc | hc
  · have h' := h.of_tickFrame (tickFrame_setTimer n s { timer s n with counter := 0 } rfl)
    rw [count_of_wrap n s ts hc, wrap_of_unconfigured h', requestInterrupt_act, emit_act, setTimer_act, setTimer_act]
  · rw [count_of_lt n s ts hc, compareCheck_act, setTimer_act]

theorem pulses_of_unconfigured {s : State} (h : s.t1.top = 0 ∨ (s.t1.compareA = 0 ∧ s.t1.compareB = 0)) (ts : Nat) :
    pulses s ts = [] := by
  obtain htop | ⟨ha, hb⟩ := h
  · exact if_pos htop
  · simp [pulses, ha, hb]

theorem noPulse_append {x y : List Event} (hx : noPulse x) (hy : noPulse y) : noPulse (x ++ y) :=
  fun pin level ts h => (List.mem_append.mp h).elim (hx pin level ts) (hy pin level ts)

theorem noPulse_countEvents {n : TimerId} {s : State} (h : Unconfigured n s) (ts : Nat) : noPulse (countEvents n s ts) := by
  have hpulses : (if n = .t1 then pulses s ts else []) = [] := by
    split_ifs with hn
    · subst hn
      exact pulses_of_unconfigured (h.resolve_left nofun) ts
    · rfl
  have hhits : noPulse (hits n (timer (count n s ts).1 n) ts) := by
    intro pin level ts'
    unfold hits
    split_ifs <;> simp
  rw [countEvents, hpulses]
  refine noPulse_append (fun pin level ts' => ?_) hhits
  split_ifs <;> simp

/-- The trace has grown by `evs` without a pulse, and no actuator has changed. -/
def Quiet (s t : State) : Prop := ∃ evs, t.out = s.out ++ evs ∧ noPulse evs ∧ t.act = s.act

theorem Quiet.refl (s : State) : Quiet s s := ⟨[], (List.append_nil _).symm, nofun, rfl⟩

theorem Quiet.trans {s t u : State} (h : Quiet s t) (h' : Quiet t u) : Quiet s u := by
  obtain ⟨evs, hout, hno, hact⟩ := h
  obtain ⟨evs', hout', hno', hact'⟩ := h'
  exact ⟨evs ++ evs', by rw [hout', hout, List.append_assoc], noPulse_append hno hno', hact'.trans hact⟩

theorem quiet_setResidue (n : TimerId) (s : State) (v : BitVec 16) : Quiet s (setResidue s n v) :=
  ⟨[], by rw [setResidue_out, List.append_nil], nofun, setResidue_act s n v⟩

theorem quiet_tickCycle {n : TimerId} {s : State} (h : Unconfigured n s) (rest : Nat) :
    Quiet s (tickCycle n s rest).1 := by
  obtain ⟨-, hc⟩ | ⟨-, hc⟩ := tickCycle_cases n s rest <;> rw [hc]
  · have h' := h.of_tickFrame (tickFrame_setResidue n s 0)
    exact (quiet_setResidue n s 0).trans
      ⟨_, count_out_eq n _ _, noPulse_countEvents h' _, count_act_of_unconfigured h' _⟩
  · exact quiet_setResidue n s _

/-- Settles O17: an unconfigured timer stays unconfigured, and each of its cycles is quiet. -/
theorem unconfiguredTimerEmitsNoPulse : Obligations.UnconfiguredTimerEmitsNoPulse := by
  intro n s c h
  obtain ⟨-, hquiet⟩ := tick_induct (n := n) (P := fun t => Unconfigured n t ∧ Quiet s t)
    (fun t rest ⟨hu, hq⟩ => ⟨hu.of_tickFrame (tickFrame_tickCycle n t rest), hq.trans (quiet_tickCycle hu rest)⟩)
    c ⟨h, .refl s⟩
  exact hquiet

end Sys2Proof.Machine
end

section
/-! What one count does to the whole state (41_timers.md R91 to R98), and that its timestamps fit (R107). -/

namespace Sys2Proof.Machine

open Sys2Proof

/-! ### Timestamps -/

theorem wrapTime_eq (cycles rest : Nat) : wrapTime cycles rest = (cycles - rest) / 16 := microsOf_eq _

theorem periodUs_eq (top prescaler : Nat) : periodUs top prescaler = top * prescaler / 16 :=
  Nat.mul_div_mul_right (top * prescaler) 16 (by decide : 0 < 1000000)

/-- A pulse is no longer than `compare` counts of `prescaler` microseconds. -/
theorem pulseUs_periodUs_le (compare top prescaler : Nat) :
    pulseUs compare top (periodUs top prescaler) ≤ compare * prescaler := by
  rw [pulseUs, periodUs_eq]
  refine Nat.div_le_of_le_mul ?_
  calc compare * (top * prescaler / 16) ≤ compare * (top * prescaler) := Nat.mul_le_mul_left _ (Nat.div_le_self ..)
    _ = top * (compare * prescaler) := Nat.mul_left_comm ..

/-- Settles O19: an instant is below 2^60, and neither width reaches 2^32. -/
theorem pulseTimestampsFitSixtyFourBits : Obligations.PulseTimestampsFitSixtyFourBits := by
  intro cycles compare top prescaler width rest _
  have hclock := cycles.isLt
  have hwidth := width.isLt
  have hpulse := pulseUs_periodUs_le compare.toNat top.toNat prescaler.toNat
  have hproduct : compare.toNat * prescaler.toNat < 2 ^ 16 * 2 ^ 16 :=
    Nat.mul_lt_mul'' compare.isLt prescaler.isLt
  rw [wrapTime_eq, microsOf_eq]
  omega

/-! ### A count below the TOP -/

/-- It adds one and emits its compare events. -/
theorem count_below (n : TimerId) (s : State) (ts : Nat) (h : (timer s n).counter.toNat + 1 < effTop n (timer s n)) :
    count n s ts =
      ({ setTimer s n { timer s n with counter := (timer s n).counter + 1 } with
          out := s.out ++ hits n { timer s n with counter := (timer s n).counter + 1 } ts }, 0) := by
  rw [count_of_lt n s ts h, compareCheck_eq, timer_setTimer, setTimer_out]

/-! ### A wrap -/

/-- What a wrap leaves before any pulse: the counter 0, the flag set, the overflow in the trace, the request queued. -/
def wrapped (n : TimerId) (s : State) (ts : Nat) : State :=
  { setTimer s n { timer s n with counter := 0, overflowFlag := true } with
    out := s.out ++ [.ovf n (BitVec.ofNat 64 ts)]
    int :=
      if intenBit s.inten n = true then
        { s.int with
          pending := s.int.pending ++ [{ vectorAddress := vectorOf s.cfg n, priorityOrder := s.int.seqNext }]
          seqNext := s.int.seqNext + 1 }
      else s.int }

theorem wrapped_eq (n : TimerId) (s : State) (ts : Nat) :
    wrapped n s ts = requestInterrupt
      (emit (setTimer s n { timer s n with counter := 0, overflowFlag := true }) (.ovf n (BitVec.ofNat 64 ts)))
      (vectorOf s.cfg n) (intenBit s.inten n) := by
  unfold wrapped
  cases intenBit s.inten n <;> cases n <;> rfl

theorem count_wrap_t0 (s : State) (ts : Nat) (h : effTop .t0 s.t0 ≤ s.t0.counter.toNat + 1) :
    count .t0 s ts = (wrapped .t0 s ts, 1) := by
  rw [count_of_wrap .t0 s ts h, wrap_t0, wrapped_eq]
  rfl

theorem count_wrap_t1 (s : State) (ts : Nat) (h : effTop .t1 s.t1 ≤ s.t1.counter.toNat + 1) :
    count .t1 s ts = (pwm1 (wrapped .t1 s ts) ts, 1) := by
  rw [count_of_wrap .t1 s ts h, wrap_t1, wrapped_eq]
  rfl

/-! ### The pulses of a wrap as router operations -/

/-- The router operations of an active channel (R94, R95): a rise, and a fall one width later. -/
def channelOps (t : TimerState) (pin : Pin) (cmp : BitVec 16) (ts : Nat) : List Instr :=
  if cmp = 0 then []
  else
    [.pwmRise pin (BitVec.ofNat 64 ts), .pwmFall pin (BitVec.ofNat 64
      (ts + cmp.toNat * (t.top.toNat * t.prescaler.toNat * 1000000 / 16000000) / t.top.toNat))]

theorem execAll_channelOps {s : State} (hsrc : s.src = .stepLoop) (pin : Pin) (cmp : BitVec 16) (ts : Nat) :
    execAll (channelOps s.t1 pin cmp ts) s = .next (channelPulse s pin cmp ts) := by
  unfold channelOps channelPulse
  split_ifs
  · rfl
  · have hrise : ∀ at', exec (.pwmRise pin at') s = .next (pulseEvent s pin .high at') := fun _ => stepOnly_of s _ hsrc
    have hfall : ∀ at' at'', exec (.pwmFall pin at'') (pulseEvent s pin .high at') =
        .next (pulseEvent (pulseEvent s pin .high at') pin .low at'') := fun _ _ => stepOnly_of _ _ hsrc
    rw [execAll_cons, hrise, andThen_next, execAll_cons, hfall, pulseUs_periodUs]
    rfl

/-- `Pwm1` with `top` set is the router operations of channel A and then of channel B. -/
theorem execAll_pwm1 {s : State} (hsrc : s.src = .stepLoop) (htop : s.t1.top ≠ 0) (ts : Nat) :
    execAll (channelOps s.t1 s.cfg.pinOc1a s.t1.compareA ts ++ channelOps s.t1 s.cfg.pinOc1b s.t1.compareB ts) s =
      .next (pwm1 s ts) := by
  have hf := tickFrame_channelPulse .t1 s s.cfg.pinOc1a s.t1.compareA ts (.inl rfl)
  have ht1 : (channelPulse s s.cfg.pinOc1a s.t1.compareA ts).t1 = s.t1 := timer_channelPulse s .t1 ..
  have hsecond := execAll_channelOps (hf.src_eq.trans hsrc) s.cfg.pinOc1b s.t1.compareB ts
  rw [ht1] at hsecond
  rw [execAll_append, execAll_channelOps hsrc, andThen_next, hsecond, pwm1_eq, if_neg htop, hf.cfg_eq, ht1]

theorem pwm1_withSrc (p : Principal) (s : State) (ts : Nat) : pwm1 (withSrc p s) ts = withSrc p (pwm1 s ts) := by
  simp only [pwm1_eq, withSrc_t1, show (withSrc p s).cfg = s.cfg from rfl, channelPulse_withSrc]
  split_ifs <;> rfl

/-! ### A tick of one cycle -/

theorem tickCycle_of_le {n : TimerId} {s : State} (h : (timer s n).prescaler.toNat ≤ (residue s n).toNat + 1) (rest : Nat) :
    tickCycle n s rest = count n (setResidue s n 0) (wrapTime s.cpuCycles.toNat rest) := if_pos h

theorem tickCycle_of_lt {n : TimerId} {s : State} (h : (residue s n).toNat + 1 < (timer s n).prescaler.toNat) (rest : Nat) :
    tickCycle n s rest = (setResidue s n (residue s n + 1), 0) := if_neg (Nat.not_le.mpr h)

/-- A batch of one cycle is one cycle with nothing after it. -/
theorem exec_tickOp_one {n : TimerId} {s : State} (hsrc : s.src = .stepLoop) (h : (timer s n).prescaler ≠ 0) :
    exec (tickOp n 1) s =
      .next { (tickCycle n s 0).1 with resp := .u32 (BitVec.ofNat 32 (tickCycle n s 0).2) } := by
  have htick : tick n s (1 : BitVec 32).toNat = tickCycle n s 0 := by
    rw [tick_of_running h, show (1 : BitVec 32).toNat = 1 from rfl, tickCycles, tickCycles, Nat.zero_add]
  rw [exec_tickOp n 1 s hsrc, tickResult, htick]

/-! ### The statement -/

/-- Settles O18: the two branches of a count, the pulses of a wrap as router operations, and the loop of one cycle. -/
theorem oneCountEmitsInOrder : Obligations.OneCountEmitsInOrder := by
  refine ⟨fun n s ts h => ⟨?below, ?added⟩, fun n s ts h => ⟨fun hn => ?wrap, fun hn htop => ?wrapWithPulses⟩,
    fun n s hsrc hp => ⟨fun h => ?cycleCounts, fun h => ?cycleWaits⟩⟩
  case below => rw [count_below n s ts h, hits, List.append_assoc]
  case added =>
    have htop := effTop_le n (timer s n)
    exact BitVec.toNat_add_of_lt (by change _ + 1 < 65536; omega)
  case wrap =>
    cases n with
    | t0 => exact count_wrap_t0 s ts h
    | t1 =>
      have htop : s.t1.top = 0 := hn.resolve_left nofun
      have hpwm1 : pwm1 (wrapped .t1 s ts) ts = wrapped .t1 s ts :=
        pwm1_of_unconfigured (s := wrapped .t1 s ts) (.inl htop) ts
      exact (count_wrap_t1 s ts h).trans (congrArg (·, 1) hpwm1)
  case wrapWithPulses =>
    subst hn
    have hpulses := execAll_pwm1 (s := withSrc .stepLoop (wrapped .t1 s ts)) rfl htop ts
    rw [pwm1_withSrc] at hpulses
    rw [count_wrap_t1 s ts h]
    refine ⟨rfl, (tickFrame_pwm1 _ ts).src_eq, ?_, hpulses⟩
    rw [pwm1_out, pulses, List.append_assoc]
    simp only [pulseUs_periodUs]
    exact congrArg _ (if_neg htop)
  case cycleCounts =>
    have hone := exec_tickOp_one hsrc hp
    rw [tickCycle_of_le h, wrapTime_eq, Nat.sub_zero] at hone
    exact hone
  case cycleWaits =>
    have hone := exec_tickOp_one hsrc hp
    rw [tickCycle_of_lt h] at hone
    exact hone

end Sys2Proof.Machine
end

section
/-! The register file: `REG.WR` and `REG.RD` (41_timers.md R103, R104). -/

namespace Sys2Proof.Machine

open Sys2Proof

/-! ### Masks and flags -/

/-- A Timer0 register keeps the low 8 bits (10_state.md R14). -/
theorem maskByte_eq (v : BitVec 16) : maskByte v = BitVec.ofNat 16 (v.toNat % 256) := by
  apply BitVec.eq_of_toNat_eq
  rw [maskByte, BitVec.toNat_and, BitVec.toNat_ofNat, Nat.mod_eq_of_lt (by omega)]
  exact Nat.and_two_pow_sub_one_eq_mod v.toNat 8

theorem maskByte_ne_zero_iff (v : BitVec 16) : maskByte v ≠ 0 ↔ v.toNat % 256 ≠ 0 := by
  rw [maskByte_eq, Ne, BitVec.toNat_eq, BitVec.toNat_ofNat, Nat.mod_eq_of_lt (by omega)]
  rfl

theorem bne_eq_decide_ne (v w : BitVec 16) : (v != w) = decide (v ≠ w) := by
  by_cases h : v = w <;> simp [h]

/-- `INTEN` reads back its two bits (10_state.md R19). -/
theorem intenOf_setWidth (v : BitVec 16) : (intenOf v).setWidth 16 = BitVec.ofNat 16 (v.toNat % 4) := by
  apply BitVec.eq_of_toNat_eq
  rw [intenOf, BitVec.toNat_setWidth, BitVec.extractLsb'_toNat, BitVec.toNat_ofNat, Nat.shiftRight_zero]

theorem getLsbD_zero_iff (v : BitVec 16) : v.getLsbD 0 = true ↔ v.toNat % 2 = 1 := by
  rw [BitVec.getLsbD, Nat.testBit_zero, decide_eq_true_iff]

theorem writeFlag_eq (t : TimerState) (v : BitVec 16) :
    writeFlag t v = { t with overflowFlag := t.overflowFlag && !v.getLsbD 0 } := by
  unfold writeFlag
  cases v.getLsbD 0 <;> simp

/-- `FLAG` without its overflow bit. -/
theorem flagValue_and_two (t : TimerState) : flagValue t &&& 2 = flagValue { t with overflowFlag := false } := by
  have hbits : ∀ overflow initialized : Bool,
      BitVec.ofNat 16 ((if overflow then 1 else 0) + (if initialized then 2 else 0)) &&& 2 =
        BitVec.ofNat 16 ((if false then 1 else 0) + (if initialized then 2 else 0)) := by decide
  exact hbits t.overflowFlag t.initialized

/-- Bit 0 written clears bit 0 read, and nothing sets it (10_state.md R20). -/
theorem flagValue_writeFlag (t : TimerState) (v : BitVec 16) :
    flagValue (writeFlag t v) = if v.toNat % 2 = 1 then flagValue t &&& 2 else flagValue t := by
  unfold writeFlag
  by_cases h : v.getLsbD 0 = true
  · rw [if_pos h, if_pos ((getLsbD_zero_iff v).mp h), flagValue_and_two]
  · rw [if_neg h, if_neg (mt (getLsbD_zero_iff v).mpr h)]

/-! ### Reads after writes -/

/-- What any other register reads: what it did, but for the `FLAG` of a timer whose `TOP` is written (10_state.md R17). -/
theorem readReg_writeReg_ne {s : State} {r r' : Reg} {v : BitVec 16} (hne : r' ≠ r)
    (ht0 : r = .t0Top → r' ≠ .t0Flag) (ht1 : r = .t1Top → r' ≠ .t1Flag) :
    readReg (writeReg s r v) r' = readReg s r' := by
  cases r with
  | t0Cnt | t1Cnt | reserved => rfl
  | t0Top =>
    have hflag := ht0 rfl
    cases r' with
    | t0Top | t0Flag => contradiction
    | _ => rfl
  | t1Top =>
    have hflag := ht1 rfl
    cases r' with
    | t1Top | t1Flag => contradiction
    | _ => rfl
  | t0Flag =>
    rw [writeReg, writeFlag_eq]
    cases r' with
    | t0Flag => contradiction
    | _ => rfl
  | t1Flag =>
    rw [writeReg, writeFlag_eq]
    cases r' with
    | t1Flag => contradiction
    | _ => rfl
  | t0Cmpa => cases r' with
    | t0Cmpa => contradiction
    | _ => rfl
  | t0Cmpb => cases r' with
    | t0Cmpb => contradiction
    | _ => rfl
  | t0Presc => cases r' with
    | t0Presc => contradiction
    | _ => rfl
  | t1Cmpa => cases r' with
    | t1Cmpa => contradiction
    | _ => rfl
  | t1Cmpb => cases r' with
    | t1Cmpb => contradiction
    | _ => rfl
  | t1Presc => cases r' with
    | t1Presc => contradiction
    | _ => rfl
  | inten => cases r' with
    | inten => contradiction
    | _ => rfl

theorem writeReg_prescCnt0 (s : State) (r : Reg) (v : BitVec 16) :
    (writeReg s r v).prescCnt0 = if r = .t0Presc then 0 else s.prescCnt0 := by
  cases r <;> rfl

theorem writeReg_prescCnt1 (s : State) (r : Reg) (v : BitVec 16) :
    (writeReg s r v).prescCnt1 = if r = .t1Presc then 0 else s.prescCnt1 := by
  cases r <;> rfl

/-- Everything a register write leaves unchanged. -/
theorem writeReg_frame (s : State) (r : Reg) (v : BitVec 16) :
    writeReg s r v = { s with
      t0 := (writeReg s r v).t0
      t1 := (writeReg s r v).t1
      prescCnt0 := (writeReg s r v).prescCnt0
      prescCnt1 := (writeReg s r v).prescCnt1
      inten := (writeReg s r v).inten } := by
  cases r <;> rfl

/-! ### The statements -/

/-- Settles O20: reads after the write, by the register, and the frame of the write. -/
theorem registerWriteThenRead : Obligations.RegisterWriteThenRead := by
  intro r v s hsrc
  refine ⟨writeReg s r v, stepOnly_of s _ hsrc, ?same, fun _ => readReg_writeReg_ne, ?t0Top, ?t1Top,
    writeReg_prescCnt0 s r v, writeReg_prescCnt1 s r v, writeReg_frame s r v⟩
  case same =>
    cases r with
    | t0Top | t0Cmpa | t0Cmpb => exact maskByte_eq v
    | t0Flag => exact flagValue_writeFlag s.t0 v
    | t1Flag => exact flagValue_writeFlag s.t1 v
    | inten => exact intenOf_setWidth v
    | t0Cnt | t1Cnt | t0Presc | t1Top | t1Cmpa | t1Cmpb | t1Presc | reserved => rfl
  case t0Top =>
    rintro rfl
    have hinit : (maskByte v != 0) = decide (v.toNat % 256 ≠ 0) := by
      rw [bne_eq_decide_ne]
      exact decide_eq_decide.mpr (maskByte_ne_zero_iff v)
    exact ⟨hinit, rfl⟩
  case t1Top =>
    rintro rfl
    exact ⟨bne_eq_decide_ne v 0, rfl⟩

/-- Settles O21: the index table is `readReg`, with `INTEN` widened. -/
theorem registerReadReturnsTheField : Obligations.RegisterReadReturnsTheField := by
  intro r s hsrc
  have hread : exec (.regRd r) s = .next { s with resp := .u16 (readReg s r) } := stepOnly_of s _ hsrc
  rw [hread]
  cases r with
  | inten => rw [readReg, BitVec.ofNat_toNat]
  | t0Cnt | t0Top | t0Cmpa | t0Cmpb | t0Presc | t0Flag | t1Cnt | t1Top | t1Cmpa | t1Cmpb | t1Presc | t1Flag
  | reserved => rfl

end Sys2Proof.Machine
end

section
/-! The interrupt dispatcher: `INT.REQ`, `INT.POLL` and `INT.RETI` (42_interrupt_controller.md R111 to R114). -/

namespace Sys2Proof.Machine

open Sys2Proof

/-! ### Selection (R112) -/

/-- Something pending is something to select. -/
theorem exists_selectPending {q : List Pending} (hq : q ≠ []) : ∃ e, selectPending q = some e :=
  Option.ne_none_iff_exists'.mp fun h => hq ((selectPending_eq_none q).mp h)

/-! ### The operations in the step loop -/

/-- A request in the step loop is what a timer's own request is: `requestInterrupt`. -/
theorem exec_intReq {s : State} (hsrc : s.src = .stepLoop) (v : BitVec 16) (en : Bool) :
    exec (.intReq v en) s = .next (requestInterrupt s v en) :=
  stepOnly_of s _ hsrc

/-- A poll with `I` set takes the entry selected. -/
theorem exec_intPoll_take {s : State} {e : Pending} (hsrc : s.src = .stepLoop)
    (hsel : selectPending s.int.pending = some e) (hi : s.cpu.i = true) :
    exec .intPoll s = .next (takeInterrupt s e) := by
  refine (stepOnly_of s _ hsrc).trans ?_
  simp only [hsel, hi, if_true]

/-- A poll finds nothing to take in an empty queue. -/
theorem exec_intPoll_empty {s : State} (hsrc : s.src = .stepLoop) (hq : s.int.pending = []) :
    exec .intPoll s = .next s := by
  refine (stepOnly_of s _ hsrc).trans ?_
  simp only [hq, selectPending]

/-- A poll takes nothing with `I` clear, whatever is selected. -/
theorem exec_intPoll_masked {s : State} (hsrc : s.src = .stepLoop) (hi : s.cpu.i = false) :
    exec .intPoll s = .next s := by
  refine (stepOnly_of s _ hsrc).trans ?_
  cases selectPending s.int.pending with
  | none => rfl
  | some e => simp only [hi, Bool.false_eq_true, if_false]

/-- A return pops the address saved last. -/
theorem exec_intReti_pop {s : State} {a : BitVec 16} {rest : List (BitVec 16)} (hsrc : s.src = .stepLoop)
    (hstack : s.cpu.rstack = a :: rest) :
    exec .intReti s = .next { s with cpu := { pc := a, i := true, rstack := rest } } := by
  refine (stepOnly_of s _ hsrc).trans ?_
  simp only [returnFromInterrupt, hstack]

/-- A return with nothing saved is refused (log 10). -/
theorem exec_intReti_empty {s : State} (hsrc : s.src = .stepLoop) (hstack : s.cpu.rstack = []) :
    exec .intReti s = .refused .retiEmptyStack := by
  refine (stepOnly_of s _ hsrc).trans ?_
  simp only [returnFromInterrupt, hstack]

/-! ### The statements -/

/-- Settles O23: the entry selected is the minimum of R112 (`selectPending_spec`), and `takeInterrupt` is the entry sequence
of R113. -/
theorem pollTakesTheHighestPriority : Obligations.PollTakesTheHighestPriority := by
  intro s hsrc
  refine ⟨fun hq hi => ?taken, ?unchanged⟩
  case taken =>
    obtain ⟨e, hsel⟩ := exists_selectPending hq
    obtain ⟨hmem, hleast⟩ := selectPending_spec s.int.pending e hsel
    exact ⟨e, hmem, hleast, exec_intPoll_take hsrc hsel hi⟩
  case unchanged =>
    rintro (hq | hi)
    · exact exec_intPoll_empty hsrc hq
    · exact exec_intPoll_masked hsrc hi

/-- Settles O22: neither case of the request reads `I`. -/
theorem requestIsQueuedOrDropped : Obligations.RequestIsQueuedOrDropped := fun v _ hsrc =>
  ⟨exec_intReq hsrc v true, exec_intReq hsrc v false⟩

/-- Settles O24: by what the return stack holds. -/
theorem retiPopsOrIsRefused : Obligations.RetiPopsOrIsRefused := fun _ hsrc =>
  ⟨fun _ _ hstack => exec_intReti_pop hsrc hstack, exec_intReti_empty hsrc⟩

end Sys2Proof.Machine
end

section
/-! The PWM pulse router: `PWM.REG`, `PWM.UNREG`, `PWM.ROUTE`, `PWM.RISE` and `PWM.FALL` (43_pwm_router.md R121 to R127). -/

namespace Sys2Proof.Machine

open Sys2Proof

/-! ### The operations -/

theorem exec_pwmReg (pin : Pin) (id : InstanceId) (s : State) :
    exec (.pwmReg pin id) s = .next { s with registry := regAdd (pin, id) s.registry } := rfl

theorem exec_pwmUnreg (pin : Pin) (id : InstanceId) (s : State) :
    exec (.pwmUnreg pin id) s = .next { s with registry := regRemove (pin, id) s.registry } := rfl

theorem exec_pwmRise {s : State} (hsrc : s.src = .stepLoop) (pin : Pin) (ts : Micros) :
    exec (.pwmRise pin ts) s = .next (pulseEvent s pin .high ts) :=
  stepOnly_of s _ hsrc

theorem exec_pwmFall {s : State} (hsrc : s.src = .stepLoop) (pin : Pin) (ts : Micros) :
    exec (.pwmFall pin ts) s = .next (pulseEvent s pin .low ts) :=
  stepOnly_of s _ hsrc

/-- A route in the step loop reads the clock and the width, and not the period. -/
theorem exec_pwmRoute {s : State} (hsrc : s.src = .stepLoop) (pin : Pin) (pw period : BitVec 32) :
    exec (.pwmRoute pin pw period) s = .next (routePulseAt s pin pw.toNat (microsOf s.cpuCycles.toNat)) :=
  stepOnly_of s _ hsrc

/-- A rise and then a fall are one pulse: the fall is still issued in the step loop. -/
theorem execAll_pwmRise_pwmFall {s : State} (hsrc : s.src = .stepLoop) (pin : Pin) (rise fall : Micros) :
    execAll [.pwmRise pin rise, .pwmFall pin fall] s =
      .next (pulseEvent (pulseEvent s pin .high rise) pin .low fall) := by
  have hsrc' : (pulseEvent s pin .high rise).src = .stepLoop := hsrc
  rw [execAll_cons, exec_pwmRise hsrc, andThen_next, execAll_cons, exec_pwmFall hsrc', andThen_next, execAll_nil]

/-! ### What a servo makes of an event (44_servo.md R132, R133) -/

/-- A rise starts a pulse, over one that has not ended. -/
theorem servoPulse_high (rnd : Rounding) (ts : Micros) (sv : ServoState) :
    servoPulse rnd .high ts sv = { sv with pulseStartTimeUs := some ts } := rfl

/-- A fall without a pulse is ignored. -/
theorem servoPulse_low_of_none {sv : ServoState} (h : sv.pulseStartTimeUs = none) (rnd : Rounding) (ts : Micros) :
    servoPulse rnd .low ts sv = sv := by
  simp only [servoPulse, h]

/-- A fall ends the pulse, and sets the target unless it lies before the start. -/
theorem servoPulse_low_of_some {sv : ServoState} {start : Micros} (h : sv.pulseStartTimeUs = some start)
    (rnd : Rounding) (ts : Micros) :
    servoPulse rnd .low ts sv =
      if start.toNat ≤ ts.toNat then
        { sv with
          targetAngleDeg := round32 rnd (pulseWidthToAngle (ts.toNat - start.toNat))
          pulseStartTimeUs := none }
      else { sv with pulseStartTimeUs := none } := by
  simp only [servoPulse, h]

/-! ### Timestamps -/

/-- The instant of a fall fits the timestamp: the clock's microsecond is below 2^60, the width below 2^32. -/
theorem toNat_fallTime (cycles : BitVec 64) (pw : BitVec 32) :
    (BitVec.ofNat 64 (microsOf cycles.toNat + pw.toNat)).toNat = cycles.toNat / 16 + pw.toNat := by
  have hcycles := cycles.isLt
  have hpw := pw.isLt
  rw [microsOf_eq, BitVec.toNat_ofNat, Nat.mod_eq_of_lt (by omega)]

/-! ### The statements -/

/-- Settles O28: the two cases of a fall, by whether a pulse has started, with the angle of R131 written out. -/
theorem fallDecodesInEveryRegisteredServo : Obligations.FallDecodesInEveryRegisteredServo := by
  intro pin ts s hsrc decoded
  have hdecoded : servoPulse s.cfg.rnd32 .low ts = decoded := by
    funext sv
    cases hstart : sv.pulseStartTimeUs with
    | none => simp only [servoPulse_low_of_none hstart, decoded, hstart]
    | some start => simp only [servoPulse_low_of_some hstart, decoded, hstart, pulseWidthToAngle_eq]
  refine ⟨_, exec_pwmFall hsrc pin ts, rfl, fun id => ?_⟩
  rw [← hdecoded]
  exact actFind_pulseEvent s pin .low ts id

/-- Settles O27: the pass over the table that delivers the event, and what a rise is to a servo. -/
theorem riseReachesEveryRegisteredServo : Obligations.RiseReachesEveryRegisteredServo := by
  intro pin ts s hsrc
  refine ⟨_, exec_pwmRise hsrc pin ts, rfl, fun id => ?_⟩
  simp only [← servoPulse_high s.cfg.rnd32]
  exact actFind_pulseEvent s pin .high ts id

/-- Settles O26: neither operation asks for its principal; membership is `mem_regAdd` and `mem_regRemove`. -/
theorem registryAddsAndRemovesOnePair : Obligations.RegistryAddsAndRemovesOnePair := fun pin id s =>
  ⟨⟨_, exec_pwmReg pin id s, rfl, fun e => mem_regAdd (pin, id) e s.registry⟩,
    ⟨_, exec_pwmUnreg pin id s, rfl, fun e => (mem_regRemove (pin, id) e s.registry).trans and_comm⟩⟩

/-- Settles O29: `RoutePulseAt` is the two events at instants that fit their timestamps. -/
theorem routeIsARiseAndAFall : Obligations.RouteIsARiseAndAFall := fun pin pw period s hsrc =>
  ⟨BitVec.ofNat 64 (microsOf s.cpuCycles.toNat), BitVec.ofNat 64 (microsOf s.cpuCycles.toNat + pw.toNat), _,
    by rw [microsOf_eq, toNat_ofNat_div], toNat_fallTime s.cpuCycles pw, exec_pwmRoute hsrc pin pw period,
    execAll_pwmRise_pwmFall hsrc pin _ _⟩

end Sys2Proof.Machine
end

section
/-! What the wall clock moves, the servos' current angles and last animation ticks, is read by `SRV.ANIM` alone (44_servo.md
R139): every other operation commutes with forgetting it. -/

namespace Sys2Proof.Machine

open Sys2Proof

/-! ### The state without it -/

@[simp] theorem withoutWall_cfg (s : State) : (withoutWall s).cfg = s.cfg := rfl
@[simp] theorem withoutWall_src (s : State) : (withoutWall s).src = s.src := rfl
@[simp] theorem withoutWall_lcdSel (s : State) : (withoutWall s).lcdSel = s.lcdSel := rfl
@[simp] theorem withoutWall_cpuCycles (s : State) : (withoutWall s).cpuCycles = s.cpuCycles := rfl
@[simp] theorem withoutWall_t0 (s : State) : (withoutWall s).t0 = s.t0 := rfl
@[simp] theorem withoutWall_t1 (s : State) : (withoutWall s).t1 = s.t1 := rfl
@[simp] theorem withoutWall_inten (s : State) : (withoutWall s).inten = s.inten := rfl
@[simp] theorem withoutWall_int (s : State) : (withoutWall s).int = s.int := rfl
@[simp] theorem withoutWall_act (s : State) : (withoutWall s).act = s.act.map withoutWallEntry := rfl
@[simp] theorem withoutWall_pinlvl (s : State) : (withoutWall s).pinlvl = s.pinlvl := rfl
@[simp] theorem withoutWall_cpu (s : State) : (withoutWall s).cpu = s.cpu := rfl
@[simp] theorem readReg_withoutWall (s : State) (r : Reg) : readReg (withoutWall s) r = readReg s r := by cases r <;> rfl
@[simp] theorem timer_withoutWall (s : State) (n : TimerId) : timer (withoutWall s) n = timer s n := by cases n <;> rfl
@[simp] theorem residue_withoutWall (s : State) (n : TimerId) : residue (withoutWall s) n = residue s n := by
  cases n <;> rfl

@[simp] theorem withoutWallEntry_fst (e : InstanceId × ActInstance) : (withoutWallEntry e).1 = e.1 := by
  obtain ⟨id, sv | ⟨st, p⟩⟩ := e <;> rfl

@[simp] theorem withoutWallEntry_idem (e : InstanceId × ActInstance) :
    withoutWallEntry (withoutWallEntry e) = withoutWallEntry e := by
  obtain ⟨id, sv | ⟨st, p⟩⟩ := e <;> rfl

/-! ### The actuator table -/

/-- A servo without what the wall clock moves. -/
def wallFree (sv : ServoState) : ServoState := { sv with currentAngleDeg := 0, lastAnimationTickWallclock := 0 }

theorem withoutWallEntry_servo (id : InstanceId) (sv : ServoState) :
    withoutWallEntry (id, .servo sv) = (id, .servo (wallFree sv)) := rfl

theorem withoutWallEntry_lcd (id : InstanceId) (st : LcdState) (p : LcdPins) :
    withoutWallEntry (id, .lcd st p) = (id, .lcd st p) := rfl

theorem actFind_withoutWall (id : InstanceId) (s : State) :
    actFind id (withoutWall s).act = (actFind id s.act).map fun x => (withoutWallEntry (id, x)).2 :=
  actFind_map id withoutWallEntry withoutWallEntry_fst s.act

/-- The servos lose their angles. -/
theorem servoAt_withoutWall (s : State) (id : InstanceId) :
    servoAt (withoutWall s) id = (servoAt s id).map wallFree := by
  unfold servoAt
  rw [actFind_withoutWall]
  obtain _ | sv | ⟨st, p⟩ := actFind id s.act <;> rfl

/-- The LCDs stay. -/
@[simp] theorem lcdAt_withoutWall (s : State) (id : InstanceId) : lcdAt (withoutWall s) id = lcdAt s id := by
  unfold lcdAt
  rw [actFind_withoutWall]
  obtain _ | sv | ⟨st, p⟩ := actFind id s.act <;> rfl

section
variable (f : InstanceId × ActInstance → InstanceId × ActInstance) (hf : ∀ e, (f e).1 = e.1)
include hf

/-- A pass that keeps every id and a replacement can be done in either order. -/
theorem map_actSet (id : InstanceId) (x : ActInstance) (t : List (InstanceId × ActInstance)) :
    (actSet id x t).map f = actSet id (f (id, x)).2 (t.map f) := by
  induction t with
  | nil => rfl
  | cons e t ih =>
    obtain ⟨k, y⟩ := e
    have hky : f (k, y) = (k, (f (k, y)).2) := Prod.ext (hf _) rfl
    rw [List.map_cons, hky]
    unfold actSet
    split_ifs with hk
    · rw [List.map_cons, hk, show f (id, x) = (id, (f (id, x)).2) from Prod.ext (hf _) rfl]
    · rw [List.map_cons, ih, ← hky]

/-- The same of an addition. -/
theorem map_actPut (id : InstanceId) (x : ActInstance) (t : List (InstanceId × ActInstance)) :
    (actPut id x t).map f = actPut id (f (id, x)).2 (t.map f) := by
  have hidx : f (id, x) = (id, (f (id, x)).2) := Prod.ext (hf _) rfl
  induction t with
  | nil => exact congrArg (· :: []) hidx
  | cons e t ih =>
    obtain ⟨k, y⟩ := e
    have hky : f (k, y) = (k, (f (k, y)).2) := Prod.ext (hf _) rfl
    rw [List.map_cons, hky]
    unfold actPut
    split_ifs with hk
    · rw [List.map_cons, List.map_cons, ← hky, ← hidx]
    · rw [List.map_cons, ih, ← hky]

/-- The same of a removal. -/
theorem map_actDrop (id : InstanceId) (t : List (InstanceId × ActInstance)) :
    (actDrop id t).map f = actDrop id (t.map f) := by
  unfold actDrop
  rw [List.filter_map]
  congr 2
  funext e
  simp only [Function.comp_apply, hf]

end

/-! ### Pulses: a servo takes them whatever its angle -/

theorem servoPulse_wallFree (rnd : Rounding) (l : Level) (ts : Micros) (sv : ServoState) :
    servoPulse rnd l ts (wallFree sv) = wallFree (servoPulse rnd l ts sv) := by
  cases l with
  | high => rfl
  | low =>
    cases h : sv.pulseStartTimeUs with
    | none => rw [servoPulse_low_of_none h, servoPulse_low_of_none (sv := wallFree sv) h]
    | some start =>
      rw [servoPulse_low_of_some h, servoPulse_low_of_some (sv := wallFree sv) h]
      split_ifs <;> rfl

theorem deliverTo_withoutWallEntry (rnd : Rounding) (g : List (Pin × InstanceId)) (pin : Pin) (l : Level) (ts : Micros)
    (e : InstanceId × ActInstance) :
    deliverTo rnd g pin l ts (withoutWallEntry e) = withoutWallEntry (deliverTo rnd g pin l ts e) := by
  obtain ⟨id, sv | ⟨st, p⟩⟩ := e
  · rw [withoutWallEntry_servo, deliverTo_servo, deliverTo_servo, withoutWallEntry_servo, servoPulse_wallFree]
    split_ifs <;> rfl
  · rfl

theorem pulseEvent_withoutWall (s : State) (pin : Pin) (l : Level) (ts : Micros) :
    pulseEvent (withoutWall s) pin l ts = withoutWall (pulseEvent s pin l ts) := by
  simp only [pulseEvent, withoutWall, List.map_map, Function.comp_def, deliverTo_withoutWallEntry]

theorem routePulse_withoutWall (s : State) (pin : Pin) (pw now : Nat) :
    routePulseAt (withoutWall s) pin pw now = withoutWall (routePulseAt s pin pw now) := by
  simp only [routePulseAt, pulseEvent_withoutWall]

/-! ### The timers -/

theorem setTimer_withoutWall (s : State) (n : TimerId) (t : TimerState) :
    setTimer (withoutWall s) n t = withoutWall (setTimer s n t) := by cases n <;> rfl

theorem setResidue_withoutWall (s : State) (n : TimerId) (v : BitVec 16) :
    setResidue (withoutWall s) n v = withoutWall (setResidue s n v) := by cases n <;> rfl

theorem emit_withoutWall (s : State) (e : Event) : emit (withoutWall s) e = withoutWall (emit s e) := rfl

theorem request_withoutWall (s : State) (v : BitVec 16) (en : Bool) :
    requestInterrupt (withoutWall s) v en = withoutWall (requestInterrupt s v en) := by cases en <;> rfl

theorem channelPulse_withoutWall (s : State) (pin : Pin) (cmp : BitVec 16) (ts : Nat) :
    channelPulse (withoutWall s) pin cmp ts = withoutWall (channelPulse s pin cmp ts) := by
  unfold channelPulse
  rw [withoutWall_t1, routePulse_withoutWall]
  split_ifs <;> rfl

theorem pwm1_withoutWall (s : State) (ts : Nat) : pwm1 (withoutWall s) ts = withoutWall (pwm1 s ts) := by
  simp only [pwm1_eq, withoutWall_t1, withoutWall_cfg, channelPulse_withoutWall]
  split_ifs <;> rfl

theorem wrap_withoutWall (n : TimerId) (s : State) (ts : Nat) :
    wrap n (withoutWall s) ts = withoutWall (wrap n s ts) := by
  cases n with
  | t0 =>
    simp only [wrap_t0, withoutWall_t0, withoutWall_cfg, withoutWall_inten, setTimer_withoutWall, emit_withoutWall,
      request_withoutWall]
  | t1 =>
    simp only [wrap_t1, withoutWall_t1, withoutWall_cfg, withoutWall_inten, setTimer_withoutWall, emit_withoutWall,
      request_withoutWall, pwm1_withoutWall]

theorem compareCheck_withoutWall (n : TimerId) (s : State) (ts : Nat) :
    compareCheck n (withoutWall s) ts = withoutWall (compareCheck n s ts) := by
  rw [compareCheck_eq, compareCheck_eq, timer_withoutWall]
  rfl

theorem count_withoutWall (n : TimerId) (s : State) (ts : Nat) :
    count n (withoutWall s) ts = (withoutWall (count n s ts).1, (count n s ts).2) := by
  unfold count
  simp only [timer_withoutWall, setTimer_withoutWall, wrap_withoutWall, compareCheck_withoutWall]
  split_ifs <;> rfl

theorem tickCycle_withoutWall (n : TimerId) (s : State) (rest : Nat) :
    tickCycle n (withoutWall s) rest = (withoutWall (tickCycle n s rest).1, (tickCycle n s rest).2) := by
  unfold tickCycle
  simp only [timer_withoutWall, residue_withoutWall, setResidue_withoutWall, withoutWall_cpuCycles, count_withoutWall]
  split_ifs <;> rfl

theorem tickCycles_withoutWall (n : TimerId) (c : Nat) (s : State) (ovf : Nat) :
    tickCycles n c (withoutWall s) ovf = (withoutWall (tickCycles n c s ovf).1, (tickCycles n c s ovf).2) := by
  induction c generalizing s ovf with
  | zero => rfl
  | succ c ih => simp only [tickCycles, tickCycle_withoutWall, ih]

theorem tickResult_withoutWall (n : TimerId) (s : State) (c : BitVec 32) :
    tickResult n (withoutWall s) c = withoutWall (tickResult n s c) := by
  unfold tickResult tick
  rw [timer_withoutWall, tickCycles_withoutWall]
  split_ifs <;> rfl

theorem writeReg_withoutWall (s : State) (r : Reg) (v : BitVec 16) :
    writeReg (withoutWall s) r v = withoutWall (writeReg s r v) := by cases r <;> rfl

/-! ### The pins -/

/-- Only LCDs are latched. -/
theorem latchAll_withoutWall (lvl : Vector Bool 256) (pin : Pin) (t : List (InstanceId × ActInstance)) :
    latchAll lvl pin (t.map withoutWallEntry) = (latchAll lvl pin t).map (List.map withoutWallEntry) := by
  induction t with
  | nil => rfl
  | cons e t ih =>
    obtain ⟨id, sv | ⟨st, p⟩⟩ := e
    · simp only [List.map_cons, withoutWallEntry_servo, latchAll, ih, Option.map_map, Function.comp_def]
    · simp only [List.map_cons, withoutWallEntry_lcd, latchAll, ih]
      split_ifs
      · cases latch lvl st p <;> simp only [Option.map_map, Function.comp_def, List.map_cons, withoutWallEntry_lcd,
          Option.map_none]
      · simp only [Option.map_map, Function.comp_def, List.map_cons, withoutWallEntry_lcd]

theorem pinChange_withoutWall (s : State) (pin : Pin) (level : Bool) :
    pinChange (withoutWall s) pin level = seenThrough withoutWall (pinChange s pin level) := by
  unfold pinChange
  simp only [withoutWall_pinlvl, withoutWall_act, latchAll_withoutWall]
  split_ifs
  · rfl
  · rfl
  · cases latchAll (setLevel s.pinlvl pin level) pin s.act <;> rfl

theorem portChanges_withoutWall (port : Nat) (old v : Byte) (bits : List Nat) (s : State) :
    portChanges port old v bits (withoutWall s) = seenThrough withoutWall (portChanges port old v bits s) := by
  induction bits generalizing s with
  | nil => rfl
  | cons bit bits ih =>
    simp only [portChanges, withoutWall_cfg, pinChange_withoutWall, ih]
    split_ifs
    · rfl
    · cases portPinOf s.cfg port bit with
      | none => rfl
      | some p => cases h : pinChange s p (v.getLsbD bit) <;> simp only [h, seenThrough, andThen, ih]

/-! ### The operations -/

theorem stepOnly_withoutWall {s : State} {x y : Result} (h : x = seenThrough withoutWall y) :
    stepOnly (withoutWall s) x = seenThrough withoutWall (stepOnly s y) := by
  unfold stepOnly
  rw [withoutWall_src, h]
  split_ifs <;> rfl

theorem hostOnly_withoutWall {s : State} {x y : Result} (h : x = seenThrough withoutWall y) :
    hostOnly (withoutWall s) x = seenThrough withoutWall (hostOnly s y) := by
  unfold hostOnly
  rw [withoutWall_src, h]
  split_ifs <;> rfl

theorem onSelectedLcd_withoutWall (s : State) (f : LcdState → Option LcdState) :
    onSelectedLcd (withoutWall s) f = seenThrough withoutWall (onSelectedLcd s f) := by
  unfold onSelectedLcd
  rw [withoutWall_lcdSel, lcdAt_withoutWall]
  cases lcdAt s s.lcdSel with
  | none => rfl
  | some x =>
    cases hf : f x.1 with
    | none => simp only [hf, seenThrough]
    | some st' => simp only [hf, seenThrough, withoutWall, map_actSet _ withoutWallEntry_fst, withoutWallEntry_lcd]

/-- Every operation but the animator's, and the creation of a servo with its first angle, commutes with forgetting what the
wall clock moves. -/
theorem exec_withoutWall {i : Instr} (hanim : ∀ p, i ≠ .srvAnim p) (hservo : ∀ pin id, i ≠ .actAttach pin .servo id)
    (s : State) : exec i (withoutWall s) = seenThrough withoutWall (exec i s) := by
  cases i with
  | srvAnim p => exact absurd rfl (hanim p)
  | clkTick c =>
    refine stepOnly_withoutWall ?_
    rw [withoutWall_cpuCycles]
    split_ifs <;> rfl
  | clkReset => rfl
  | clkMicros => rfl
  | clkMillis => rfl
  | clkSeconds => rfl
  | t0Tick c => exact stepOnly_withoutWall (congrArg Host.Outcome.next (tickResult_withoutWall .t0 s c))
  | t1Tick c => exact stepOnly_withoutWall (congrArg Host.Outcome.next (tickResult_withoutWall .t1 s c))
  | regWr r v => exact stepOnly_withoutWall (congrArg Host.Outcome.next (writeReg_withoutWall s r v))
  | regRd r => exact stepOnly_withoutWall (by rw [readReg_withoutWall]; rfl)
  | intReq v en => exact stepOnly_withoutWall (congrArg Host.Outcome.next (request_withoutWall s v en))
  | intPoll =>
    refine stepOnly_withoutWall ?_
    rw [withoutWall_int, withoutWall_cpu]
    cases selectPending s.int.pending with
    | none => rfl
    | some e => cases s.cpu.i <;> rfl
  | intReti =>
    refine stepOnly_withoutWall ?_
    unfold returnFromInterrupt
    rw [withoutWall_cpu]
    cases s.cpu.rstack <;> rfl
  | pwmReg pin id => rfl
  | pwmUnreg pin id => rfl
  | pwmRoute pin pw period => exact stepOnly_withoutWall (congrArg Host.Outcome.next (routePulse_withoutWall s pin _ _))
  | pwmRise pin ts => exact stepOnly_withoutWall (congrArg Host.Outcome.next (pulseEvent_withoutWall s pin .high ts))
  | pwmFall pin ts => exact stepOnly_withoutWall (congrArg Host.Outcome.next (pulseEvent_withoutWall s pin .low ts))
  | srvStall id flag =>
    refine hostOnly_withoutWall ?_
    rw [servoAt_withoutWall]
    cases servoAt s id with
    | none => rfl
    | some sv =>
      simp only [Option.map_some, seenThrough, withoutWall, map_actSet _ withoutWallEntry_fst, withoutWallEntry_servo,
        wallFree]
  | pinChg pin level => exact stepOnly_withoutWall (pinChange_withoutWall s pin level)
  | gpioWr port v =>
    refine stepOnly_withoutWall ?_
    rw [withoutWall_cfg]
    split_ifs
    · exact portChanges_withoutWall _ _ v _ (portWrite s port.toNat v)
    · rfl
  | lcdPinmap role id pin =>
    refine hostOnly_withoutWall ?_
    rw [lcdAt_withoutWall]
    cases lcdAt s id with
    | none => rfl
    | some x => simp only [seenThrough, withoutWall, map_actSet _ withoutWallEntry_fst, withoutWallEntry_lcd]
  | actAttach pin kind id =>
    refine hostOnly_withoutWall ?_
    rw [actFind_withoutWall]
    cases hid : actFind id s.act with
    | some x => rfl
    | none =>
      cases kind with
      | servo => exact absurd rfl (hservo pin id)
      | lcd =>
        simp only [Option.map_none, seenThrough, attachLcd, withoutWall, map_actPut _ withoutWallEntry_fst,
          withoutWallEntry_lcd]
      | reserved k => rfl
  | actDetach id =>
    exact hostOnly_withoutWall (by simp only [seenThrough, withoutWall, map_actDrop _ withoutWallEntry_fst])
  | lcdGetbuf id =>
    refine hostOnly_withoutWall ?_
    rw [lcdAt_withoutWall]
    cases lcdAt s id <;> rfl
  | sysReset => exact hostOnly_withoutWall rfl
  | lcdNop => simp only [exec_lcdNop, onSelectedLcd_withoutWall]
  | lcdClear => simp only [exec_lcdClear, onSelectedLcd_withoutWall]
  | lcdHome => simp only [exec_lcdHome, onSelectedLcd_withoutWall]
  | lcdEntry d sh => simp only [exec_lcdEntry, onSelectedLcd_withoutWall]
  | lcdDispctl d c b => simp only [exec_lcdDispctl, onSelectedLcd_withoutWall]
  | lcdShift sc rl => simp only [exec_lcdShift, onSelectedLcd_withoutWall]
  | lcdFuncset l n f => simp only [exec_lcdFuncset, onSelectedLcd_withoutWall]
  | lcdSetcgram a => simp only [exec_lcdSetcgram, onSelectedLcd_withoutWall]
  | lcdSetddram a => simp only [exec_lcdSetddram, onSelectedLcd_withoutWall]
  | lcdData b => simp only [exec_lcdData, onSelectedLcd_withoutWall]

theorem withoutWall_idem (s : State) : withoutWall (withoutWall s) = withoutWall s := by
  simp only [withoutWall, List.map_map, Function.comp_def, withoutWallEntry_idem]

theorem seenThrough_withoutWall_idem (r : Result) :
    seenThrough withoutWall (seenThrough withoutWall r) = seenThrough withoutWall r := by
  cases r with
  | next s => exact congrArg Host.Outcome.next (withoutWall_idem s)
  | fault e => rfl
  | refused e => rfl

/-- A new servo has the same first angle whatever the others' are. -/
theorem attachServo_withoutWall (s : State) (pin : Pin) (id : InstanceId) :
    withoutWall (attachServo (withoutWall s) pin id) = withoutWall (attachServo s pin id) := by
  simp only [withoutWall, attachServo, map_actPut _ withoutWallEntry_fst, List.map_map, Function.comp_def,
    withoutWallEntry_idem]

/-- The outcome of an operation but the animator's, without what the wall clock moves, is found from the state without it. -/
theorem seenThrough_exec_withoutWall {i : Instr} (hanim : ∀ p, i ≠ .srvAnim p) (s : State) :
    seenThrough withoutWall (exec i (withoutWall s)) = seenThrough withoutWall (exec i s) := by
  by_cases hservo : ∃ pin id, i = .actAttach pin .servo id
  · obtain ⟨pin, id, rfl⟩ := hservo
    simp only [exec, execActAttach, hostOnly, withoutWall_src, actFind_withoutWall]
    split_ifs
    · cases actFind id s.act with
      | none => exact congrArg Host.Outcome.next (attachServo_withoutWall s pin id)
      | some x => exact congrArg Host.Outcome.next (withoutWall_idem s)
    · exact congrArg Host.Outcome.next (withoutWall_idem s)
  · push Not at hservo
    rw [exec_withoutWall hanim hservo, seenThrough_withoutWall_idem]

/-- Settles O34: both outcomes are found from the one state the two have in common. -/
theorem wallClockNeverReachesTheSimulation : Obligations.WallClockNeverReachesTheSimulation := by
  intro i s t hanim hst
  calc seenThrough withoutWall (exec i s)
      = seenThrough withoutWall (exec i (withoutWall s)) := (seenThrough_exec_withoutWall hanim s).symm
    _ = seenThrough withoutWall (exec i (withoutWall t)) := by rw [hst]
    _ = seenThrough withoutWall (exec i t) := seenThrough_exec_withoutWall hanim t

end Sys2Proof.Machine
end

section
/-! The servo: the decode function (44_servo.md R131), `SRV.ANIM` (R134 to R136, R138) and `SRV.STALL` (R137). -/

namespace Sys2Proof.Machine

open Sys2Proof

/-! ### The operations -/

theorem exec_srvAnim {p : BitVec 64} {dt : Rat} {s : State} (hsrc : s.src = .host) (hp : binary64Value p = some dt)
    (hdt : 0 ≤ dt) : exec (.srvAnim p) s = .next (animate s dt) := by
  refine (hostOnly_of s _ hsrc).trans ?_
  simp only [hp, if_neg (not_lt.mpr hdt)]

theorem exec_srvAnim_notNumber {p : BitVec 64} {s : State} (hsrc : s.src = .host) (hp : binary64Value p = none) :
    exec (.srvAnim p) s = .next s := by
  refine (hostOnly_of s _ hsrc).trans ?_
  simp only [hp]

theorem exec_srvAnim_negative {p : BitVec 64} {dt : Rat} {s : State} (hsrc : s.src = .host)
    (hp : binary64Value p = some dt) (hdt : dt < 0) : exec (.srvAnim p) s = .next s := by
  refine (hostOnly_of s _ hsrc).trans ?_
  simp only [hp, if_pos hdt]

theorem exec_srvStall {id : InstanceId} {s : State} {sv : ServoState} (hsrc : s.src = .host) (h : servoAt s id = some sv)
    (flag : Bool) :
    exec (.srvStall id flag) s = .next { s with act := actSet id (.servo { sv with isStalled := flag }) s.act } := by
  refine (hostOnly_of s _ hsrc).trans ?_
  simp only [h]

theorem exec_srvStall_none {id : InstanceId} {s : State} (hsrc : s.src = .host) (h : servoAt s id = none) (flag : Bool) :
    exec (.srvStall id flag) s = .next s := by
  refine (hostOnly_of s _ hsrc).trans ?_
  simp only [h]

theorem servoAt_animate (s : State) (dt : Rat) (id : InstanceId) :
    servoAt (animate s dt) id = (servoAt s id).map fun sv => (animStep s.cfg dt sv).1 := by
  unfold servoAt
  rw [actFind_animate]
  obtain _ | sv | ⟨st, p⟩ := actFind id s.act <;> rfl

/-! ### The displacement of one step -/

/-- A displacement by `m` towards the side of `d`, as an addition or a subtraction. -/
theorem add_signQ_mul (x d m : Rat) : x + signQ d * m = if d < 0 then x - m else if d = 0 then x else x + m := by
  unfold signQ
  split_ifs <;> ring

/-- It is no longer than `m`. -/
theorem abs_signQ_mul_le {d m : Rat} (hm : 0 ≤ m) : |signQ d * m| ≤ m := by
  have hsign : |signQ d| ≤ 1 := by
    unfold signQ
    split_ifs <;> norm_num
  rw [abs_mul, abs_of_nonneg hm]
  exact mul_le_of_le_one_left hm hsign

/-- A displacement of at most `|d|` stays between 0 and `d`: what it covers and what is left of `d` add up. -/
theorem abs_sub_signQ_mul_add {d m : Rat} (hm : 0 ≤ m) (hmd : m ≤ |d|) :
    |d - signQ d * m| + |signQ d * m| = |d| := by
  have hleft : d - signQ d * m = signQ d * (|d| - m) := by rw [mul_sub, signQ_mul_absQ]
  calc |d - signQ d * m| + |signQ d * m|
      = |signQ d| * (|d| - m) + |signQ d| * m := by
        rw [hleft, abs_mul, abs_mul, abs_of_nonneg hm, abs_of_nonneg (sub_nonneg.mpr hmd)]
    _ = abs (signQ d * |d|) := by rw [abs_mul, abs_abs]; ring
    _ = |d| := by rw [signQ_mul_absQ]

/-- It vanishes only where `m` or `d` does. -/
theorem signQ_mul_ne_zero {d m : Rat} (hd : d ≠ 0) (hm : m ≠ 0) : signQ d * m ≠ 0 := by
  have hsign : signQ d ≠ 0 := fun h => hd (by rw [← signQ_mul_absQ d, h, zero_mul])
  exact mul_ne_zero hsign hm

/-! ### One step of one servo -/

section
variable {cfg : Config} {dt : Rat} {sv : ServoState}

/-- A step writes a servo's current angle and its animation tick only. -/
theorem animStep_fst :
    (animStep cfg dt sv).1 = { sv with
      currentAngleDeg := (animStep cfg dt sv).1.currentAngleDeg
      lastAnimationTickWallclock := round64 cfg.rnd64 (sv.lastAnimationTickWallclock + dt) } := by
  by_cases h : Rests dt sv
  · rw [animStep_of_rests cfg dt sv h]
  · rw [animStep_of_not_rests cfg dt sv h]

theorem currentAngleDeg_animStep_of_rests (h : Rests dt sv) :
    (animStep cfg dt sv).1.currentAngleDeg = sv.currentAngleDeg := by
  rw [animStep_of_rests cfg dt sv h]

theorem currentAngleDeg_animStep_of_not_rests (h : ¬ Rests dt sv) :
    (animStep cfg dt sv).1.currentAngleDeg = round32 cfg.rnd32
      (sv.currentAngleDeg + signQ (sv.targetAngleDeg - sv.currentAngleDeg) * moveOf dt sv) := by
  rw [animStep_of_not_rests cfg dt sv h]

theorem moveOf_nonneg (hdt : 0 ≤ dt) (hspeed : 0 ≤ sv.angularSpeedDegPerS) : 0 ≤ moveOf dt sv :=
  le_min (abs_nonneg _) (mul_nonneg hspeed hdt)

/-- A servo that does not rest is not at its target. -/
theorem target_ne_of_not_rests (hdt : 0 ≤ dt) (hspeed : 0 ≤ sv.angularSpeedDegPerS) (h : ¬ Rests dt sv) :
    sv.targetAngleDeg - sv.currentAngleDeg ≠ 0 := fun hd =>
  h (.inr (.inr (by rw [moveOf, hd, abs_zero, min_eq_left (mul_nonneg hspeed hdt)])))

/-- With exact arithmetic a step is a displacement towards the target, by no more than the way to it and the way the speed
allows. -/
theorem exists_displacement (hrnd : cfg.rnd32 = .identity) (hdt : 0 ≤ dt) (hspeed : 0 ≤ sv.angularSpeedDegPerS) :
    ∃ m, 0 ≤ m ∧ m ≤ |sv.targetAngleDeg - sv.currentAngleDeg| ∧ m ≤ sv.angularSpeedDegPerS * dt
      ∧ (animStep cfg dt sv).1.currentAngleDeg
          = sv.currentAngleDeg + signQ (sv.targetAngleDeg - sv.currentAngleDeg) * m := by
  by_cases h : Rests dt sv
  · exact ⟨0, le_rfl, abs_nonneg _, mul_nonneg hspeed hdt, by rw [currentAngleDeg_animStep_of_rests h]; ring⟩
  · exact ⟨moveOf dt sv, moveOf_nonneg hdt hspeed, min_le_left .., min_le_right ..,
      by rw [currentAngleDeg_animStep_of_not_rests h, hrnd, round32_identity]⟩

/-- With exact arithmetic a step notifies an angle exactly when it is a new one. -/
theorem animStep_snd_eq_some_iff (hrnd : cfg.rnd32 = .identity) (hdt : 0 ≤ dt) (hspeed : 0 ≤ sv.angularSpeedDegPerS)
    (a : Rat) :
    (animStep cfg dt sv).2 = some a ↔
      (animStep cfg dt sv).1.currentAngleDeg = a ∧ (animStep cfg dt sv).1.currentAngleDeg ≠ sv.currentAngleDeg := by
  by_cases h : Rests dt sv
  · simp [animStep_of_rests cfg dt sv h]
  · have hmove : moveOf dt sv ≠ 0 := fun hm => h (.inr (.inr hm))
    have hnew := signQ_mul_ne_zero (target_ne_of_not_rests hdt hspeed h) hmove
    simp [animStep_of_not_rests cfg dt sv h, hrnd, hnew]

end

/-! ### The notifications of one pass -/

/-- The id and the new angle of an entry that notifies. -/
def movedTo (cfg : Config) (dt : Rat) (e : InstanceId × ActInstance) : Option (InstanceId × Rat) :=
  match e with
  | (id, .servo sv) => (animStep cfg dt sv).2.map (Prod.mk id)
  | (_, .lcd _ _) => none

/-- The event of an entry is its id and new angle. -/
theorem animEvent_eq (cfg : Config) (dt : Rat) (e : InstanceId × ActInstance) :
    animEvent cfg dt e = (movedTo cfg dt e).map fun x => .angle x.1 x.2 := by
  obtain ⟨id, sv | ⟨st, p⟩⟩ := e
  · simp only [animEvent, movedTo, Option.map_map, Function.comp_def]
  · rfl

theorem movedTo_eq_some_iff (cfg : Config) (dt : Rat) (e : InstanceId × ActInstance) (id : InstanceId) (a : Rat) :
    movedTo cfg dt e = some (id, a) ↔ ∃ sv, e = (id, .servo sv) ∧ (animStep cfg dt sv).2 = some a := by
  obtain ⟨k, sv | ⟨st, p⟩⟩ := e
  · simp only [movedTo, Option.map_eq_some_iff, Prod.mk.injEq, ActInstance.servo.injEq]
    constructor
    · rintro ⟨_, hstep, rfl, rfl⟩
      exact ⟨sv, ⟨rfl, rfl⟩, hstep⟩
    · rintro ⟨_, ⟨rfl, rfl⟩, hstep⟩
      exact ⟨a, hstep, rfl, rfl⟩
  · simp [movedTo]

/-- One pass over a table with rising ids notifies in that order. -/
theorem movedTo_rising (cfg : Config) (dt : Rat) (t : List (InstanceId × ActInstance))
    (ht : t.Pairwise fun x y => x.1.toNat < y.1.toNat) :
    (t.filterMap (movedTo cfg dt)).Pairwise fun x y => x.1.toNat < y.1.toNat := by
  refine List.Pairwise.filterMap _ (fun e e' hlt x hx y hy => ?_) ht
  obtain ⟨_, rfl, -⟩ := (movedTo_eq_some_iff cfg dt e x.1 x.2).mp hx
  obtain ⟨_, rfl, -⟩ := (movedTo_eq_some_iff cfg dt e' y.1 y.2).mp hy
  exact hlt

theorem mem_filterMap_movedTo (cfg : Config) (dt : Rat) (t : List (InstanceId × ActInstance)) (id : InstanceId) (a : Rat) :
    (id, a) ∈ t.filterMap (movedTo cfg dt) ↔
      ∃ sv, (id, ActInstance.servo sv) ∈ t ∧ (animStep cfg dt sv).2 = some a := by
  simp only [List.mem_filterMap, movedTo_eq_some_iff]
  constructor
  · rintro ⟨_, hmem, sv, rfl, hstep⟩
    exact ⟨sv, hmem, hstep⟩
  · rintro ⟨sv, hmem, hstep⟩
    exact ⟨_, hmem, sv, rfl, hstep⟩

/-- In a table with rising ids the servos are those found. -/
theorem servo_mem_iff {s : State} (hs : s.act.Pairwise fun x y => x.1.toNat < y.1.toNat) (id : InstanceId)
    (sv : ServoState) : (id, ActInstance.servo sv) ∈ s.act ↔ servoAt s id = some sv := by
  rw [servoAt_eq_some]
  exact ⟨actFind_of_mem id _ s.act hs, actFind_mem id _ s.act⟩

/-! ### The statements -/

/-- Settles O31: the pass over the table, with the displacement of one step as an addition or a subtraction. -/
theorem animationStepResult : Obligations.AnimationStepResult := by
  intro p s hsrc
  constructor
  case left =>
    intro dt hp hdt angle
    have hangle : ∀ sv, (animStep s.cfg dt sv).1.currentAngleDeg = angle sv := fun sv => by
      by_cases h : Rests dt sv
      · exact (currentAngleDeg_animStep_of_rests h).trans (if_pos h).symm
      · rw [currentAngleDeg_animStep_of_not_rests h, add_signQ_mul]
        exact (if_neg h).symm
    refine ⟨_, exec_srvAnim hsrc hp hdt, rfl, fun id => ?_⟩
    simp only [← hangle, ← animStep_fst]
    exact actFind_animate s dt id
  case right =>
    rintro (hp | ⟨dt, hp, hdt⟩)
    · exact exec_srvAnim_notNumber hsrc hp
    · exact exec_srvAnim_negative hsrc hp hdt

/-- Settles O32: a step is a displacement towards the target. -/
theorem servoRateIsBounded : Obligations.ServoRateIsBounded := by
  intro p dt s t id sv hsrc hp hdt hrnd ht hsv hspeed
  rw [exec_srvAnim hsrc hp hdt] at ht
  cases ht
  obtain ⟨m, hm, hmd, hrate, hangle⟩ := exists_displacement (sv := sv) hrnd hdt hspeed
  refine ⟨(animStep s.cfg dt sv).1, by rw [servoAt_animate, hsv]; rfl, ?_, ?_, fun hstall => ?_⟩
  · rw [hangle, add_sub_cancel_left]
    exact (abs_signQ_mul_le hm).trans hrate
  · rw [hangle, add_sub_cancel_left, ← sub_sub]
    exact abs_sub_signQ_mul_add hm hmd
  · exact currentAngleDeg_animStep_of_rests (.inl hstall)

/-- Settles O33: the notifications are those of one pass over the table, whose ids rise under the invariant. -/
theorem oneNotificationPerMovedServo : Obligations.OneNotificationPerMovedServo := by
  intro p dt s hinv hsrc hp hdt hrnd hspeed
  have hsv : ∀ id sv, servoAt s id = some sv → 0 ≤ sv.angularSpeedDegPerS := fun id sv h => by
    have hok : ServoOk s.cfg id sv := hinv.act_ok _ ((servo_mem_iff hinv.act_rising id sv).mpr h)
    rw [hok.speed_eq, hrnd, round32_identity]
    exact hspeed
  refine ⟨animate s dt, s.act.filterMap (movedTo s.cfg dt), exec_srvAnim hsrc hp hdt, ?_,
    movedTo_rising s.cfg dt s.act hinv.act_rising, fun id a => ?_⟩
  · simp only [animate_out, List.map_filterMap, animEvent_eq]
  · calc (id, a) ∈ s.act.filterMap (movedTo s.cfg dt)
        ↔ ∃ sv, servoAt s id = some sv ∧ (animStep s.cfg dt sv).2 = some a := by
          simp only [mem_filterMap_movedTo, servo_mem_iff hinv.act_rising]
      _ ↔ ∃ sv sv', servoAt s id = some sv ∧ servoAt (animate s dt) id = some sv' ∧ sv'.currentAngleDeg = a
            ∧ sv'.currentAngleDeg ≠ sv.currentAngleDeg := by
          refine exists_congr fun sv => ?_
          simp only [servoAt_animate, Option.map_eq_some_iff]
          constructor
          · rintro ⟨h, hstep⟩
            exact ⟨_, h, ⟨sv, h, rfl⟩, (animStep_snd_eq_some_iff hrnd hdt (hsv id sv h) a).mp hstep⟩
          · rintro ⟨_, h, ⟨sv₁, h₁, rfl⟩, hmoved⟩
            obtain rfl : sv₁ = sv := Option.some.inj (h₁.symm.trans h)
            exact ⟨h, (animStep_snd_eq_some_iff hrnd hdt (hsv id sv₁ h) a).mpr hmoved⟩

/-- Settles O30: which of the two clamps acts. -/
theorem pulseWidthDecodesToAngle : Obligations.PulseWidthDecodesToAngle := by
  refine ⟨fun w hw => ?below, fun w hlo hhi => ?between, fun w hw => ?above⟩ <;> rw [pulseWidthToAngle_eq]
  case below =>
    have hw' : (w : Rat) ≤ 1000 := by exact_mod_cast hw
    exact max_eq_left ((min_le_right ..).trans (by linarith))
  case between =>
    have hlo' : (1000 : Rat) ≤ w := by exact_mod_cast hlo
    have hhi' : (w : Rat) ≤ 2000 := by exact_mod_cast hhi
    rw [min_eq_right (by linarith), max_eq_right (by linarith)]
    ring
  case above =>
    have hw' : (2000 : Rat) ≤ w := by exact_mod_cast hw
    rw [min_eq_left (by linarith), max_eq_right (by norm_num)]

/-- Settles O35: by whether the id names a servo. -/
theorem stallSetsTheFlag : Obligations.StallSetsTheFlag := by
  intro id flag s hsrc
  refine ⟨fun sv hsv => ⟨_, exec_srvStall hsrc hsv flag, rfl, fun k => ?_⟩, fun h => exec_srvStall_none hsrc h flag⟩
  have hfind := (servoAt_eq_some s id sv).mp hsv
  exact actFind_actSet id k _ s.act (by rw [hfind]; exact Option.some_ne_none _)

end Sys2Proof.Machine
end

section
/-! The bytes of the LCD bus: how the pins assemble them (45_lcd.md R145, R146) and what each does to its LCD (R147 to
R157). -/

namespace Sys2Proof.Machine

open Sys2Proof

/-! ### Nibbles and bytes from line levels (20_memory.md R46) -/

theorem levelsToNat_lt (bs : List Bool) : levelsToNat bs < 2 ^ bs.length := by
  induction bs with
  | nil => exact Nat.one_pos
  | cons b bs ih =>
    rw [levelsToNat, List.length_cons, pow_succ]
    split_ifs <;> omega

/-- The levels are the bits, most significant first. -/
theorem testBit_levelsToNat (bs : List Bool) (k : Nat) :
    (levelsToNat bs).testBit k = (bs.reverse[k]?).getD false := by
  induction bs with
  | nil => exact Nat.zero_testBit k
  | cons b bs ih =>
    rw [List.reverse_cons]
    rcases lt_trichotomy k bs.length with hk | rfl | hk
    case inl =>
      rw [List.getElem?_append_left (by rwa [List.length_reverse]), ← ih, levelsToNat]
      split_ifs
      · exact Nat.testBit_two_pow_add_gt hk _
      · rw [zero_add]
    case inr.inl =>
      have htop := Nat.testBit_lt_two_pow (levelsToNat_lt bs)
      cases b <;> simp [levelsToNat, htop, Nat.testBit_two_pow_add_eq]
    case inr.inr =>
      rw [List.getElem?_eq_none (by simpa using hk)]
      exact Nat.testBit_lt_two_pow ((levelsToNat_lt (b :: bs)).trans_le (Nat.pow_le_pow_right Nat.two_pos hk))

theorem getLsbD_nibbleOf (d7 d6 d5 d4 : Bool) (k : Nat) :
    (nibbleOf d7 d6 d5 d4).getLsbD k = (decide (k < 4) && ([d4, d5, d6, d7][k]?).getD false) := by
  rw [nibbleOf, BitVec.getLsbD_ofNat, testBit_levelsToNat]
  rfl

/-- `DBk` is bit `k` of the byte. -/
theorem getLsbD_latchedByte (lvl : Vector Bool 256) (p : LcdPins) (k : Fin 8) :
    (latchedByte lvl p).getLsbD k.val = lineLevel lvl p.db[k.val] := by
  rw [latchedByte, byteOfLines, BitVec.getLsbD_ofNat, decide_eq_true k.isLt, Bool.true_and, testBit_levelsToNat]
  fin_cases k <;> rfl

/-- The nibble kept by a first latch stands in bits 7 to 4, the rest is 0. -/
theorem getLsbD_highNibble (nib : BitVec 4) (k : Nat) :
    (highNibble nib).getLsbD k = if k < 4 then false else nib.getLsbD (k - 4) := by
  rw [highNibble, BitVec.getLsbD_append, BitVec.getLsbD_zero]

theorem toNat_joinNibbles_highNibble (hi lo : BitVec 4) :
    (joinNibbles (highNibble hi) lo).toNat = hi.toNat * 16 + lo.toNat := by
  rw [highNibble, joinNibbles, extractLsb'_append_high, BitVec.toNat_append, ← Nat.shiftLeft_add_eq_or_of_lt lo.isLt,
    Nat.shiftLeft_eq]

/-! ### The latch (R145) -/

theorem latch_eight {st : LcdState} (h : st.functionSet.bits = .eight) (lvl : Vector Bool 256) (p : LcdPins) :
    latch lvl st p = applyByte st (lineLevel lvl p.rs) (latchedByte lvl p) := by
  simp only [latch, h]

theorem latch_high {st : LcdState} (h : st.functionSet.bits = .four) (hw : st.awaitingLowNibble = false)
    (lvl : Vector Bool 256) (p : LcdPins) :
    latch lvl st p = some { st with nibbleBuffer := highNibble (latchedNibble lvl p), awaitingLowNibble := true } := by
  simp only [latch, h, hw, Bool.false_eq_true, if_false]

theorem latch_low {st : LcdState} (h : st.functionSet.bits = .four) (hw : st.awaitingLowNibble = true)
    (lvl : Vector Bool 256) (p : LcdPins) :
    latch lvl st p = applyByte { st with awaitingLowNibble := false } (lineLevel lvl p.rs)
      (joinNibbles st.nibbleBuffer (latchedNibble lvl p)) := by
  simp only [latch, h, hw, if_true]

/-- Settles O37: the first latch keeps the nibble, whose bit `k - 4` is `DBk`. -/
theorem singleLatchOnlyKeepsTheNibble : Obligations.SingleLatchOnlyKeepsTheNibble := by
  intro lvl st p hfour hwait
  refine ⟨_, latch_high hfour hwait lvl p, rfl, fun k hk => ?_⟩
  rw [getLsbD_highNibble, latchedNibble, getLsbD_nibbleOf]
  interval_cases k <;> rfl

/-- Settles O38: the second latch joins its nibble to the one the first kept, and runs the byte on the LCD as it was. -/
theorem latchesAssembleBytes : Obligations.LatchesAssembleBytes := by
  refine ⟨fun l1 l2 st p hfour hwait => ?four, fun lvl st p height => ?eight⟩
  case four =>
    refine ⟨_, _, latch_high hfour hwait l1 p, toNat_joinNibbles_highNibble _ _, ?_⟩
    rw [latch_low, ← hwait]
    exacts [hfour, rfl]
  case eight =>
    exact ⟨_, latch_eight height lvl p, getLsbD_latchedByte lvl p⟩

/-! ### The decoded path (R146, 30_encoding.md R67) -/

theorem getLsbD_lcd9Word_rs (rs : Bool) (byte : Byte) : (lcd9Word rs byte).getLsbD 8 = rs :=
  (getLsbD_append_high (BitVec.ofBool rs) byte 0).trans (by cases rs <;> rfl)

theorem getLsbD_lcd9Word (rs : Bool) (byte : Byte) (k : Nat) (hk : k < 8) :
    (lcd9Word rs byte).getLsbD k = byte.getLsbD k := by
  rw [lcd9Word, BitVec.getLsbD_append, if_pos hk]

/-- A byte of the bus is run by the instruction its word decodes to: the two have the same rows. -/
theorem exec_decodeLcd9_lcd9Word (rs : Bool) (byte : Byte) (s : State) :
    exec (decodeLcd9 (lcd9Word rs byte)) s = onSelectedLcd s fun st => applyByte st rs byte := by
  have hdata : (lcd9Word rs byte).extractLsb' 0 8 = byte := extractLsb'_append_right _ byte
  have haddr : (lcd9Word rs byte).extractLsb' 0 7 = byte.extractLsb' 0 7 :=
    extractLsb'_append_low 0 7 _ byte (by decide)
  simp only [decodeLcd9, applyByte, getLsbD_lcd9Word_rs, hdata, haddr, getLsbD_lcd9Word, Nat.reduceLT]
  split_ifs <;> rfl

theorem applyByte_eq_none_iff (st : LcdState) (rs : Bool) (byte : Byte) :
    applyByte st rs byte = none ↔ rs = true ∧ validAddr st.functionSet.lines st.cursorAddr = false := by
  cases rs with
  | true => rw [applyByte_data, writeData_eq_none, eq_self, true_and]
  | false =>
    obtain ⟨st', h⟩ := applyByte_command st byte
    simp [h]

/-- A byte that stops. -/
theorem onSelectedLcd_fault {s : State} {st : LcdState} {p : LcdPins} {f : LcdState → Option LcdState}
    (h : lcdAt s s.lcdSel = some (st, p)) (hf : f st = none) : onSelectedLcd s f = .fault .ddramAddress := by
  simp only [onSelectedLcd, h, hf]

/-- Settles O39: both paths are `applyByte` on the selected LCD. -/
theorem assembledByteRunsTheDecodedInstruction : Obligations.AssembledByteRunsTheDecodedInstruction := by
  intro rs byte s
  rw [exec_decodeLcd9_lcd9Word]
  exact ⟨fun st p h => ⟨fun st' hb => onSelectedLcd_of s st st' p _ h hb, fun hb => onSelectedLcd_fault h hb,
    applyByte_eq_none_iff st rs byte⟩, onSelectedLcd_none s _⟩

/-! ### Addresses (20_memory.md R42) -/

/-- The address of a DDRAM cell: `cellIndex` backwards. -/
def cellAddr (lines : Lines) (k : Nat) : Nat :=
  match lines with
  | .one => k
  | .two => if k < 40 then k else k + 24

theorem cellIndex_eq_some_iff (lines : Lines) (a : BitVec 8) (k : Nat) :
    cellIndex lines a = some k ↔ k < 80 ∧ a.toNat = cellAddr lines k := by
  cases lines with
  | one =>
    simp only [cellIndex, cellAddr, Option.ite_none_right_eq_some, Option.some.injEq]
    omega
  | two =>
    simp only [cellIndex, cellAddr]
    split_ifs <;> simp <;> omega

theorem validAddr_one_iff (a : BitVec 8) : validAddr .one a = true ↔ a.toNat ≤ 0x4F := by
  simp [validAddr, cellIndex]

theorem validAddr_two_iff (a : BitVec 8) :
    validAddr .two a = true ↔ a.toNat ≤ 0x27 ∨ (0x40 ≤ a.toNat ∧ a.toNat ≤ 0x67) := by
  simp only [validAddr, cellIndex]
  split_ifs <;> simp <;> omega

/-! ### The cursor advance (R157) -/

/-- The addresses follow the cells, but after the last cell of each row. -/
theorem cellIndex_nextAddr_increment {lines : Lines} {a : BitVec 8} {k : Nat} (h : cellIndex lines a = some k) :
    cellIndex lines (nextAddr a .increment lines) = some ((k + 1) % 80) := by
  rw [cellIndex_eq_some_iff] at h ⊢
  obtain ⟨hk, ha⟩ := h
  refine ⟨Nat.mod_lt _ (by decide), ?_⟩
  cases lines with
  | one =>
    simp only [nextAddr, cellAddr] at ha ⊢
    split_ifs <;> bv_omega
  | two =>
    simp only [nextAddr, cellAddr] at ha ⊢
    split_ifs at ha ⊢ <;> bv_omega

/-- The same backwards, but before the first cell of each row. -/
theorem cellIndex_nextAddr_decrement {lines : Lines} {a : BitVec 8} {k : Nat} (h : cellIndex lines a = some k) :
    cellIndex lines (nextAddr a .decrement lines) = some ((k + 79) % 80) := by
  rw [cellIndex_eq_some_iff] at h ⊢
  obtain ⟨hk, ha⟩ := h
  refine ⟨Nat.mod_lt _ (by decide), ?_⟩
  cases lines with
  | one =>
    simp only [nextAddr, cellAddr] at ha ⊢
    split_ifs <;> bv_omega
  | two =>
    simp only [nextAddr, cellAddr] at ha ⊢
    split_ifs at ha ⊢ <;> bv_omega

/-- Settles O48: the advance in cell indices. -/
theorem cursorAdvanceWalksTheCells : Obligations.CursorAdvanceWalksTheCells := fun lines a k h =>
  ⟨cellIndex_lt lines a k h, cellIndex_nextAddr_increment h, cellIndex_nextAddr_decrement h⟩

/-! ### The bytes on the selected LCD (R147 to R156) -/

/-- A byte that completes replaces the selected LCD and nothing else. -/
theorem onSelectedLcd_result {s : State} {st st' : LcdState} {p : LcdPins} {f : LcdState → Option LcdState}
    (h : lcdAt s s.lcdSel = some (st, p)) (hf : f st = some st') :
    ∃ t, onSelectedLcd s f = .next t ∧ t = { s with act := t.act }
      ∧ ∀ k, actFind k t.act = if k = s.lcdSel then some (.lcd st' p) else actFind k s.act := by
  refine ⟨_, onSelectedLcd_of s st st' p f h hf, rfl, fun k => actFind_actSet s.lcdSel k _ s.act ?_⟩
  rw [(lcdAt_eq_some s s.lcdSel st p).mp h]
  exact Option.some_ne_none _

/-- So does a command, which completes whatever the LCD holds. -/
theorem onSelectedLcd_command {s : State} {st : LcdState} {p : LcdPins} (f : LcdState → LcdState)
    (h : lcdAt s s.lcdSel = some (st, p)) :
    ∃ t, onSelectedLcd s (fun st => some (f st)) = .next t ∧ t = { s with act := t.act }
      ∧ ∀ k, actFind k t.act = if k = s.lcdSel then some (.lcd (f st) p) else actFind k s.act :=
  onSelectedLcd_result h rfl

/-- Settles O43: each byte is a command, and an empty list of cells reads 0x20 everywhere. -/
theorem clearHomeEntryAndDisplay : Obligations.ClearHomeEntryAndDisplay := by
  intro s st p d c b sh h
  refine ⟨?clear, onSelectedLcd_command returnHome h, onSelectedLcd_command (setEntryMode · d sh) h,
    onSelectedLcd_command (setDisplayControl · d c b) h⟩
  case clear =>
    obtain ⟨t, ht, hframe, hfind⟩ := onSelectedLcd_command clearDisplay h
    exact ⟨t, clearDisplay st, ht, hframe, hfind, cellRead_nil blankCell, rfl⟩

/-- Settles O44: which cursors the new geometry makes invalid. -/
theorem functionSetResult : Obligations.FunctionSetResult := by
  intro s st p l n f h
  obtain ⟨t, ht, hframe, hfind⟩ := onSelectedLcd_command (setFunction · l n f) h
  refine ⟨t, setFunction st l n f, ht, hframe, hfind, rfl, rfl, ?two, ?one, rfl⟩
  case two =>
    rintro rfl
    refine ⟨fun hin => if_pos ((validAddr_two_iff _).mpr hin), fun hout => if_neg fun hv => ?_⟩
    have hin := (validAddr_two_iff _).mp hv
    omega
  case one =>
    rintro rfl
    exact if_congr (validAddr_one_iff _) rfl rfl

/-- Settles O45: `LCD.NOP` puts back what the table holds; the other two set their marks. -/
theorem nopShiftAndSetCgramChangeNothing : Obligations.NopShiftAndSetCgramChangeNothing := by
  intro s st p sc rl a h
  refine ⟨?nop, onSelectedLcd_command shiftCommand h, onSelectedLcd_command setCgramAddr h⟩
  case nop =>
    rw [exec_lcdNop, onSelectedLcd_of s st st p _ h rfl, actSet_self _ _ _ ((lcdAt_eq_some ..).mp h)]

/-- Settles O46: which addresses of 7 bits are valid. -/
theorem setDdramMovesTheCursor : Obligations.SetDdramMovesTheCursor := by
  intro s st p a h
  obtain ⟨t, ht, hframe, hfind⟩ := onSelectedLcd_command (setDdramAddr · a) h
  refine ⟨t, setDdramAddr st a, ht, hframe, hfind, rfl, ?_⟩
  have hwide : (a.setWidth 8).toNat = a.toNat := BitVec.toNat_setWidth_of_le (by decide)
  rw [setDdramAddr, apply_ite BitVec.toNat, hwide]
  cases st.functionSet.lines with
  | one => exact if_congr ((validAddr_one_iff _).trans (by rw [hwide])) rfl rfl
  | two => exact if_congr ((validAddr_two_iff _).trans (by rw [hwide])) rfl rfl

/-- Settles O47: the cell written is the cursor's, and the other cells read as before. -/
theorem dataWritesOneCellAndAdvances : Obligations.DataWritesOneCellAndAdvances := by
  intro b s st p k h hok hk
  obtain ⟨t, ht, hframe, hfind⟩ := onSelectedLcd_result (f := (writeData · b)) h (writeData_eq st b k hk)
  have hread := fun j => cellRead_cellWrite blankCell st.ddram k j b ((Memory.wf_iff ..).mp hok.ddram_wf).1
  refine ⟨t, _, ht, hframe, hfind, ?_, fun j hj => ?_, rfl, rfl⟩
  · exact (hread k).trans (if_pos rfl)
  · exact (hread j).trans (if_neg hj)

end Sys2Proof.Machine
end

section
/-! The pins: `PIN.CHG` (45_lcd.md R141), `GPIO.WR` as its pin changes (R142) and `LCD.PINMAP` (R143). -/

namespace Sys2Proof.Machine

open Sys2Proof

/-! ### `PIN.CHG` -/

theorem exec_pinChg {s : State} (hsrc : s.src = .stepLoop) (pin : Pin) (level : Bool) :
    exec (.pinChg pin level) s = pinChange s pin level :=
  stepOnly_of s _ hsrc

/-- A falling edge that the pass of latches takes. -/
theorem pinChange_fall {s : State} {pin : Pin} {act : List (InstanceId × ActInstance)}
    (h : levelOf s.pinlvl pin = true) (hact : latchAll (setLevel s.pinlvl pin false) pin s.act = some act) :
    pinChange s pin false = .next { s with pinlvl := setLevel s.pinlvl pin false, act := act } := by
  simp [pinChange, h, hact]

/-- Settles O36: the three cases of the model's own `pinChange`; under the invariant the pass of latches of a falling edge
completes. -/
theorem pinChangeLatchesOnFallingEnable : Obligations.PinChangeLatchesOnFallingEnable := by
  intro pin level s hsrc hinv
  simp only [exec_pinChg hsrc]
  refine ⟨pinChange_same s pin level, pinChange_rise s pin, fun hhigh => ?fall⟩
  case fall =>
    obtain ⟨act, hact, -, hlatched, -⟩ := latchAll_completes (setLevel s.pinlvl pin false) pin s.cfg s.act hinv.act_ok
    refine ⟨_, pinChange_fall hhigh hact, rfl, fun id => ?_⟩
    have hid := hlatched id
    cases hfind : actFind id s.act with
    | none => rw [hfind] at hid; exact hid
    | some x =>
      rw [hfind] at hid
      cases x with
      | servo sv => exact hid
      | lcd st p => exact hid

/-! ### `GPIO.WR` -/

theorem exec_gpioWr {s : State} (hsrc : s.src = .stepLoop) {port : BitVec 8} (hp : port.toNat < s.cfg.nports) (v : Byte) :
    exec (.gpioWr port v) s =
      portChanges port.toNat (portRead s port.toNat) v (List.range 8) (portWrite s port.toNat v) :=
  (stepOnly_of s _ hsrc).trans (if_pos hp)

/-- The pin change of one bit of a port write, if the bit changes and drives a pin. -/
def changedPin (cfg : Config) (port : Nat) (old value : Byte) (bit : Nat) : Option Instr :=
  if old.getLsbD bit = value.getLsbD bit then none
  else (portPinOf cfg port bit).map fun p => .pinChg p (value.getLsbD bit)

theorem changedPins_eq (cfg : Config) (port : Nat) (old value : Byte) :
    changedPins cfg port old value = (List.range 8).filterMap (changedPin cfg port old value) := rfl

/-- The bits a port write walks over are `PIN.CHG` operations in the same order. -/
theorem portChanges_eq_execAll (port : Nat) (old v : Byte) (bits : List Nat) {s : State} (hsrc : s.src = .stepLoop) :
    portChanges port old v bits s = execAll (bits.filterMap (changedPin s.cfg port old v)) s := by
  induction bits generalizing s with
  | nil => rfl
  | cons bit bits ih =>
    rw [portChanges, List.filterMap_cons, changedPin]
    split_ifs
    case pos => exact ih hsrc
    case neg =>
      cases portPinOf s.cfg port bit with
      | none => exact ih hsrc
      | some pin =>
        change andThen (pinChange s pin _) _ = andThen (exec (.pinChg pin _) s) _
        rw [exec_pinChg hsrc]
        cases hpin : pinChange s pin (v.getLsbD bit) with
        | next u =>
          have hu := pinChange_next s u _ _ hpin
          have hcfg : u.cfg = s.cfg := by rw [hu]
          rw [andThen_next, andThen_next, ← hcfg]
          exact ih (by rw [hu]; exact hsrc)
        | fault e => rfl
        | refused e => rfl

/-- Settles O40: the walk over the bits, and the guard on the port. -/
theorem portWriteIsItsPinChanges : Obligations.PortWriteIsItsPinChanges := by
  intro port v s hsrc
  refine ⟨fun hp => ?_, fun hp => (stepOnly_of s _ hsrc).trans (if_neg (Nat.not_lt.mpr hp))⟩
  rw [exec_gpioWr hsrc hp, changedPins_eq]
  exact portChanges_eq_execAll _ _ _ _ (s := portWrite s port.toNat v) hsrc

/-- A pass of latches leaves every servo, and so does a pin change. -/
theorem pinChange_completes_servo {s : State} (h : ∀ e ∈ s.act, EntryOk s.cfg e) (pin : Pin) (level : Bool) :
    ∃ t, pinChange s pin level = .next t ∧ (∀ e ∈ t.act, EntryOk t.cfg e)
      ∧ ∀ id sv, servoAt s id = some sv → servoAt t id = some sv := by
  obtain ⟨t, ht, -, -, -, hok, hact⟩ := pinChange_completes s pin level h
  refine ⟨t, ht, hok, fun id sv hsv => ?_⟩
  have hid := hact id
  rw [servoAt_eq_some] at hsv ⊢
  rw [hsv] at hid
  split_ifs at hid
  · exact hid.servo
  · exact hid

/-- Under the invariant the pin changes of a port write complete, and leave every servo. -/
theorem portChanges_completes (port : Nat) (old v : Byte) (bits : List Nat) {s : State} (h : ∀ e ∈ s.act, EntryOk s.cfg e) :
    ∃ t, portChanges port old v bits s = .next t ∧ ∀ id sv, servoAt s id = some sv → servoAt t id = some sv := by
  induction bits generalizing s with
  | nil => exact ⟨s, rfl, fun _ _ => id⟩
  | cons bit bits ih =>
    rw [portChanges]
    split_ifs
    case pos => exact ih h
    case neg =>
      cases portPinOf s.cfg port bit with
      | none => exact ih h
      | some pin =>
        obtain ⟨u, hu, hok, hservo⟩ := pinChange_completes_servo h pin (v.getLsbD bit)
        obtain ⟨t, ht, hservo'⟩ := ih hok
        exact ⟨t, (andThen_eq_next ..).mpr ⟨u, hu, ht⟩, fun id sv hsv => hservo' id sv (hservo id sv hsv)⟩

/-- Settles O41: the ports read as the write left them, since no pin change writes one. -/
theorem portWriteCompletes : Obligations.PortWriteCompletes := by
  intro port v s hsrc hinv hp
  obtain ⟨t, ht, hservo⟩ := portChanges_completes port.toNat (portRead s port.toNat) v (List.range 8)
    (s := portWrite s port.toNat v) hinv.act_ok
  have hframe := portChanges_next _ _ _ _ _ t ht
  have hread : ∀ k, portRead t k = if k = port.toNat then v else portRead s k := fun k => by
    rw [← portRead_portWrite s _ port.toNat k v hinv.port_wf, hframe]
    rfl
  refine ⟨t, (exec_gpioWr hsrc hp v).trans ht, ?_, fun k hk => ?_, ?_, hservo⟩
  · rw [hread, if_pos rfl]
  · rw [hread, if_neg hk]
  · rw [hframe]; rfl

/-! ### `LCD.PINMAP` -/

theorem exec_lcdPinmap {s : State} {id : InstanceId} {st : LcdState} {p : LcdPins} (hsrc : s.src = .host)
    (h : lcdAt s id = some (st, p)) (role : LcdRole) (pin : Pin) :
    exec (.lcdPinmap role id pin) s = .next { s with act := actSet id (.lcd st (bindPin p role pin)) s.act } := by
  refine (hostOnly_of s _ hsrc).trans ?_
  simp only [h]

theorem exec_lcdPinmap_none {s : State} {id : InstanceId} (hsrc : s.src = .host) (h : lcdAt s id = none) (role : LcdRole)
    (pin : Pin) : exec (.lcdPinmap role id pin) s = .next s := by
  refine (hostOnly_of s _ hsrc).trans ?_
  simp only [h]

theorem bindPin_rs (p : LcdPins) (role : LcdRole) (pin : Pin) :
    (bindPin p role pin).rs = if role = .rs then some pin else p.rs := by
  cases role <;> rfl

theorem bindPin_en (p : LcdPins) (role : LcdRole) (pin : Pin) :
    (bindPin p role pin).en = if role = .en then some pin else p.en := by
  cases role <;> rfl

theorem bindPin_db (p : LcdPins) (role : LcdRole) (pin : Pin) (k : Fin 8) :
    (bindPin p role pin).db[k.val] = if role = .db k then some pin else p.db[k.val] := by
  cases role with
  | db line =>
    rw [bindPin, Vector.getElem_set]
    exact if_congr (by rw [LcdRole.db.injEq, Fin.ext_iff]) rfl rfl
  | rs | en | reserved => rfl

/-- Settles O42: the binding line by line; a reserved role puts back what the table holds. -/
theorem pinmapBindsOneLine : Obligations.PinmapBindsOneLine := by
  intro role id pin s hsrc
  refine ⟨fun st p h => ?bound, fun h => exec_lcdPinmap_none hsrc h role pin, fun r => ?reserved⟩
  case bound =>
    have hfind := (lcdAt_eq_some s id st p).mp h
    exact ⟨_, bindPin p role pin, exec_lcdPinmap hsrc h role pin, rfl,
      fun k => actFind_actSet id k _ s.act (by rw [hfind]; exact Option.some_ne_none _),
      bindPin_rs p role pin, bindPin_en p role pin, bindPin_db p role pin⟩
  case reserved =>
    cases h : lcdAt s id with
    | none => exact exec_lcdPinmap_none hsrc h _ pin
    | some x => rw [exec_lcdPinmap hsrc h, bindPin, actSet_self id _ s.act ((lcdAt_eq_some ..).mp h)]

end Sys2Proof.Machine
end

section
/-! The host operations `ACT.ATTACH`, `ACT.DETACH` and `LCD.GETBUF` (46_step_loop_and_host.md R173 to R175). -/

namespace Sys2Proof.Machine

open Sys2Proof

/-! ### `ACT.ATTACH` -/

theorem exec_actAttach_servo {s : State} {id : InstanceId} (hsrc : s.src = .host) (h : actFind id s.act = none)
    (pin : Pin) : exec (.actAttach pin .servo id) s = .next (attachServo s pin id) := by
  refine (hostOnly_of s _ hsrc).trans ?_
  simp only [h]

theorem exec_actAttach_lcd {s : State} {id : InstanceId} (hsrc : s.src = .host) (h : actFind id s.act = none)
    (pin : Pin) : exec (.actAttach pin .lcd id) s = .next (attachLcd s id) := by
  refine (hostOnly_of s _ hsrc).trans ?_
  simp only [h]

/-- An id in use is left to the actuator that has it. -/
theorem exec_actAttach_used {s : State} {id : InstanceId} (hsrc : s.src = .host) (h : actFind id s.act ≠ none)
    (pin : Pin) (kind : ActKind) : exec (.actAttach pin kind id) s = .next s := by
  refine (hostOnly_of s _ hsrc).trans ?_
  obtain ⟨x, hx⟩ := Option.ne_none_iff_exists'.mp h
  simp only [hx]

theorem exec_actAttach_reserved {s : State} (hsrc : s.src = .host) (pin : Pin) (k : BitVec 8) (id : InstanceId) :
    exec (.actAttach pin (.reserved k) id) s = .next s := by
  by_cases h : actFind id s.act = none
  · refine (hostOnly_of s _ hsrc).trans ?_
    simp only [h]
  · exact exec_actAttach_used hsrc h pin _

/-- Settles O50: the table gains the id (`actFind_actPut`), the registry the servo's pair (`mem_regAdd`), and the creation values
are those of `freshServo` and `freshLcd`. -/
theorem attachCreatesTheInstance : Obligations.AttachCreatesTheInstance := by
  intro pin id s hsrc
  refine ⟨fun hfree => ?servo, fun hfree => ?lcd, fun kind hused => exec_actAttach_used hsrc hused pin kind,
    fun k => exec_actAttach_reserved hsrc pin k id⟩
  case servo =>
    exact ⟨attachServo s pin id, freshServo s.cfg pin id, exec_actAttach_servo hsrc hfree pin, rfl,
      fun k => actFind_actPut id k _ s.act hfree, fun e => mem_regAdd (pin, id) e s.registry, rfl⟩
  case lcd =>
    exact ⟨attachLcd s id, freshLcd s.cfg, noPins, exec_actAttach_lcd hsrc hfree pin, rfl,
      fun k => actFind_actPut id k _ s.act hfree, cellRead_nil blankCell, rfl, rfl, rfl,
      fun k => Vector.getElem_replicate k.isLt⟩

/-! ### `ACT.DETACH` -/

theorem exec_actDetach {s : State} (hsrc : s.src = .host) (id : InstanceId) :
    exec (.actDetach id) s = .next { s with registry := regDropId id s.registry, act := actDrop id s.act } :=
  hostOnly_of s _ hsrc

/-- Settles O51: the table loses the id (`actFind_actDrop`), the registry every pair of it (`mem_regDropId`). -/
theorem detachRemovesTheInstance : Obligations.DetachRemovesTheInstance := fun id s hsrc =>
  ⟨_, exec_actDetach hsrc id, rfl, fun k => actFind_actDrop id k s.act, fun e => mem_regDropId id e s.registry⟩

/-! ### `LCD.GETBUF` -/

theorem exec_lcdGetbuf {s : State} {id : InstanceId} {st : LcdState} {p : LcdPins} (hsrc : s.src = .host)
    (h : lcdAt s id = some (st, p)) : exec (.lcdGetbuf id) s = .next { s with resp := .bytes (displayBuffer st) } := by
  refine (hostOnly_of s _ hsrc).trans ?_
  simp only [h]

theorem exec_lcdGetbuf_none {s : State} {id : InstanceId} (hsrc : s.src = .host) (h : lcdAt s id = none) :
    exec (.lcdGetbuf id) s = .next { s with resp := .bytes (List.replicate 32 0x20) } := by
  refine (hostOnly_of s _ hsrc).trans ?_
  simp only [h]
  rfl

theorem displayBuffer_length (st : LcdState) : (displayBuffer st).length = 32 := by
  simp [displayBuffer, dispCols]

theorem displayBuffer_getElem? (st : LcdState) {k : Nat} (hk : k < 32) :
    (displayBuffer st)[k]? = some (cellRead blankCell st.ddram (displayCell (k / 16) (k % 16))) := by
  have hrange : (List.range (2 * dispCols))[k]? = some k := List.getElem?_range hk
  rw [displayBuffer, List.getElem?_map, hrange]
  rfl

theorem displayBuffer_row0 (st : LcdState) {col : Nat} (hcol : col < 16) :
    (displayBuffer st)[col]? = some (cellRead blankCell st.ddram col) := by
  rw [displayBuffer_getElem? st (by omega), Nat.div_eq_of_lt hcol, Nat.mod_eq_of_lt hcol]
  rfl

theorem displayBuffer_row1 (st : LcdState) {col : Nat} (hcol : col < 16) :
    (displayBuffer st)[16 + col]? = some (cellRead blankCell st.ddram (40 + col)) := by
  rw [displayBuffer_getElem? st (by omega), show (16 + col) / 16 = 1 by omega, show (16 + col) % 16 = col by omega]
  rfl

/-- Settles O52: the two rows of `displayBuffer`, and the guard on the id. -/
theorem getbufReturnsTheVisibleCells : Obligations.GetbufReturnsTheVisibleCells := fun _ _ hsrc =>
  ⟨fun st _ h => ⟨displayBuffer st, exec_lcdGetbuf hsrc h, displayBuffer_length st,
      fun _ hcol => ⟨displayBuffer_row0 st hcol, displayBuffer_row1 st hcol⟩⟩,
    exec_lcdGetbuf_none hsrc⟩

end Sys2Proof.Machine
end

section
/-! The end of a `STEP`: what its ticks request, and the poll after them (46_step_loop_and_host.md R170, R171). -/

namespace Sys2Proof.Machine

open Sys2Proof

/-! ### What a tick requests -/

/-- From `s` to `t` the queue has only grown, by entries numbered from the next sequence number of `s` on. -/
def QueuedSince (s t : State) : Prop :=
  s.int.seqNext ≤ t.int.seqNext
    ∧ ∃ reqs, t.int.pending = s.int.pending ++ reqs ∧ ∀ x ∈ reqs, s.int.seqNext ≤ x.priorityOrder

theorem QueuedSince.refl (s : State) : QueuedSince s s := ⟨le_rfl, [], (List.append_nil _).symm, nofun⟩

theorem QueuedSince.of_int_eq {s t u : State} (h : QueuedSince s t) (hint : u.int = t.int) : QueuedSince s u := by
  unfold QueuedSince
  rwa [hint]

/-- A request goes behind the entries there, with the next number. -/
theorem QueuedSince.request {s t : State} (h : QueuedSince s t) (v : BitVec 16) (en : Bool) :
    QueuedSince s (requestInterrupt t v en) := by
  cases en with
  | false => exact h
  | true =>
    obtain ⟨hseq, reqs, hpending, horder⟩ := h
    refine ⟨Nat.le_succ_of_le hseq, reqs ++ [⟨v, t.int.seqNext⟩], ?_, ?_⟩
    · rw [requestInterrupt_pending, hpending, List.append_assoc]
    · exact List.forall_mem_append.mpr ⟨horder, List.forall_mem_singleton.mpr hseq⟩

theorem queuedSince_tickClosed (n : TimerId) (s : State) : TickClosed n (QueuedSince s) where
  residue t v h := h.of_int_eq (setResidue_int t n v)
  timer t x h := h.of_int_eq (setTimer_int t n x)
  emit _ _ h := h
  request _ v en h := h.request v en
  pulse _ _ _ _ h := h

/-- A tick queues requests of its own vector only, numbered from the next sequence number on. -/
theorem tickResult_requests (n : TimerId) (s : State) (c : BitVec 32) :
    ∃ reqs, (tickResult n s c).int.pending = s.int.pending ++ reqs
      ∧ (∀ x ∈ reqs, x.vectorAddress = vectorOf s.cfg n ∧ s.int.seqNext ≤ x.priorityOrder)
      ∧ s.int.seqNext ≤ (tickResult n s c).int.seqNext := by
  obtain ⟨_, reqs, -, -, hpending, -, hvector, -⟩ := everyWrapIsReportedAndRequested n s c.toNat
  obtain ⟨hseq, reqs', hpending', horder⟩ := (queuedSince_tickClosed n s).tick c.toNat (.refl s)
  obtain rfl : reqs' = reqs := List.append_cancel_left (hpending'.symm.trans hpending)
  exact ⟨reqs', hpending, fun x hx => ⟨hvector x hx, horder x hx⟩, hseq⟩

/-! ### Clock, Timer0, Timer1 -/

/-- The state `CLK.TICK c` leaves where the sum fits the clock. -/
def clockTicked (s : State) (c : BitVec 32) : State :=
  { s with cpuCycles := BitVec.ofNat 64 (s.cpuCycles.toNat + c.toNat) }

theorem exec_clkTick {s : State} {c : BitVec 32} (hsrc : s.src = .stepLoop)
    (hfits : s.cpuCycles.toNat + c.toNat < 2 ^ 64) : exec (.clkTick c) s = .next (clockTicked s c) :=
  (stepOnly_of s _ hsrc).trans (if_pos hfits)

/-- The state the ticks of a `STEP` leave. -/
def ticked (s : State) (c : BitVec 32) : State := tickResult .t1 (tickResult .t0 (clockTicked s c) c) c

theorem execAll_ticks {s : State} {c : BitVec 32} (hsrc : s.src = .stepLoop)
    (hfits : s.cpuCycles.toNat + c.toNat < 2 ^ 64) :
    execAll [.clkTick c, .t0Tick c, .t1Tick c] s = .next (ticked s c) := by
  have ht0 : exec (.t0Tick c) (clockTicked s c) = .next (tickResult .t0 (clockTicked s c) c) :=
    exec_tickOp .t0 c _ hsrc
  have ht1 : exec (.t1Tick c) (tickResult .t0 (clockTicked s c) c) = .next (ticked s c) :=
    exec_tickOp .t1 c _ ((Keeps.of_tick .t0 _ c).src_eq.trans hsrc)
  rw [execAll_cons, exec_clkTick hsrc hfits, andThen_next, execAll_cons, ht0, andThen_next, execAll_cons, ht1,
    andThen_next, execAll_nil]

theorem ticked_src (s : State) (c : BitVec 32) : (ticked s c).src = s.src :=
  (Keeps.of_tick .t1 _ c).src_eq.trans (Keeps.of_tick .t0 _ c).src_eq

theorem ticked_cpu (s : State) (c : BitVec 32) : (ticked s c).cpu = s.cpu :=
  (tickFrame_tick .t1 _ c.toNat).cpu_eq.trans (tickFrame_tick .t0 _ c.toNat).cpu_eq

theorem ticked_cpuCycles {s : State} {c : BitVec 32} (hfits : s.cpuCycles.toNat + c.toNat < 2 ^ 64) :
    (ticked s c).cpuCycles.toNat = s.cpuCycles.toNat + c.toNat := by
  have hclock : (ticked s c).cpuCycles = (clockTicked s c).cpuCycles :=
    (tickFrame_tick .t1 _ c.toNat).cpuCycles_eq.trans (tickFrame_tick .t0 _ c.toNat).cpuCycles_eq
  rw [hclock]
  exact Nat.mod_eq_of_lt hfits

/-- The requests of the ticks stand behind what was pending, Timer0's first. -/
theorem ticked_requests (s : State) (c : BitVec 32) :
    ∃ reqs0 reqs1, (ticked s c).int.pending = s.int.pending ++ reqs0 ++ reqs1
      ∧ (∀ x ∈ reqs0, x.vectorAddress = s.cfg.vecT0Ovf ∧ s.int.seqNext ≤ x.priorityOrder)
      ∧ (∀ x ∈ reqs1, x.vectorAddress = s.cfg.vecT1Ovf ∧ s.int.seqNext ≤ x.priorityOrder) := by
  obtain ⟨reqs0, hpending0, hreqs0, hseq⟩ := tickResult_requests .t0 (clockTicked s c) c
  obtain ⟨reqs1, hpending1, hreqs1, -⟩ := tickResult_requests .t1 (tickResult .t0 (clockTicked s c) c) c
  refine ⟨reqs0, reqs1, hpending1.trans (congrArg (· ++ reqs1) hpending0), hreqs0, fun x hx => ?_⟩
  obtain ⟨hvector, horder⟩ := hreqs1 x hx
  rw [(Keeps.of_tick .t0 _ c).cfg_eq] at hvector
  exact ⟨hvector, hseq.trans horder⟩

/-! ### The statement -/

/-- The order of R112 is antisymmetric. -/
theorem pending_eq_of_le_of_le {x y : Pending}
    (hxy : x.vectorAddress.toNat < y.vectorAddress.toNat
      ∨ (x.vectorAddress = y.vectorAddress ∧ x.priorityOrder ≤ y.priorityOrder))
    (hyx : y.vectorAddress.toNat < x.vectorAddress.toNat
      ∨ (y.vectorAddress = x.vectorAddress ∧ y.priorityOrder ≤ x.priorityOrder)) : x = y := by
  have hle : x.vectorAddress.toNat ≤ y.vectorAddress.toNat := hxy.elim Nat.le_of_lt fun h => h.1 ▸ le_rfl
  have hge : y.vectorAddress.toNat ≤ x.vectorAddress.toNat := hyx.elim Nat.le_of_lt fun h => h.1 ▸ le_rfl
  have hxy' := (hxy.resolve_left hge.not_gt).2
  have hyx' := (hyx.resolve_left hle.not_gt).2
  obtain ⟨vx, ox⟩ := x
  obtain ⟨vy, oy⟩ := y
  obtain rfl : vx = vy := BitVec.eq_of_toNat_eq (le_antisymm hle hge)
  obtain rfl : ox = oy := le_antisymm hxy' hyx'
  rfl

/-- Settles O60: the poll finds the request, then those of the ticks, and takes the least (`selectPending_spec`); where the
request is least too, it is the entry taken. -/
theorem stepDispatchesAtItsEnd : Obligations.StepDispatchesAtItsEnd := by
  intro c v s hsrc hi hfits
  have hreq : exec (.intReq v true) s = .next (requestInterrupt s v true) := exec_intReq hsrc v true
  have hticks := execAll_ticks (s := requestInterrupt s v true) (c := c) hsrc hfits
  obtain ⟨reqs0, reqs1, hpending, hreqs0, hreqs1⟩ := ticked_requests (requestInterrupt s v true) c
  have hsrc' := (ticked_src (requestInterrupt s v true) c).trans hsrc
  have hcpu := ticked_cpu (requestInterrupt s v true) c
  have hclock := ticked_cpuCycles (s := requestInterrupt s v true) (c := c) hfits
  set u := ticked (requestInterrupt s v true) c
  have hfour : execAll [.intReq v true, .clkTick c, .t0Tick c, .t1Tick c] s = .next u := by
    rw [execAll_cons, hreq, andThen_next, hticks]
  have hown : ⟨v, s.int.seqNext⟩ ∈ u.int.pending := by
    rw [hpending]
    simp
  obtain ⟨e, hsel⟩ := exists_selectPending (List.ne_nil_of_mem hown)
  obtain ⟨hmem, hleast⟩ := selectPending_spec u.int.pending e hsel
  have hpoll : exec .intPoll u = .next (takeInterrupt u e) := exec_intPoll_take hsrc' hsel (by rw [hcpu]; exact hi)
  have hfive : execAll (stepOps [.intReq v true] c []) s = .next (takeInterrupt u e) := by
    rw [show stepOps [.intReq v true] c [] = [.intReq v true, .clkTick c, .t0Tick c, .t1Tick c] ++ [.intPoll] from rfl,
      execAll_append, hfour, andThen_next, execAll_cons, hpoll, andThen_next, execAll_nil]
  exact ⟨u, takeInterrupt u e, reqs0, reqs1, e, hfour, hpending, hreqs0, hreqs1, hclock, hmem, hleast, hfive,
    by rw [takeInterrupt, hcpu]; rfl, fun hv => pending_eq_of_le_of_le (hleast _ hown) (hv e hmem)⟩

end Sys2Proof.Machine
end

section
/-! A port with words on it runs as the operations they encode (30_encoding.md R60, 46_step_loop_and_host.md R170, R172). -/

namespace Sys2Proof.Machine

open Sys2Proof

/-! ### Operations beside what waits on the port -/

/-- An operation that completes does so whatever waits and was answered, and differs in its answer at most. -/
theorem exec_withIo_next {i : Instr} {s t : State} (h : exec i s = .next t) (c : List BusWord) (r : Resp) :
    ∃ r', exec i (withIo c r s) = .next (withIo c r' t) := by
  have hio := exec_withIo c r i s
  rw [h] at hio
  cases hu : exec i (withIo c r s) with
  | next u =>
    rw [hu] at hio
    have hstrip : stripIo u = stripIo t := Host.Outcome.next.inj hio
    have hcmds : u.cmds = c := (exec_keeps _ _ _ hu).cmds_eq
    refine ⟨u.resp, congrArg _ ?_⟩
    calc u = withIo u.cmds u.resp (stripIo u) := rfl
      _ = withIo c u.resp t := by rw [hcmds, hstrip]; rfl
  | fault e => rw [hu] at hio; cases hio
  | refused e => rw [hu] at hio; cases hio

theorem execAll_cmds {ops : List Instr} {s t : State} (h : execAll ops s = .next t) : t.cmds = s.cmds := by
  induction ops generalizing s with
  | nil => cases h; rfl
  | cons i ops ih =>
    obtain ⟨u, hi, hops⟩ := (andThen_eq_next ..).mp h
    exact (ih hops).trans (exec_keeps i s u hi).cmds_eq

theorem execTurns_cmds {turns : List Turn} {s t : State} (h : execTurns turns s = .next t) : t.cmds = s.cmds := by
  induction turns generalizing s with
  | nil => cases h; rfl
  | cons turn turns ih =>
    obtain ⟨u, hturn, hturns⟩ := (andThen_eq_next ..).mp h
    exact (ih hturns).trans (execAll_cmds (s := { s with src := turnSrc turn }) hturn)

/-! ### A word that is its operation -/

/-- An operation that a word of the command port encodes and gives back. -/
structure Issuable (i : Instr) : Prop where
  wf : i.wf = true
  command : isCommand i = true

theorem encode_of_isCommand {i : Instr} (h : isCommand i = true) : ∃ w, encode i = .cmd80 w := by
  unfold isCommand at h
  split at h
  case h_1 w hw => exact ⟨w, hw⟩
  case h_2 => cases h

/-- A step that finds an operation of `p` first on the port runs it as `p`. -/
theorem step_busWord {i : Instr} (hi : Issuable i) (p : Principal) (id : InstanceId) (rest : List BusWord) (r : Resp)
    (s : State) :
    step (withIo (busWord p id i :: rest) r s) = exec i (withIo rest .notMeaningful { s with src := p }) := by
  obtain ⟨w, hw⟩ := encode_of_isCommand hi.command
  have hword : busWord p id i = .cmd p w := by rw [busWord, hw]
  have hdecode : decode (payload (.cmd p w)) = .ok i := (congrArg decode hw.symm).trans (decodeInvertsEncode i hi.wf)
  rw [hword, step_ok _ (.cmd p w) rest i rfl hdecode]
  rfl

/-- Operations of `p` first on the port run one per step. The first word puts `p` in charge, so who was in charge before
does not matter if there is one. -/
theorem run_busWords {ops : List Instr} (hops : ∀ i ∈ ops, Issuable i) (id : InstanceId) (rest : List BusWord) (k : Nat)
    (r : Resp) {s t : State} {p : Principal} (hsrc : ops = [] → s.src = p)
    (h : execAll ops { s with src := p } = .next t) :
    ∃ r', Host.Core.run Sys2Proof.core (ops.length + k) (withIo (ops.map (busWord p id) ++ rest) r s)
      = Host.Core.run Sys2Proof.core k (withIo rest r' t) := by
  induction ops generalizing s r with
  | nil =>
    obtain rfl := hsrc rfl
    cases h
    exact ⟨r, by rw [List.length_nil, Nat.zero_add]; rfl⟩
  | cons i ops ih =>
    obtain ⟨hi, hops⟩ := List.forall_mem_cons.mp hops
    obtain ⟨u, hu, ht⟩ := (andThen_eq_next ..).mp h
    obtain ⟨ri, hexec⟩ := exec_withIo_next hu (ops.map (busWord p id) ++ rest) .notMeaningful
    have hstep := (step_busWord hi p id (ops.map (busWord p id) ++ rest) r s).trans hexec
    have husrc : u.src = p := (exec_keeps i _ u hu).src_eq
    have hsame : { u with src := p } = u := husrc ▸ rfl
    obtain ⟨r', hrun⟩ := ih hops ri (fun _ => husrc) (hsame.symm ▸ ht)
    refine ⟨r', ?_⟩
    rw [List.length_cons, Nat.succ_add, ← hrun]
    exact core_run_succ _ _ _ hstep

/-! ### Turns -/

theorem stepOps_length (w : List WItem) (c : BitVec 32) (g : List (BitVec 8 × Byte)) :
    (stepOps w c g).length = w.length + 4 + g.length := by
  rw [stepOps, List.length_append, List.length_append, List.length_map, List.length_map]
  rfl

theorem turnOps_ne_nil (turn : Turn) : turnOps turn ≠ [] := by
  cases turn <;> simp [turnOps, stepOps]

theorem issuable_itemOp {e : WItem} (h : (itemOp e).wf = true) : Issuable (itemOp e) := by
  cases e <;> exact ⟨h, rfl⟩

theorem issuable_of_outsideStep {i : Instr} (hwf : i.wf = true) (h : outsideStep i = true) : Issuable i := by
  refine ⟨hwf, ?_⟩
  cases i with
  | regRd | pwmRoute | pwmRise | pwmFall | pinChg => rfl
  | _ => cases h

theorem issuable_stepOps {w : List WItem} (hw : ∀ e ∈ w, (itemOp e).wf = true) (c : BitVec 32)
    (g : List (BitVec 8 × Byte)) : ∀ i ∈ stepOps w c g, Issuable i := by
  have hitems : ∀ i ∈ w.map itemOp, Issuable i := List.forall_mem_map.mpr fun e he => issuable_itemOp (hw e he)
  have hmiddle : ∀ i ∈ [Instr.clkTick c, .t0Tick c, .t1Tick c, .intPoll], Issuable i := by
    simp only [List.forall_mem_cons]
    exact ⟨⟨rfl, rfl⟩, ⟨rfl, rfl⟩, ⟨rfl, rfl⟩, ⟨rfl, rfl⟩, List.forall_mem_nil _⟩
  have hports : ∀ i ∈ g.map fun e => Instr.gpioWr e.1 e.2, Issuable i := List.forall_mem_map.mpr fun _ _ => ⟨rfl, rfl⟩
  exact List.forall_mem_append.mpr ⟨List.forall_mem_append.mpr ⟨hitems, hmiddle⟩, hports⟩

theorem issuable_turnOps {turn : Turn} (h : turnOk turn = true) : ∀ i ∈ turnOps turn, Issuable i := by
  cases turn with
  | step w c g => exact issuable_stepOps (List.all_eq_true.mp h) c g
  | loop i =>
    obtain ⟨hwf, hout⟩ := Bool.and_eq_true_iff.mp h
    exact List.forall_mem_singleton.mpr (issuable_of_outsideStep hwf hout)
  | host i =>
    obtain ⟨hfits, -⟩ := Bool.and_eq_true_iff.mp h
    obtain ⟨hwf, hcommand⟩ := Bool.and_eq_true_iff.mp hfits
    exact List.forall_mem_singleton.mpr ⟨hwf, hcommand⟩

/-- A turn first on the port runs one operation a step, whoever was in charge before. -/
theorem run_turn {turn : Turn} (hok : turnOk turn = true) (id : InstanceId) (rest : List BusWord) (k : Nat) (r : Resp)
    {s t : State} (h : execAll (turnOps turn) { s with src := turnSrc turn } = .next t) :
    ∃ r', Host.Core.run Sys2Proof.core ((turnOps turn).length + k)
        (withIo ((turnOps turn).map (busWord (turnSrc turn) id) ++ rest) r s)
      = Host.Core.run Sys2Proof.core k (withIo rest r' t) :=
  run_busWords (issuable_turnOps hok) id rest k r (fun hnil => absurd hnil (turnOps_ne_nil turn)) h

/-- A schedule runs turn by turn, and leaves the port empty. -/
theorem run_schedule {turns : List Turn} (hok : ∀ u ∈ turns, turnOk u = true) (r : Resp) {s t : State}
    (h : execTurns turns s = .next t) :
    ∃ r', Host.Core.run Sys2Proof.core (schedule turns).length (withIo (schedule turns) r s)
      = .next (withIo [] r' t) := by
  induction turns generalizing s r with
  | nil => cases h; exact ⟨r, rfl⟩
  | cons turn turns ih =>
    obtain ⟨hturn, hturns⟩ := List.forall_mem_cons.mp hok
    obtain ⟨u, hu, ht⟩ := (andThen_eq_next ..).mp h
    obtain ⟨ru, hrun⟩ := run_turn hturn 0 (schedule turns) (schedule turns).length r hu
    obtain ⟨r', hrest⟩ := ih hturns ru ht
    refine ⟨r', ?_⟩
    rw [← hrest, ← hrun, schedule, List.flatMap_cons, List.length_append, List.length_map]
    rfl

/-! ### The statement -/

/-- An empty port stays empty, so a run that ends with it empty differs from the operations in `RESP` at most. -/
theorem withIo_nil {t : State} (h : t.cmds = []) (r : Resp) : withIo [] r t = { t with resp := r } := by
  rw [← h]
  rfl

/-- Settles O59: a `STEP` is a turn of its own, and turns run one after another (`run_schedule`). -/
theorem stepRunsInTheFixedOrder : Obligations.StepRunsInTheFixedOrder := by
  refine ⟨fun w c g s t hport hwf h => ?step, fun turns s t hport hok h => ?turns⟩
  case step =>
    have hok : turnOk (.step w c g) = true := List.all_eq_true.mpr fun e he => by
      cases e with
      | regWr i v => exact hwf i v he
      | reti | intReq => rfl
    have hempty : t.cmds = [] := (execAll_cmds h).trans hport
    obtain ⟨r, hrun⟩ := run_turn hok s.lcdSel [] 0 s.resp h
    have hlength : (turnOps (.step w c g)).length = w.length + 4 + g.length := stepOps_length w c g
    have hissue : issue .stepLoop (stepOps w c g) s =
        withIo ((turnOps (.step w c g)).map (busWord .stepLoop s.lcdSel) ++ []) s.resp s := by
      rw [issue, hport, List.nil_append, List.append_nil]
      rfl
    rw [hlength, Nat.add_zero, core_run_zero, withIo_nil hempty] at hrun
    exact ⟨r, hissue ▸ hrun⟩
  case turns =>
    have hempty : t.cmds = [] := (execTurns_cmds h).trans hport
    obtain ⟨r, hrun⟩ := run_schedule hok s.resp h
    exact ⟨r, hrun.trans (by rw [withIo_nil hempty])⟩

end Sys2Proof.Machine
end

section
/-! Progress (60_exceptions.md R185, R191): under the invariant an operation completes or is one of the two the spec gives no
result. -/

namespace Sys2Proof.Machine

open Sys2Proof

/-- An operation that neither faults nor is refused. -/
def Completes (r : Result) : Prop := ∃ t, r = .next t

theorem Completes.stepOnly {s : State} {r : Result} (h : Completes r) : Completes (stepOnly s r) := by
  unfold Machine.stepOnly
  split_ifs
  · exact h
  · exact ⟨s, rfl⟩

theorem Completes.hostOnly {s : State} {r : Result} (h : Completes r) : Completes (hostOnly s r) := by
  unfold Machine.hostOnly
  split_ifs
  · exact h
  · exact ⟨s, rfl⟩

/-- The cases R191 leaves without a result, with the refusal that answers each. -/
inductive NoResult (s : State) : Instr → Refusal → Prop
  | clockOverflow (c : BitVec 32) (hsrc : s.src = .stepLoop) (hover : 2 ^ 64 ≤ s.cpuCycles.toNat + c.toNat) :
      NoResult s (.clkTick c) .clockOverflow
  | retiEmptyStack (hsrc : s.src = .stepLoop) (hstack : s.cpu.rstack = []) : NoResult s .intReti .retiEmptyStack

/-- A case without a result is refused as such. -/
theorem NoResult.exec_eq {s : State} {i : Instr} {e : Refusal} (h : NoResult s i e) : exec i s = .refused e := by
  cases h with
  | clockOverflow c hsrc hover => exact (clockTickAddsExactly c s hsrc).2 hover
  | retiEmptyStack hsrc hstack => exact exec_intReti_empty hsrc hstack

/-! ### The operations that can stop -/

theorem exec_clkTick_completes_or (c : BitVec 32) (s : State) :
    Completes (exec (.clkTick c) s) ∨ NoResult s (.clkTick c) .clockOverflow := by
  by_cases hsrc : s.src = .stepLoop
  · obtain hfits | hover := Nat.lt_or_ge (s.cpuCycles.toNat + c.toNat) (2 ^ 64)
    · obtain ⟨v, -, hv⟩ := (clockTickAddsExactly c s hsrc).1 hfits
      exact .inl ⟨_, hv⟩
    · exact .inr (.clockOverflow c hsrc hover)
  · exact .inl ⟨s, stepOnly_ne s _ hsrc⟩

theorem exec_intReti_completes_or (s : State) :
    Completes (exec .intReti s) ∨ NoResult s .intReti .retiEmptyStack := by
  by_cases hsrc : s.src = .stepLoop
  · cases hstack : s.cpu.rstack with
    | nil => exact .inr (.retiEmptyStack hsrc hstack)
    | cons a rest => exact .inl ⟨_, exec_intReti_pop hsrc hstack⟩
  · exact .inl ⟨s, stepOnly_ne s _ hsrc⟩

/-! ### The operations the invariant keeps from faulting -/

/-- A byte operation stops only where it has no effect on the selected LCD, which is well formed under the invariant. -/
theorem onSelectedLcd_completes {s : State} (h : MachineInv s) {f : LcdState → Option LcdState}
    (hf : ∀ st, LcdOk st → ∃ st', f st = some st') : Completes (onSelectedLcd s f) := by
  cases hl : lcdAt s s.lcdSel with
  | none => exact ⟨s, onSelectedLcd_none s f hl⟩
  | some x =>
    obtain ⟨st, p⟩ := x
    have hok : LcdOk st := h.act_ok _ (actFind_mem _ _ _ ((lcdAt_eq_some ..).mp hl))
    obtain ⟨st', hst⟩ := hf st hok
    exact ⟨_, onSelectedLcd_of s st st' p f hl hst⟩

theorem exec_pinChg_completes {s : State} (h : MachineInv s) (pin : Pin) (level : Bool) :
    Completes (exec (.pinChg pin level) s) := by
  obtain ⟨t, ht, -⟩ := pinChange_completes s pin level h.act_ok
  exact .stepOnly ⟨t, ht⟩

theorem exec_gpioWr_completes {s : State} (h : MachineInv s) (port : BitVec 8) (v : Byte) :
    Completes (exec (.gpioWr port v) s) := by
  refine .stepOnly ?_
  split_ifs
  · obtain ⟨t, ht, -⟩ := portChanges_completes port.toNat (portRead s port.toNat) v (List.range 8)
      (s := portWrite s port.toNat v) h.act_ok
    exact ⟨t, ht⟩
  · exact ⟨s, rfl⟩

/-! ### Every operation -/

/-- Under the invariant an operation completes or is a case without a result. -/
theorem exec_completes_or {s : State} (h : MachineInv s) (i : Instr) :
    Completes (exec i s) ∨ ∃ e, NoResult s i e := by
  cases i with
  | clkTick c => exact (exec_clkTick_completes_or c s).imp_right fun hno => ⟨_, hno⟩
  | intReti => exact (exec_intReti_completes_or s).imp_right fun hno => ⟨_, hno⟩
  | clkReset | clkMicros | clkMillis | clkSeconds | pwmReg | pwmUnreg => exact .inl ⟨_, rfl⟩
  | t0Tick | t1Tick | regWr | regRd | intReq | pwmRoute | pwmRise | pwmFall => exact .inl (.stepOnly ⟨_, rfl⟩)
  | intPoll =>
    refine .inl (.stepOnly ?_)
    split
    · split_ifs <;> exact ⟨_, rfl⟩
    · exact ⟨s, rfl⟩
  | srvAnim dt =>
    refine .inl (.hostOnly ?_)
    split
    · split_ifs <;> exact ⟨_, rfl⟩
    · exact ⟨s, rfl⟩
  | srvStall | lcdPinmap | actAttach | lcdGetbuf => exact .inl (.hostOnly (by split <;> exact ⟨_, rfl⟩))
  | actDetach | sysReset => exact .inl (.hostOnly ⟨_, rfl⟩)
  | pinChg pin level => exact .inl (exec_pinChg_completes h pin level)
  | gpioWr port v => exact .inl (exec_gpioWr_completes h port v)
  | lcdData b => exact .inl (onSelectedLcd_completes h fun st hok => applyByte_completes st true b hok)
  | lcdNop | lcdClear | lcdHome | lcdEntry | lcdDispctl | lcdShift | lcdFuncset | lcdSetcgram | lcdSetddram =>
    exact .inl (onSelectedLcd_completes h fun _ _ => ⟨_, rfl⟩)

/-- No byte of an LCD's bus is a case without a result. -/
theorem not_noResult_decodeLcd9 (s : State) (w : BitVec 9) (e : Refusal) : ¬ NoResult s (decodeLcd9 w) e := by
  intro h
  unfold decodeLcd9 at h
  split_ifs at h <;> cases h

/-- Settles O57: the word next on the port runs an operation that completes or has no result (`exec_completes_or`), and the
latter only as a command word of the step loop. -/
theorem onlyTheTwoUndefinedCasesStop : Obligations.OnlyTheTwoUndefinedCasesStop := by
  intro s h
  cases hc : s.cmds with
  | nil => exact .inl ⟨s, step_nil s hc⟩
  | cons w rest =>
    cases hd : decode (payload w) with
    | error e => exact .inl ⟨_, step_error s w rest e hc hd⟩
    | ok i =>
      have hstep := step_ok s w rest i hc hd
      obtain ⟨t, ht⟩ | ⟨e, hno⟩ := exec_completes_or (h.accept w rest) i
      · exact .inl ⟨t, hstep.trans ht⟩
      · have hrefused := hstep.trans hno.exec_eq
        cases w with
        | lcd id b =>
          obtain rfl : decodeLcd9 b = i := Except.ok.inj hd
          exact absurd hno (not_noResult_decodeLcd9 _ b e)
        | cmd p c =>
          cases hno with
          | clockOverflow n hsrc hover =>
            obtain rfl : p = .stepLoop := hsrc
            exact .inr (.inl ⟨rest, c, n, rfl, hd, hover, hrefused⟩)
          | retiEmptyStack hsrc hstack =>
            obtain rfl : p = .stepLoop := hsrc
            exact .inr (.inr ⟨rest, c, rfl, hd, hstack, hrefused⟩)

end Sys2Proof.Machine
end

section
/-! The customary 4-bit bring-up of an LCD (70_reset_and_hazards.md R212): on an LCD wired for 4-bit mode with RS low every pulse of
the enable line hands over one nibble, and the nibbles of `lcd_begin4` bring any LCD to the same mode. -/

namespace Sys2Proof.Machine

open Sys2Proof

/-! ### Nibbles as commands (45_lcd.md R145, R146) -/

/-- A command byte on an LCD: `Byte(id, 0, byte)`, which always has an effect. -/
def runCommand (st : LcdState) (byte : Byte) : LcdState := (applyByte st false byte).getD st

theorem applyByte_false (st : LcdState) (byte : Byte) : applyByte st false byte = some (runCommand st byte) := by
  obtain ⟨st', h⟩ := applyByte_command st byte
  rw [runCommand, h, Option.getD_some]

/-- A nibble latched with RS low by an LCD wired for 4-bit mode: in 8-bit mode a command byte with nothing on DB3 to DB0, in
4-bit mode half of one. -/
def takeNibble (st : LcdState) (nib : BitVec 4) : LcdState :=
  match st.functionSet.bits, st.awaitingLowNibble with
  | .eight, _ => runCommand st (highNibble nib)
  | .four, true => runCommand { st with awaitingLowNibble := false } (joinNibbles st.nibbleBuffer nib)
  | .four, false => { st with nibbleBuffer := highNibble nib, awaitingLowNibble := true }

/-- The two nibbles `lcd4` hands over (30_encoding.md R70). -/
def takeByte (st : LcdState) (byte : Byte) : LcdState :=
  takeNibble (takeNibble st (byte.extractLsb' 4 4)) (byte.extractLsb' 0 4)

theorem takeNibble_eight {st : LcdState} (h : st.functionSet.bits = .eight) (nib : BitVec 4) :
    takeNibble st nib = runCommand st (highNibble nib) := by
  simp only [takeNibble, h]

theorem takeNibble_high {st : LcdState} (h : st.functionSet.bits = .four) (hw : st.awaitingLowNibble = false)
    (nib : BitVec 4) : takeNibble st nib = { st with nibbleBuffer := highNibble nib, awaitingLowNibble := true } := by
  simp only [takeNibble, h, hw]

theorem takeNibble_low {st : LcdState} (h : st.functionSet.bits = .four) (hw : st.awaitingLowNibble = true)
    (nib : BitVec 4) :
    takeNibble st nib = runCommand { st with awaitingLowNibble := false } (joinNibbles st.nibbleBuffer nib) := by
  simp only [takeNibble, h, hw]

/-- In 4-bit mode at AwaitHighNibble: the next latch takes the high nibble of a byte. -/
structure Synchronised (st : LcdState) : Prop where
  four : st.functionSet.bits = .four
  high_next : st.awaitingLowNibble = false

/-- A synchronised LCD joins two nibbles to the byte they are of. -/
theorem Synchronised.takeNibble_takeNibble {st : LcdState} (h : Synchronised st) (hi lo : BitVec 4) :
    takeNibble (takeNibble st hi) lo =
      runCommand { st with nibbleBuffer := highNibble hi } (joinNibbles (highNibble hi) lo) := by
  rw [takeNibble_high h.four h.high_next, takeNibble_low, ← h.high_next]
  exacts [h.four, rfl]

theorem joinNibbles_extractLsb' (byte : Byte) :
    joinNibbles (highNibble (byte.extractLsb' 4 4)) (byte.extractLsb' 0 4) = byte := by
  revert byte; decide

theorem Synchronised.takeByte_eq {st : LcdState} (h : Synchronised st) (byte : Byte) :
    takeByte st byte = runCommand { st with nibbleBuffer := highNibble (byte.extractLsb' 4 4) } byte := by
  rw [takeByte, h.takeNibble_takeNibble, joinNibbles_extractLsb']

/-! ### The nibbles 3, 3, 3, 2 -/

theorem runCommand_0x20 (st : LcdState) : runCommand st 0x20 = setFunction st false false false := rfl
theorem runCommand_0x30 (st : LcdState) : runCommand st 0x30 = setFunction st true false false := rfl
theorem runCommand_0x33 (st : LcdState) : runCommand st 0x33 = setFunction st true false false := rfl

/-- In 8-bit mode the nibble 3 is the byte 0x30, a function set to 8-bit mode. -/
theorem takeNibble_three_of_eight {st : LcdState} (h : st.functionSet.bits = .eight) :
    (takeNibble st 3).functionSet.bits = .eight := by
  rw [takeNibble_eight h, show highNibble 3 = 0x30 from rfl, runCommand_0x30]
  rfl

/-- In 8-bit mode the nibble 2 is the byte 0x20, a function set to 4-bit mode. -/
theorem takeNibble_two_of_eight {st : LcdState} (h : st.functionSet.bits = .eight) : Synchronised (takeNibble st 2) := by
  rw [takeNibble_eight h, show highNibble 2 = 0x20 from rfl, runCommand_0x20]
  exact ⟨rfl, rfl⟩

/-- A synchronised LCD takes the nibbles 3 and 3 as the byte 0x33, a function set to 8-bit mode. -/
theorem Synchronised.takeNibble_three_three {st : LcdState} (h : Synchronised st) :
    (takeNibble (takeNibble st 3) 3).functionSet.bits = .eight := by
  rw [h.takeNibble_takeNibble, show joinNibbles (highNibble 3) 3 = 0x33 from rfl, runCommand_0x33]
  rfl

/-- A command takes a synchronised LCD to 8-bit mode or leaves it synchronised: only a function set touches either part. -/
theorem Synchronised.runCommand_eight_or {st : LcdState} (h : Synchronised st) (byte : Byte) :
    (runCommand st byte).functionSet.bits = .eight ∨ Synchronised (runCommand st byte) := by
  have hb := applyByte_false st byte
  generalize runCommand st byte = st' at hb ⊢
  simp only [applyByte, Bool.false_eq_true, if_false] at hb
  split_ifs at hb <;> obtain rfl := Option.some.inj hb
  · exact .inr ⟨h.four, h.high_next⟩
  · exact .inr ⟨h.four, h.high_next⟩
  · cases byte.getLsbD 4 with
    | true => exact .inl rfl
    | false => exact .inr ⟨rfl, rfl⟩
  all_goals exact .inr ⟨h.four, h.high_next⟩

theorem synchronised_three_three_two_of_eight {st : LcdState} (h : st.functionSet.bits = .eight) :
    Synchronised (takeNibble (takeNibble (takeNibble st 3) 3) 2) :=
  takeNibble_two_of_eight (takeNibble_three_of_eight (takeNibble_three_of_eight h))

/-- Whatever an LCD was doing, the nibbles 3, 3, 3, 2 leave it synchronised. One that waits for a low nibble first completes a byte
with whatever effect that has, and takes the remaining 3, 3, 2 from there (R212). -/
theorem synchronised_three_three_three_two (st : LcdState) :
    Synchronised (takeNibble (takeNibble (takeNibble (takeNibble st 3) 3) 3) 2) := by
  cases hbits : st.functionSet.bits with
  | eight => exact synchronised_three_three_two_of_eight (takeNibble_three_of_eight hbits)
  | four =>
    cases hwait : st.awaitingLowNibble with
    | false =>
      exact takeNibble_two_of_eight (takeNibble_three_of_eight (Synchronised.takeNibble_three_three ⟨hbits, hwait⟩))
    | true =>
      have hlost : Synchronised { st with awaitingLowNibble := false } := ⟨hbits, rfl⟩
      rw [takeNibble_low hbits hwait]
      obtain height | hsync := hlost.runCommand_eight_or (joinNibbles st.nibbleBuffer 3)
      · exact synchronised_three_three_two_of_eight height
      · exact takeNibble_two_of_eight hsync.takeNibble_three_three

/-! ### The bytes 0x28, 0x0C, 0x01, 0x06 -/

theorem runCommand_0x28 (st : LcdState) : runCommand st 0x28 = setFunction st false true false := rfl
theorem runCommand_0x0C (st : LcdState) : runCommand st 0x0C = setDisplayControl st true false false := rfl
theorem runCommand_0x01 (st : LcdState) : runCommand st 0x01 = clearDisplay st := rfl
theorem runCommand_0x06 (st : LcdState) : runCommand st 0x06 = setEntryMode st true false := rfl

/-- What `lcd_begin4` leaves of an LCD. -/
structure BroughtUp (st : LcdState) : Prop where
  function_set : st.functionSet = { bits := .four, lines := .two, font := .f5x8 }
  high_next : st.awaitingLowNibble = false
  display_on : st.displayOn = true
  cursor_off : st.cursorOn = false
  blink_off : st.blinkOn = false
  entry_mode : st.entryMode = { direction := .increment, shiftDisplay := false }
  blank : st.ddram = []
  home : st.cursorAddr = 0

/-- On a synchronised LCD the four bytes are function set, display control, clear and entry mode. -/
theorem Synchronised.broughtUp {st : LcdState} (h : Synchronised st) :
    BroughtUp (takeByte (takeByte (takeByte (takeByte st 0x28) 0x0C) 0x01) 0x06) := by
  rw [h.takeByte_eq, runCommand_0x28, Synchronised.takeByte_eq _ 0x0C, runCommand_0x0C, Synchronised.takeByte_eq _ 0x01,
    runCommand_0x01, Synchronised.takeByte_eq _ 0x06, runCommand_0x06]
  · exact ⟨rfl, rfl, rfl, rfl, rfl, rfl, rfl, rfl⟩
  all_goals exact ⟨rfl, rfl⟩

/-! ### The latch of an LCD wired for 4-bit mode -/

/-- With nothing on DB3 to DB0 the byte on the lines is the nibble above four zeros. -/
theorem byteOfLines_low (d7 d6 d5 d4 : Bool) :
    byteOfLines d7 d6 d5 d4 false false false false = highNibble (nibbleOf d7 d6 d5 d4) := by
  revert d7 d6 d5 d4; decide

theorem nibbleOf_getLsbD (nib : BitVec 4) :
    nibbleOf (nib.getLsbD 3) (nib.getLsbD 2) (nib.getLsbD 1) (nib.getLsbD 0) = nib := by
  revert nib; decide

/-- A nibble as levels of the pins on DB7 to DB4. -/
def nibbleLevels (d7 d6 d5 d4 : Pin) (nib : BitVec 4) : List (Pin × Bool) :=
  [(d7, nib.getLsbD 3), (d6, nib.getLsbD 2), (d5, nib.getLsbD 1), (d4, nib.getLsbD 0)]

section
variable {p : LcdPins} {rs en d7 d6 d5 d4 : Pin} (hw : FourBitWired p rs en d7 d6 d5 d4)
include hw

theorem FourBitWired.lineLevel_rs (lvl : Vector Bool 256) : lineLevel lvl p.rs = levelOf lvl rs := by
  rw [hw.rs_bound, lineLevel]

theorem FourBitWired.latch_eq {lvl : Vector Bool 256} (hrs : lineLevel lvl p.rs = false) (st : LcdState) :
    latch lvl st p = some (takeNibble st (latchedNibble lvl p)) := by
  have hbyte : latchedByte lvl p = highNibble (latchedNibble lvl p) := by
    obtain ⟨h3, h2, h1, h0⟩ := hw.low_unbound
    rw [latchedByte, h3, h2, h1, h0]
    exact byteOfLines_low ..
  cases hbits : st.functionSet.bits with
  | eight => rw [latch_eight hbits, hrs, hbyte, applyByte_false, takeNibble_eight hbits]
  | four =>
    cases hwait : st.awaitingLowNibble with
    | false => rw [latch_high hbits hwait, takeNibble_high hbits hwait]
    | true => rw [latch_low hbits hwait, hrs, applyByte_false, takeNibble_low hbits hwait]

/-- The nibble on the lines is the one whose bits were driven onto them. -/
theorem FourBitWired.latchedNibble_eq {lvl : Vector Bool 256} {nib : BitVec 4}
    (h : ∀ c ∈ nibbleLevels d7 d6 d5 d4 nib, levelOf lvl c.1 = c.2) : latchedNibble lvl p = nib := by
  simp only [nibbleLevels, List.forall_mem_cons] at h
  obtain ⟨h7, h6, h5, h4, -⟩ := h
  rw [latchedNibble, hw.d7_bound, hw.d6_bound, hw.d5_bound, hw.d4_bound]
  simp only [lineLevel, h7, h6, h5, h4, nibbleOf_getLsbD]

end

/-! ### Pin changes in view of one LCD (R141) -/

/-- In the step loop, every entry of the table in order, the LCD `st` on the pins `p` stands under `id`. -/
structure HoldsLcd (s : State) (id : InstanceId) (st : LcdState) (p : LcdPins) : Prop where
  src : s.src = .stepLoop
  entries : ∀ e ∈ s.act, EntryOk s.cfg e
  lcd : lcdAt s id = some (st, p)

/-- Level changes as `PIN.CHG` operations. -/
def pinOps (changes : List (Pin × Bool)) : List Instr := changes.map fun c => .pinChg c.1 c.2

/-- The level changes of `nibbleOps` before the fall of the enable line. -/
def nibbleRise (en d7 d6 d5 d4 : Pin) (nib : BitVec 4) : List (Pin × Bool) :=
  nibbleLevels d7 d6 d5 d4 nib ++ [(en, true)]

section
variable {s : State} {id : InstanceId} {st : LcdState} {p : LcdPins} (h : HoldsLcd s id st p)
include h

/-- A pin change that is no falling edge of the enable line leaves the LCD. -/
theorem HoldsLcd.pinChg {pin : Pin} {level : Bool} (hquiet : p.en = some pin → level = true) :
    ∃ t, exec (.pinChg pin level) s = .next t ∧ HoldsLcd t id st p
      ∧ ∀ q, levelOf t.pinlvl q = if q = pin then level else levelOf s.pinlvl q := by
  obtain ⟨t, ht, hframe, hlvl, -, hok, hact⟩ := pinChange_completes s pin level h.entries
  have hsrc : t.src = s.src := by rw [hframe]
  have hid := hact id
  rw [(lcdAt_eq_some ..).mp h.lcd] at hid
  refine ⟨t, (exec_pinChg h.src pin level).trans ht, ⟨hsrc.trans h.src, hok, (lcdAt_eq_some ..).mpr ?_⟩, hlvl⟩
  split_ifs at hid with hfall
  case pos =>
    have hen : p.en ≠ some pin := fun hen => Bool.false_ne_true (hfall.2.symm.trans (hquiet hen))
    simpa only [Latched, if_neg hen] using hid
  case neg => exact hid

/-- So do such changes of different pins one after another; these pins end at their new levels, the others as they were. -/
theorem HoldsLcd.execAll_pinOps {changes : List (Pin × Bool)} (hquiet : ∀ c ∈ changes, p.en = some c.1 → c.2 = true)
    (hpins : (changes.map Prod.fst).Nodup) :
    ∃ t, execAll (pinOps changes) s = .next t ∧ HoldsLcd t id st p
      ∧ (∀ c ∈ changes, levelOf t.pinlvl c.1 = c.2)
      ∧ ∀ q, q ∉ changes.map Prod.fst → levelOf t.pinlvl q = levelOf s.pinlvl q := by
  induction changes generalizing s with
  | nil => exact ⟨s, rfl, h, nofun, fun _ _ => rfl⟩
  | cons c changes ih =>
    rw [List.map_cons, List.nodup_cons] at hpins
    obtain ⟨u, hu, hlcd, hlvl⟩ := h.pinChg (hquiet c List.mem_cons_self)
    obtain ⟨t, ht, hlcd', hset, hkeep⟩ := ih hlcd (fun e he => hquiet e (List.mem_cons_of_mem _ he)) hpins.2
    refine ⟨t, (andThen_eq_next ..).mpr ⟨u, hu, ht⟩, hlcd', fun e he => ?_, fun q hq => ?_⟩
    · obtain rfl | he := List.mem_cons.mp he
      · rw [hkeep _ hpins.1, hlvl, if_pos rfl]
      · exact hset e he
    · rw [List.map_cons, List.mem_cons, not_or] at hq
      rw [hkeep q hq.2, hlvl, if_neg hq.1]

/-- A falling edge of the enable line latches it. -/
theorem HoldsLcd.pinChg_fall {en : Pin} (hen : p.en = some en) (hhigh : levelOf s.pinlvl en = true) :
    ∃ t st', exec (.pinChg en false) s = .next t ∧ latch t.pinlvl st p = some st' ∧ HoldsLcd t id st' p
      ∧ ∀ q, levelOf t.pinlvl q = if q = en then false else levelOf s.pinlvl q := by
  obtain ⟨t, ht, hframe, hlvl, -, hok, hact⟩ := pinChange_completes s en false h.entries
  have hsrc : t.src = s.src := by rw [hframe]
  have hid := hact id
  rw [(lcdAt_eq_some ..).mp h.lcd, if_pos ⟨hhigh, rfl⟩] at hid
  simp only [Latched, if_pos hen] at hid
  obtain ⟨st', hlatch, hfind⟩ := hid
  exact ⟨t, st', (exec_pinChg h.src en false).trans ht, hlatch,
    ⟨hsrc.trans h.src, hok, (lcdAt_eq_some ..).mpr hfind⟩, hlvl⟩

end

/-! ### `lcd_begin4` as nibbles -/

/-- The LCD `st` stands under `id` on its pins, with RS low. -/
structure AwaitsCommand (s : State) (id : InstanceId) (st : LcdState) (p : LcdPins) : Prop extends HoldsLcd s id st p where
  rs_low : lineLevel s.pinlvl p.rs = false

/-- Operations that do `f` to the LCD of the pins `p`, with RS low before and after. -/
def Commands (p : LcdPins) (ops : List Instr) (f : LcdState → LcdState) : Prop :=
  ∀ s id st, AwaitsCommand s id st p → ∃ t, execAll ops s = .next t ∧ AwaitsCommand t id (f st) p

theorem Commands.append {p : LcdPins} {a b : List Instr} {f g : LcdState → LcdState} (ha : Commands p a f)
    (hb : Commands p b g) : Commands p (a ++ b) (g ∘ f) := by
  intro s id st h
  obtain ⟨u, hu, h'⟩ := ha s id st h
  obtain ⟨t, ht, h''⟩ := hb u id (f st) h'
  exact ⟨t, by rw [execAll_append, hu, andThen_next, ht], h''⟩

section
variable {p : LcdPins} {rs en d7 d6 d5 d4 : Pin} (hw : FourBitWired p rs en d7 d6 d5 d4)
include hw

/-- RS driven low, whatever it was. -/
theorem FourBitWired.drive_rs {s : State} {id : InstanceId} {st : LcdState} (h : HoldsLcd s id st p) :
    ∃ t, execAll (drive p.rs false) s = .next t ∧ AwaitsCommand t id st p := by
  have hquiet : p.en ≠ some rs := by
    rw [hw.en_bound, Ne, Option.some.injEq]
    exact (List.ne_of_not_mem_cons (List.nodup_cons.mp hw.distinct).1).symm
  obtain ⟨t, ht, h', hlvl⟩ := h.pinChg (level := false) fun he => absurd he hquiet
  refine ⟨t, ?_, h', (hw.lineLevel_rs _).trans ((hlvl rs).trans (if_pos rfl))⟩
  rw [hw.rs_bound]
  exact (andThen_eq_next ..).mpr ⟨t, ht, rfl⟩

theorem FourBitWired.commands_drive_rs : Commands p (drive p.rs false) id :=
  fun _ _ _ h => hw.drive_rs h.toHoldsLcd

/-- The changes up to the rise of the enable line, then its fall. -/
theorem FourBitWired.nibbleOps_eq (nib : BitVec 4) :
    nibbleOps p nib = pinOps (nibbleRise en d7 d6 d5 d4 nib) ++ [.pinChg en false] := by
  rw [nibbleOps, hw.d7_bound, hw.d6_bound, hw.d5_bound, hw.d4_bound, hw.en_bound]
  rfl

/-- Of these changes only the last is one of the enable line, and it is a rise. -/
theorem FourBitWired.nibbleRise_quiet {nib : BitVec 4} {c : Pin × Bool} (hc : c ∈ nibbleRise en d7 d6 d5 d4 nib)
    (hen : p.en = some c.1) : c.2 = true := by
  obtain ⟨-, hpins⟩ := List.nodup_cons.mp hw.distinct
  obtain rfl : en = c.1 := Option.some.inj (hw.en_bound.symm.trans hen)
  obtain hdata | hlast := List.mem_append.mp hc
  · exact absurd (List.mem_map_of_mem hdata) (List.nodup_cons.mp hpins).1
  · rw [List.mem_singleton.mp hlast]

/-- A nibble on the data lines and a pulse of the enable line: the LCD takes it at the fall. -/
theorem FourBitWired.commands_nibbleOps (nib : BitVec 4) : Commands p (nibbleOps p nib) (takeNibble · nib) := by
  intro s id st h
  obtain ⟨hrs, hpins⟩ := List.nodup_cons.mp hw.distinct
  obtain ⟨hen, -⟩ := List.nodup_cons.mp hpins
  have hmoves := (List.perm_append_singleton en [d7, d6, d5, d4]).symm
  obtain ⟨u, hu, hlcd, hset, hkeep⟩ := h.toHoldsLcd.execAll_pinOps (changes := nibbleRise en d7 d6 d5 d4 nib)
    (fun _ => hw.nibbleRise_quiet) (hmoves.nodup hpins)
  obtain ⟨t, st', ht, hlatch, hlcd', hlvl⟩ := hlcd.pinChg_fall hw.en_bound (hset (en, true) List.mem_concat_self)
  have hrun : execAll (nibbleOps p nib) s = .next t := by
    rw [hw.nibbleOps_eq, execAll_append, hu, andThen_next]
    exact (andThen_eq_next ..).mpr ⟨t, ht, rfl⟩
  have hlow : lineLevel t.pinlvl p.rs = false := by
    rw [hw.lineLevel_rs, hlvl, if_neg (List.ne_of_not_mem_cons hrs), hkeep rs (hmoves.mem_iff.not.mp hrs),
      ← hw.lineLevel_rs, h.rs_low]
  have hdata : ∀ c ∈ nibbleLevels d7 d6 d5 d4 nib, levelOf t.pinlvl c.1 = c.2 := fun c hc => by
    rw [hlvl, if_neg (ne_of_mem_of_not_mem (List.mem_map_of_mem hc) hen), hset c (List.mem_append_left _ hc)]
  rw [hw.latch_eq hlow, hw.latchedNibble_eq hdata, Option.some.injEq] at hlatch
  subst hlatch
  exact ⟨t, hrun, hlcd', hlow⟩

/-- The two nibbles of a command byte. -/
theorem FourBitWired.commands_lcd4 (byte : Byte) : Commands p (lcd4 p false byte) (takeByte · byte) :=
  (hw.commands_drive_rs.append (hw.commands_nibbleOps _)).append (hw.commands_nibbleOps _)

end

/-- Settles O49: once RS is low, the four single nibbles synchronise the LCD, and the four bytes set it up. -/
theorem beginSequenceSynchronisesTheLcd : Obligations.BeginSequenceSynchronisesTheLcd := by
  intro s id st p rs en d7 d6 d5 d4 hinv hsrc hlcd hw
  obtain ⟨u, hu, h⟩ := hw.drive_rs ⟨hsrc, hinv.act_ok, hlcd⟩
  have hnibble := hw.commands_nibbleOps
  have hbyte := hw.commands_lcd4
  have hall := (hnibble 3).append <| (hnibble 3).append <| (hnibble 3).append <| (hnibble 2).append <|
    (hbyte 0x28).append <| (hbyte 0x0C).append <| (hbyte 0x01).append (hbyte 0x06)
  obtain ⟨t, ht, h'⟩ := hall u id st h
  have hup : BroughtUp _ := (synchronised_three_three_three_two st).broughtUp
  refine ⟨t, _, ?_, h'.lcd, hup.function_set, hup.high_next, hup.display_on, hup.cursor_off, hup.blink_off, hup.entry_mode,
    fun k => ?_, hup.home⟩
  · simp only [lcdBegin4, List.append_assoc]
    rw [execAll_append, hu, andThen_next, ht]
  · exact (congrArg (cellRead blankCell · k) hup.blank).trans (cellRead_nil blankCell k)

end Sys2Proof.Machine
end

section
/-! `SYS.RESET` (70_reset_and_hazards.md R207) and POR (R206). -/

namespace Sys2Proof.Machine

open Sys2Proof

theorem levelOf_replicate (level : Bool) (pin : Pin) : levelOf (Vector.replicate 256 level) pin = level :=
  Vector.getElem_replicate pin.isLt

theorem portRead_of_port_nil {s : State} (h : s.port = []) (k : Nat) : portRead s k = 0 := by
  rw [portRead, h]
  rfl

theorem exec_sysReset {s : State} (hsrc : s.src = .host) :
    exec .sysReset s = .next { powerOn s.cfg with
      cmds := s.cmds, src := s.src, lcdSel := s.lcdSel, resp := s.resp
      registry := s.registry, act := s.act, out := s.out } :=
  hostOnly_of s _ hsrc

/-- Settles O54: field by field of `powerOn`; every unlisted port reads 0. -/
theorem powerOnValues : Obligations.PowerOnValues := by
  intro cfg
  refine ⟨rfl, fun n => ?timer, fun n => ?residue, rfl, rfl, rfl, rfl, rfl, levelOf_replicate false,
    portRead_of_port_nil rfl⟩
  case timer => cases n <;> rfl
  case residue => cases n <;> rfl

/-- Settles O53: the reset is a POR that keeps what is waiting and answered, the circuit and the trace. -/
theorem sysResetKeepsTheCircuit : Obligations.SysResetKeepsTheCircuit := fun _ hsrc =>
  ⟨_, exec_sysReset hsrc, rfl, rfl, rfl, rfl, rfl, rfl, rfl, levelOf_replicate false, portRead_of_port_nil rfl, rfl⟩

end Sys2Proof.Machine
end
